-- ==== Sys2Proof/Word.lean ====
section
/-! DEFINITION. The basic data of the engine: bytes, 32-bit words, columns and 16-byte blocks. -/

namespace Sys2Proof

/-- A byte (00_scope.md R15). -/
abbrev Byte := BitVec 8

/-- A 32-bit register value or an AES word (00_scope.md R15, R16). -/
abbrev Word := BitVec 32

/-- Four like things in order: the bytes of a column, the columns of a block. -/
structure Quad (α : Type) where
  q0 : α
  q1 : α
  q2 : α
  q3 : α
deriving DecidableEq, Repr

/-- One column of the AES state, row 0 first (40_block_primitive.md R127). -/
abbrev Col := Quad Byte

/-- A 16-byte block: columns 0 to 3, so that byte `r + 4c` is row `r` of column `c`
(40_block_primitive.md R127). -/
abbrev Block := Quad Col

/-- Four zero bytes. -/
def Col.zero : Col := ⟨0, 0, 0, 0⟩

/-- The block of 16 zero bytes, `0^16`. -/
def Block.zero : Block := ⟨Col.zero, Col.zero, Col.zero, Col.zero⟩

end Sys2Proof
end

