-- ==== Sys2Proof/Config.lean ====
section
/-! DEFINITION. What an implementation fixes (00_scope.md R12, R13) and the free values of the model. -/

namespace Sys2Proof

/-- The parameters of 00_scope.md R13 that are open to an implementation. A machine never changes
them. They are carried in `State` so that every statement about a state holds for every choice of
them (log entry 3). -/
structure Params where
  /-- `NSLOTS`, the number of slots. -/
  nslots : Nat
  /-- `REG_MAX`, the capacity of the registry. -/
  regMax : Nat
  /-- `MEM_SIZE`, the size of the buffer memory in bytes. -/
  memSize : Nat
  /-- `CTR_PREINC`, the CTR increment order (41_mode_layer.md R185). -/
  ctrPreinc : Bool
deriving DecidableEq, Repr

/-- The default values of 00_scope.md R13. -/
def Params.default : Params := { nslots := 8, regMax := 16, memSize := 65536, ctrPreinc := false }

/-- The legal ranges of 00_scope.md R13. -/
abbrev Params.Legal (p : Params) : Prop :=
  (1 ≤ p.nslots ∧ p.nslots ≤ 256) ∧ (12 ≤ p.regMax ∧ p.regMax ≤ 255) ∧
    (64 ≤ p.memSize ∧ p.memSize ≤ 2 ^ 32)

namespace Config

/-- `NAME_MAX` (00_scope.md R13, fixed). -/
def nameMax : Nat := 32

/-- `ALGNAME_MAX` (00_scope.md R13, fixed). -/
def algNameMax : Nat := 16

/-- `BLOCK_BYTES` (00_scope.md R12). -/
def blockBytes : Nat := 16

/-- FREE VALUE. The byte that `MEM` holds at an address nothing has written since power-up: a
function of the power-up draw and of the address (20_memory.md R68; log entry 2). -/
opaque powerUpByte : Nat → Nat → Byte

/-- FREE VALUE. How many host actions may pass between the acceptance of a command and its
completion: a function of the number of commands accepted before it (70_reset_and_hazards.md R320;
log entry 1). -/
opaque latency : Nat → Nat

/-- OPEN. Where the platform places the register window (20_memory.md R71; log entry 10). Nothing
reads it. -/
opaque windowBase : Nat

/-- OPEN. Where the platform places `MEM` (20_memory.md R71; log entry 10). Nothing reads it. -/
opaque memBase : Nat

end Config
end Sys2Proof
end

