-- ==== Sys2Proof/Machine/Bytes.lean ====
section
/-! DEFINITION. Byte strings, integers from bytes, words and blocks (00_scope.md R15 to R17). -/

namespace Sys2Proof.Machine

/-- `f` at each of the four places. -/
def quadMap {α β : Type} (f : α → β) (q : Quad α) : Quad β :=
  ⟨f q.q0, f q.q1, f q.q2, f q.q3⟩

/-- `f` at each pair of places. -/
def quadZip {α β γ : Type} (f : α → β → γ) (q : Quad α) (r : Quad β) : Quad γ :=
  ⟨f q.q0 r.q0, f q.q1 r.q1, f q.q2 r.q2, f q.q3 r.q3⟩

/-- `be(b)`: the unsigned integer whose most significant byte is `b[0]` (00_scope.md R16). -/
def be (b : List Byte) : Nat := b.foldl (fun acc x => acc * 256 + x.toNat) 0

/-- `be_n(v)`: the `n`-byte string of `v mod 256^n` (00_scope.md R16). -/
def beBytes : Nat → Nat → List Byte
  | 0, _ => []
  | n + 1, v => BitVec.ofNat 8 (v / 256 ^ n) :: beBytes n v

/-- `le16(b0, b1)` (00_scope.md R16). -/
def le16 (b0 b1 : Byte) : Nat := b0.toNat + 256 * b1.toNat

/-- The two bytes of a 16-bit field, low byte first (20_memory.md R65 (c)). -/
def le16Bytes (v : BitVec 16) : List Byte :=
  [BitVec.ofNat 8 v.toNat, BitVec.ofNat 8 (v.toNat / 256)]

/-- `word(b0,b1,b2,b3)`, most significant byte first (00_scope.md R16). -/
def wordOfCol (c : Col) : Word := c.q0 ++ c.q1 ++ c.q2 ++ c.q3

/-- The four bytes of a word, most significant first (00_scope.md R16). -/
def colOfWord (w : Word) : Col :=
  ⟨w.extractLsb' 24 8, w.extractLsb' 16 8, w.extractLsb' 8 8, w.extractLsb' 0 8⟩

/-- Exclusive or of two columns, byte by byte (00_scope.md R17). -/
def xorCol (a b : Col) : Col := quadZip (fun x y => x ^^^ y) a b

/-- Exclusive or of two blocks, byte by byte (00_scope.md R17). -/
def xorBlock (a b : Block) : Block := quadZip xorCol a b

/-- The bytes of a column, row 0 first. -/
def colBytes (c : Col) : List Byte := [c.q0, c.q1, c.q2, c.q3]

/-- The 16 bytes of a block in `MEM` order (40_block_primitive.md R127). -/
def blockBytes (b : Block) : List Byte :=
  colBytes b.q0 ++ colBytes b.q1 ++ colBytes b.q2 ++ colBytes b.q3

/-- Four bytes of a byte string as a column. -/
def colAt (l : List Byte) (i : Nat) : Col :=
  ⟨l.getD i 0, l.getD (i + 1) 0, l.getD (i + 2) 0, l.getD (i + 3) 0⟩

/-- The block of a 16-byte string (40_block_primitive.md R127). -/
def blockOfBytes (l : List Byte) : Block := ⟨colAt l 0, colAt l 4, colAt l 8, colAt l 12⟩

/-- `b[i]` of a block, `i` from 0 to 15. -/
def blockByte (b : Block) (i : Nat) : Byte := (blockBytes b).getD i 0

/-- `b[i] <- x` in a block, `i` from 0 to 15. -/
def setBlockByte (b : Block) (i : Nat) (x : Byte) : Block :=
  blockOfBytes ((blockBytes b).set i x)

/-- The digits of `decimal v`, at most `fuel` of them. -/
def decimalDigits : Nat → Nat → List Byte
  | 0, _ => []
  | fuel + 1, v =>
    if v < 10 then [BitVec.ofNat 8 (0x30 + v)]
    else decimalDigits fuel (v / 10) ++ [BitVec.ofNat 8 (0x30 + v % 10)]

/-- `decimal(v)`: the ASCII decimal form of a 32-bit unsigned value, with no leading zeros
(43_instance.md R233). Ten digits hold every such value. -/
def decimal (v : Nat) : List Byte := decimalDigits 10 v

/-- A byte string brought to `n` bytes with zero bytes after it (42_registry.md R211). -/
def padTo (n : Nat) (l : List Byte) : List Byte := l ++ List.replicate (n - l.length) 0

/-- A number as a 32-bit register value. -/
def toWord (n : Nat) : Word := BitVec.ofNat 32 n

/-- A flag as a number. -/
def bit (b : Bool) : Nat := if b then 1 else 0

end Sys2Proof.Machine
end

