-- ==== Sys2Proof/Machine/Descriptor.lean ====
section
/-! DEFINITION. Cipher descriptors: modes, canonical names, the built-ins and the 64-byte record
(10_state.md R33 to R35, 30_encoding.md R96, 42_registry.md R211, R212, 43_instance.md R233). -/

namespace Sys2Proof.Machine

/-- A descriptor (10_state.md R33). All its fields are zero, and its names empty, in a Free slot (R47). -/
structure Descriptor where
  /-- `NAME`. -/
  name : List Byte
  /-- `ALGNAME`. -/
  algName : List Byte
  /-- `MODE`. -/
  mode : BitVec 4
  /-- `IMPL`. -/
  impl : Byte
  /-- `KEYBITS`. -/
  keyBits : BitVec 16
  /-- `BLOCKLEN`. -/
  blockLen : BitVec 16
deriving DecidableEq, Repr

/-- The four modes of operation (30_encoding.md R96). -/
inductive Mode where
  | ecb | cbc | ctr | cfb
deriving DecidableEq, Repr

/-- The mode code (30_encoding.md R96). -/
def modeCode : Mode → Nat
  | .ecb => 1
  | .cbc => 2
  | .ctr => 3
  | .cfb => 4

/-- The mode of a code, none for a reserved code (30_encoding.md R96). -/
def modeOfCode (n : Nat) : Option Mode :=
  if n = 1 then some .ecb
  else if n = 2 then some .cbc
  else if n = 3 then some .ctr
  else if n = 4 then some .cfb
  else none

/-- `modename`: `ecb`, `cbc`, `ctr`, `cfb` in ASCII (30_encoding.md R96). -/
def modeName : Mode → List Byte
  | .ecb => [0x65, 0x63, 0x62]
  | .cbc => [0x63, 0x62, 0x63]
  | .ctr => [0x63, 0x74, 0x72]
  | .cfb => [0x63, 0x66, 0x62]

/-- The byte `-`. -/
def dash : Byte := 0x2d

/-- `canonical(alg, bits, mode)` (43_instance.md R233). -/
def canonicalName (alg : List Byte) (bits : Nat) (m : Mode) : List Byte :=
  alg ++ [dash] ++ decimal bits ++ [dash] ++ modeName m

/-- `aes` in ASCII (10_state.md R35). -/
def aesName : List Byte := [0x61, 0x65, 0x73]

/-- The code of the one implementation, AES (30_encoding.md R97). -/
def implAes : Byte := 1

/-- A built-in descriptor (10_state.md R35). -/
def builtin (bits : Nat) (m : Mode) : Descriptor :=
  { name := canonicalName aesName bits m, algName := aesName, mode := BitVec.ofNat 4 (modeCode m),
    impl := implAes, keyBits := BitVec.ofNat 16 bits, blockLen := 16 }

/-- The 12 built-in descriptors, in the order of 10_state.md R35. -/
def builtins : List Descriptor :=
  [ builtin 256 .cbc, builtin 192 .cbc, builtin 128 .cbc,
    builtin 256 .ctr, builtin 192 .ctr, builtin 128 .ctr,
    builtin 256 .cfb, builtin 192 .cfb, builtin 128 .cfb,
    builtin 256 .ecb, builtin 192 .ecb, builtin 128 .ecb ]

/-- The all-zero descriptor of a Free slot (10_state.md R47). -/
def zeroDescriptor : Descriptor :=
  { name := [], algName := [], mode := 0, impl := 0, keyBits := 0, blockLen := 0 }

/-- The 64-byte record that RESOLVE writes, padding and reserved bytes 0 (42_registry.md R211). -/
def recordBytes (d : Descriptor) : List Byte :=
  [BitVec.ofNat 8 d.name.length, BitVec.ofNat 8 d.algName.length,
    BitVec.ofNat 8 d.mode.toNat, d.impl] ++ le16Bytes d.keyBits ++ le16Bytes d.blockLen ++
    padTo 32 d.name ++ padTo 16 d.algName ++ List.replicate 8 0

/-- Byte `i` of a record. -/
def recByte (rec : List Byte) (i : Nat) : Byte := rec.getD i 0

/-- The record's `KEYBITS` field (42_registry.md R211). -/
def recKeyBits (rec : List Byte) : Nat := le16 (recByte rec 4) (recByte rec 5)

/-- The record's `BLOCKLEN` field (42_registry.md R211). -/
def recBlockLen (rec : List Byte) : Nat := le16 (recByte rec 6) (recByte rec 7)

/-- The descriptor that REGISTER makes of a valid record; padding and reserved bytes are ignored
(42_registry.md R210, R211). -/
def descriptorOfRecord (rec : List Byte) : Descriptor :=
  { name := (rec.drop 8).take (recByte rec 0).toNat
    algName := (rec.drop 40).take (recByte rec 1).toNat
    mode := BitVec.ofNat 4 (recByte rec 2).toNat
    impl := implAes
    keyBits := BitVec.ofNat 16 (recKeyBits rec)
    blockLen := 16 }

end Sys2Proof.Machine
end

