-- ==== Sys2Proof/Machine/State.lean ====
section
/-! DEFINITION. The state of the machine (10_state.md), its reset, and the reasons a step can stop. -/

namespace Sys2Proof.Machine

/-- The result codes that a command can produce (60_exceptions.md R270). -/
inductive ErrCode where
  | ok | illegal | badSlot | notFound | unsupported | keyLen | ivLen | notKeyed
  | length | direction | noResource | memRange | name
deriving DecidableEq, Repr

/-- The fields of `STATUS` (10_state.md R24). Its reserved bits read 0 and are not stored. -/
structure Status where
  /-- `BUSY`. -/
  busy : Bool
  /-- `DONE`. -/
  done : Bool
  /-- `ERR`. -/
  err : Bool
  /-- `OVR`. -/
  ovr : Bool
  /-- `ERRCODE`. -/
  errcode : ErrCode
deriving DecidableEq, Repr

/-- The registers of the window that hold a value (10_state.md R22 to R25). `CTRL`, the reserved
offsets and the constants hold none (R26 to R30). -/
structure Window where
  /-- `CMD`. -/
  cmd : Word
  /-- `ARG0`. -/
  arg0 : Word
  /-- `ARG1`. -/
  arg1 : Word
  /-- `ARG2`. -/
  arg2 : Word
  /-- `ARG3`. -/
  arg3 : Word
  /-- `STATUS`. -/
  status : Status
  /-- `RESULT`. -/
  result : Word
deriving DecidableEq, Repr

/-- The command latch (10_state.md R32). -/
structure Latch where
  /-- `LATCH.CMD`. -/
  cmd : Word
  /-- `LATCH.ARG[0]`. -/
  arg0 : Word
  /-- `LATCH.ARG[1]`. -/
  arg1 : Word
  /-- `LATCH.ARG[2]`. -/
  arg2 : Word
  /-- `LATCH.ARG[3]`. -/
  arg3 : Word
deriving DecidableEq, Repr

/-- One slot (10_state.md R40). -/
structure Slot where
  /-- `ALLOC`. -/
  alloc : Bool
  /-- `DESC`. -/
  desc : Descriptor
  /-- `KEYED`. -/
  keyed : Bool
  /-- `ENC`. -/
  enc : Bool
  /-- `SCHED`, true for a decryption-oriented schedule. -/
  sched : Bool
  /-- `NR`. -/
  nr : Fin 16
  /-- `RK[0..59]`. -/
  rk : List Word
  /-- `IV`. -/
  iv : Block
  /-- `KS`. -/
  ks : Block
  /-- `CUR`. -/
  cur : Fin 16
deriving DecidableEq, Repr

/-- A Free slot: every field 0 (10_state.md R47). -/
def Slot.zero : Slot :=
  { alloc := false, desc := zeroDescriptor, keyed := false, enc := false, sched := false, nr := 0,
    rk := List.replicate 60 0, iv := Block.zero, ks := Block.zero, cur := 0 }

/-- The buffer memory `MEM` (20_memory.md R61): the bytes written since power-up, by strictly rising
address, and which power-up draw the other bytes come from (R68; log entry 2). -/
structure Memory where
  /-- The number of the power-up draw. -/
  draw : Nat
  /-- The written bytes. -/
  cells : List Host.Cell
deriving DecidableEq, Repr

/-- One thing a host does (60_exceptions.md R290, 30_encoding.md R100), or a power-up
(70_reset_and_hazards.md R300). -/
inductive HostAction where
  /-- A read of `width` bits at a byte offset of the window. -/
  | readWindow (offset width : Nat)
  /-- A write of `width` bits at a byte offset of the window. -/
  | writeWindow (offset width : Nat) (value : Word)
  /-- A read of one byte of `MEM`. -/
  | readMem (address : Nat)
  /-- A write of one byte of `MEM`. -/
  | writeMem (address : Nat) (value : Byte)
  /-- Read `STATUS` until `DONE = 1`. -/
  | waitDone
  /-- The engine is powered up again. -/
  | powerUp
deriving DecidableEq, Repr

/-- What a host got back from a read (60_exceptions.md R290). -/
inductive HostReply where
  | word (value : Word)
  | byte (value : Byte)
deriving DecidableEq, Repr

/-- The host as plain data (10_state.md R53, 70_reset_and_hazards.md R321; log entry 4). -/
structure HostState where
  /-- The host program. -/
  program : List HostAction
  /-- The host program index. -/
  index : Nat
  /-- What the host has read, newest first. -/
  replies : List HostReply
  /-- The host has read `DONE = 1` for its last accepted command, or none was accepted (log entry 14). -/
  doneRead : Bool
deriving DecidableEq, Repr

/-- The state of the machine: the engine's (10_state.md R21), `MEM`, the parameters, and the model's
own fields for the host and for the free choices of time. -/
structure State where
  /-- The parameters, which no step changes (00_scope.md R13). -/
  params : Params
  /-- The register window (10_state.md R22 to R30). -/
  window : Window
  /-- The command latch (10_state.md R32). -/
  latch : Latch
  /-- `REGISTRY.E[0..N-1]` (10_state.md R33). -/
  registry : List Descriptor
  /-- `slot[0..NSLOTS-1]` (10_state.md R40). -/
  slots : List Slot
  /-- `MEM` (20_memory.md R61). -/
  mem : Memory
  /-- MODEL'S OWN: how many more host actions may pass before the command in progress completes. -/
  delay : Nat
  /-- MODEL'S OWN: how many commands were accepted, the argument of the free value `Config.latency`. -/
  accepted : Nat
  /-- MODEL'S OWN: the host. -/
  host : HostState
deriving DecidableEq, Repr

/-- The reasons the machine stops with a fault. -/
inductive Fault where
  /-- A host access to a `MEM` address at or above `MEM_SIZE`, which does not exist (20_memory.md R60,
  R61). Raised by the host's `readMem` and `writeMem`. SAFE: the run stops (log entry 7). -/
  | memAddressAbsent (address : Nat)
deriving DecidableEq, Repr

/-- The reasons the machine has no move. -/
inductive Refusal where
  /-- An instruction that has no meaning yet. No arm of `exec` answers it. SAFE. -/
  | notModelled (mnemonic : String)
  /-- A window access that is not an aligned 32-bit access inside the window: "The model gives the host
  no such move: it is refused" (20_memory.md R70). Raised by `readWindow` and `writeWindow`. SAFE. -/
  | windowAccessWithoutMove (offset width : Nat)
  /-- A host access to a `MEM` byte in the ranges of the command in progress: "The model gives the host
  no such move" (70_reset_and_hazards.md R310). Raised by `readMem` and `writeMem`. SAFE (log entry 6). -/
  | memAccessInRunningRange (address : Nat)
deriving DecidableEq, Repr

/-- `STATUS = 0` (10_state.md R55). -/
def Status.zero : Status :=
  { busy := false, done := false, err := false, ovr := false, errcode := .ok }

/-- Every stored register of the window 0 (10_state.md R55). -/
def Window.zero : Window :=
  { cmd := 0, arg0 := 0, arg1 := 0, arg2 := 0, arg3 := 0, status := Status.zero, result := 0 }

/-- The latch all zero (10_state.md R55). -/
def Latch.zero : Latch := { cmd := 0, arg0 := 0, arg1 := 0, arg2 := 0, arg3 := 0 }

/-- The state right after power-up with given parameters (70_reset_and_hazards.md R300, 10_state.md
R55): nothing is listed in `MEM`, and the host has no program (log entry 4). -/
def State.resetWith (p : Params) : State :=
  { params := p
    window := Window.zero
    latch := Latch.zero
    registry := builtins
    slots := List.replicate p.nslots Slot.zero
    mem := { draw := 0, cells := [] }
    delay := 0
    accepted := 0
    host := { program := [], index := 0, replies := [], doneRead := true } }

/-- The state right after power-up, with the default parameters (00_scope.md R13). -/
def State.reset : State := State.resetWith Params.default

end Sys2Proof.Machine
end

