-- ==== Sys2Proof/Machine/Flags.lean ====
section
/-! DEFINITION. The result codes and the `STATUS` word: every flag the engine has
(10_state.md R24, R50, 60_exceptions.md R270, R271). -/

namespace Sys2Proof.Machine

/-- The number of a result code (60_exceptions.md R270). -/
def errCode : ErrCode → Nat
  | .ok => 0
  | .illegal => 1
  | .badSlot => 2
  | .notFound => 3
  | .unsupported => 4
  | .keyLen => 5
  | .ivLen => 6
  | .notKeyed => 7
  | .length => 8
  | .direction => 9
  | .noResource => 10
  | .memRange => 11
  | .name => 12

/-- The flags at the acceptance of a command; `OVR` is kept (10_state.md R22). -/
def statusAtAcceptance (st : Status) : Status :=
  { busy := true, done := false, err := false, ovr := st.ovr, errcode := .ok }

/-- The flags at the completion of a command; `OVR` is kept (60_exceptions.md R271). -/
def statusAtCompletion (e : ErrCode) (st : Status) : Status :=
  { busy := false, done := true, err := decide (e ≠ .ok), ovr := st.ovr, errcode := e }

/-- The flags after a `CMD` write that is not accepted (60_exceptions.md R276). -/
def statusAtOverrun (st : Status) : Status := { st with ovr := true }

/-- The flags after `CTRL.OVRCLR` (10_state.md R26). -/
def statusAtOvrClear (st : Status) : Status := { st with ovr := false }

/-- The 32-bit value of `STATUS`, reserved bits 0 (10_state.md R24). -/
def statusWord (st : Status) : Word :=
  toWord (bit st.busy + 2 * bit st.done + 4 * bit st.err + 8 * bit st.ovr + 256 * errCode st.errcode)

end Sys2Proof.Machine
end

