-- ==== Sys2Proof/Machine/Ops.lean ====
section
/-! DEFINITION. The shared operations: `MEM`, the slots, acceptance, completion, `raise`, and the two
resets. -/

namespace Sys2Proof.Machine

/-! ### MEM -/

/-- The written byte at an address, if there is one. -/
def lookupCell : List Host.Cell → Nat → Option Byte
  | [], _ => none
  | (a, b) :: rest, x => if a = x then some b else lookupCell rest x

/-- The cells after a byte is written, by strictly rising address. -/
def insertCell : List Host.Cell → Nat → Byte → List Host.Cell
  | [], x, v => [(x, v)]
  | (a, b) :: rest, x, v =>
    if x < a then (x, v) :: (a, b) :: rest
    else if x = a then (x, v) :: rest
    else (a, b) :: insertCell rest x v

/-- The canonical form of `MEM`: addresses strictly rising. An unlisted address is one that nothing has
written since power-up, so no entry equals what an unlisted address holds (log entry 2). -/
abbrev Memory.wf (m : Memory) : Prop := m.cells.Pairwise (fun x y => x.1 < y.1)

/-- `MEM[a]`. A byte that nothing has written since power-up is a free value (20_memory.md R68). -/
def memRead (m : Memory) (a : Nat) : Byte :=
  (lookupCell m.cells a).getD (Config.powerUpByte m.draw a)

/-- `MEM[a] <- v`. -/
def memWrite (m : Memory) (a : Nat) (v : Byte) : Memory :=
  { m with cells := insertCell m.cells a v }

/-- `MemRead(a, n)` (00_scope.md R18). -/
def readBytes (m : Memory) : Nat → Nat → List Byte
  | _, 0 => []
  | a, n + 1 => memRead m a :: readBytes m (a + 1) n

/-- `MemWrite(a, n, b)`, `n` the length of `b` (00_scope.md R18). -/
def writeBytes (m : Memory) : Nat → List Byte → Memory
  | _, [] => m
  | a, b :: bs => writeBytes (memWrite m a b) (a + 1) bs

/-- `MemRead(a, 16)` as a block. -/
def readBlock (m : Memory) (a : Nat) : Block := blockOfBytes (readBytes m a 16)

/-- `MemWrite(a, 16, b)`. -/
def writeBlock (m : Memory) (a : Nat) (b : Block) : Memory := writeBytes m a (blockBytes b)

/-- `InRange(a, n)`, over the unbounded integers (00_scope.md R18, 20_memory.md R66). -/
def inRange (p : Params) (a n : Nat) : Bool := n == 0 || decide (a + n ≤ p.memSize)

/-! ### Slots -/

/-- `slot[k]`; a number at or above `NSLOTS` names no slot, and every command checks that first. -/
def State.slot (s : State) (k : Nat) : Slot := s.slots.getD k Slot.zero

/-- `slot[k] <- x`. -/
def State.setSlot (s : State) (k : Nat) (x : Slot) : State := { s with slots := s.slots.set k x }

/-- The lowest-numbered Free slot (43_instance.md R231). -/
def State.firstFree (s : State) : Option Nat := s.slots.findIdx? (fun x => !x.alloc)

/-- A new Unkeyed slot: all zero but `ALLOC` and `DESC` (43_instance.md R230). -/
def freshSlot (d : Descriptor) : Slot := { Slot.zero with alloc := true, desc := d }

/-! ### Acceptance, completion and `raise` -/

/-- The acceptance of a `CMD` write (10_state.md R22, R32); the host has yet to read `DONE = 1` for this
command (70_reset_and_hazards.md R321). -/
def State.accept (s : State) (v : Word) : State :=
  { s with
    latch := { cmd := v, arg0 := s.window.arg0, arg1 := s.window.arg1, arg2 := s.window.arg2,
               arg3 := s.window.arg3 }
    window := { s.window with cmd := v, status := statusAtAcceptance s.window.status, result := 0 }
    host := { s.host with doneRead := false } }

/-- `complete(code, value)` (60_exceptions.md R271). No command is in flight afterwards. -/
def State.complete (s : State) (e : ErrCode) (value : Word) : State :=
  { s with
    window := { s.window with status := statusAtCompletion e s.window.status,
                              result := if e = .ok then value else 0 }
    delay := 0 }

/-- `raise Error(E)`: what this engine has in place of taking an exception (60_exceptions.md R272,
R279). Nothing is saved and nothing is returned to (R280). -/
def State.raiseError (s : State) (e : ErrCode) : State := s.complete e 0

/-- The first failing check of a rule's list, in its order (60_exceptions.md R273). A check is written
with the condition under which it fails. -/
def firstFailure : List (Bool × ErrCode) → Option ErrCode
  | [] => none
  | (bad, e) :: rest => if bad then some e else firstFailure rest

/-- The end of every command: `raise` the first failing check, or take the effect and complete with
the result value (60_exceptions.md R271 to R273). -/
def State.finish (s : State) (checks : List (Bool × ErrCode)) (effect : State) (value : Word) : State :=
  match firstFailure checks with
  | some e => s.raiseError e
  | none => effect.complete .ok value

/-! ### Resets -/

/-- Soft reset: the engine's state as after power-up, `MEM` unchanged (70_reset_and_hazards.md R301,
R302). -/
def State.softReset (s : State) : State :=
  { State.resetWith s.params with mem := s.mem, accepted := s.accepted, host := s.host }

/-- Power-up while a host program runs: the engine's state of 70_reset_and_hazards.md R300 and a new
draw of `MEM` (R303; log entry 9). -/
def State.powerUpReset (s : State) : State :=
  { State.resetWith s.params with
    mem := { draw := s.mem.draw + 1, cells := [] }, accepted := s.accepted, host := s.host }

end Sys2Proof.Machine
end

