-- ==== Sys2Proof/Machine/Operands.lean ====
section
/-! DEFINITION. The operands of the commands and the checks that several commands share
(30_encoding.md R95, 42_registry.md R217, 43_instance.md R229). -/

namespace Sys2Proof.Machine

/-- `ARG0` of the command: the latched copy, used as it stands (10_state.md R32, 30_encoding.md R95). -/
def State.arg0 (s : State) : Nat := s.latch.arg0.toNat

/-- `ARG1` of the command. -/
def State.arg1 (s : State) : Nat := s.latch.arg1.toNat

/-- `ARG2` of the command. -/
def State.arg2 (s : State) : Nat := s.latch.arg2.toNat

/-- `ARG3` of the command. -/
def State.arg3 (s : State) : Nat := s.latch.arg3.toNat

/-- A range operand fails `InRange` (20_memory.md R66). -/
def outOfRange (s : State) (a n : Nat) : Bool := !inRange s.params a n

/-- The checks on a `SLOT` field that names an instance (43_instance.md R229). -/
def slotChecks (s : State) (k : Nat) : List (Bool × ErrCode) :=
  [(decide (s.params.nslots ≤ k), .badSlot), (!(s.slot k).alloc, .badSlot)]

/-- The length of a name operand is outside 1 to `limit`. -/
def badNameLength (n limit : Nat) : Bool := decide (n < 1) || decide (limit < n)

/-- The checks on the name operand `(ARG0, ARG1)` (42_registry.md R217). -/
def nameOperandChecks (s : State) : List (Bool × ErrCode) :=
  [(badNameLength s.arg1 Config.nameMax, .name), (outOfRange s s.arg0 s.arg1, .memRange)]

/-- The bytes of the name operand `(ARG0, ARG1)` (42_registry.md R217). -/
def nameOperand (s : State) : List Byte := readBytes s.mem s.arg0 s.arg1

/-- `find(x)`: the index of the entry with exactly this name (42_registry.md R217). -/
def findName (reg : List Descriptor) (x : List Byte) : Option Nat :=
  reg.findIdx? (fun d => d.name == x)

/-- `REGISTRY.E[i]`. -/
def State.entry (s : State) (i : Nat) : Descriptor := s.registry.getD i zeroDescriptor

/-- The index that `find` gives, when it gives one. -/
def indexOr0 (o : Option Nat) : Nat := o.getD 0

/-- A descriptor's mode (30_encoding.md R96). -/
def modeOf (d : Descriptor) : Option Mode := modeOfCode d.mode.toNat

/-- The mode is ECB or CBC: data in whole blocks, one direction a schedule (41_mode_layer.md R173,
43_instance.md R237). -/
def isBlockMode (d : Descriptor) : Bool := modeOf d == some .ecb || modeOf d == some .cbc

/-- A key length is 128, 192 or 256 (00_scope.md R12). -/
def isKeyBits (n : Nat) : Bool := n == 128 || n == 192 || n == 256

end Sys2Proof.Machine
end

