-- ==== Sys2Proof/Machine/Accessors.lean ====
section
/-! DEFINITION. The accessors GET_* (43_instance.md, section 5). None changes a slot (R249). -/

namespace Sys2Proof.Machine

/-- An accessor that only gives a value (43_instance.md R242 to R244, R247). -/
def getValue (s : State) (k v : Nat) : Host.Outcome State Fault Refusal :=
  .next (s.finish (slotChecks s k) s (toWord v))

/-- An accessor that writes bytes at `ARG0` and gives their number (43_instance.md R245, R246, R248). -/
def getBytes (s : State) (k : Nat) (bs : List Byte) : Host.Outcome State Fault Refusal :=
  .next (s.finish (slotChecks s k ++ [(outOfRange s s.arg0 bs.length, .memRange)])
    { s with mem := writeBytes s.mem s.arg0 bs } (toWord bs.length))

/-- `GET_BLOCK_LEN` (43_instance.md R242). -/
def execGetBlockLen (k : Nat) (s : State) : Host.Outcome State Fault Refusal :=
  getValue s k (s.slot k).desc.blockLen.toNat

/-- `GET_IV_LEN`: the IV is one block (43_instance.md R243). -/
def execGetIvLen (k : Nat) (s : State) : Host.Outcome State Fault Refusal :=
  getValue s k (s.slot k).desc.blockLen.toNat

/-- `GET_KEY_LEN` (43_instance.md R244). -/
def execGetKeyLen (k : Nat) (s : State) : Host.Outcome State Fault Refusal :=
  getValue s k (s.slot k).desc.keyBits.toNat

/-- `GET_NAME` (43_instance.md R245). -/
def execGetName (k : Nat) (s : State) : Host.Outcome State Fault Refusal :=
  getBytes s k (s.slot k).desc.name

/-- `GET_ALG_NAME` (43_instance.md R246). -/
def execGetAlgName (k : Nat) (s : State) : Host.Outcome State Fault Refusal :=
  getBytes s k (s.slot k).desc.algName

/-- `GET_MODE` (43_instance.md R247). -/
def execGetMode (k : Nat) (s : State) : Host.Outcome State Fault Refusal :=
  getValue s k (s.slot k).desc.mode.toNat

/-- `GET_IV` (43_instance.md R248). -/
def execGetIv (k : Nat) (s : State) : Host.Outcome State Fault Refusal :=
  getBytes s k (blockBytes (s.slot k).iv)

/-- The state word of a slot (43_instance.md R250). -/
def slotStateValue (x : Slot) : Nat :=
  if x.alloc then
    bit x.alloc + 2 * bit x.keyed + 4 * bit x.enc + 8 * bit x.sched + 2 ^ 8 * x.cur.val
      + 2 ^ 16 * x.desc.mode.toNat
  else 0

/-- `GET_STATE`: it works on a Free slot too (43_instance.md R250). -/
def execGetState (k : Nat) (s : State) : Host.Outcome State Fault Refusal :=
  .next (s.finish [(decide (s.params.nslots ≤ k), .badSlot)] s (toWord (slotStateValue (s.slot k))))

end Sys2Proof.Machine
end

