-- ==== Sys2Proof/Machine/Field.lean ====
section
/-! DEFINITION. The field GF(2^8), the S-boxes and the round constants
(40_block_primitive.md R120 to R126). -/

namespace Sys2Proof.Machine

/-- `xtime(a)`, the product by 02 (40_block_primitive.md R122). -/
def xtime (a : Byte) : Byte := (a <<< 1) ^^^ (if a.msb then 0x1B else 0x00)

/-- The loop of `gmul` (40_block_primitive.md R121). -/
def gmulLoop : Nat → Byte → Byte → Byte → Byte
  | 0, _, _, r => r
  | k + 1, a, b, r => gmulLoop k (xtime a) (b >>> 1) (if b.getLsbD 0 then r ^^^ a else r)

/-- `a • b`, multiplication in GF(2^8) (40_block_primitive.md R121). -/
def gmul (a b : Byte) : Byte := gmulLoop 8 a b 0

/-- All 256 bytes in order. -/
def allBytes : List Byte := (List.range 256).map (fun n => BitVec.ofNat 8 n)

/-- `inv(a)`: the byte `b` with `a • b = 01`, and 00 for 00 (40_block_primitive.md R123). -/
def ginv (a : Byte) : Byte := ((allBytes.find? (fun b => gmul a b == 0x01))).getD 0x00

/-- The affine map `A` of 40_block_primitive.md R124. -/
def affine (b : Byte) : Byte :=
  b ^^^ b.rotateLeft 1 ^^^ b.rotateLeft 2 ^^^ b.rotateLeft 3 ^^^ b.rotateLeft 4 ^^^ 0x63

/-- The S-box by its definition, `S(x) = A(inv(x))` (40_block_primitive.md R124). `sbox` is the same
function by its table. -/
def sboxByField (x : Byte) : Byte := affine (ginv x)

/-- Entry `x` of a table of 16 rows of 16 bytes: the row is the high nibble of `x`, the column its
low nibble. Each row is one number whose most significant byte is column 0. -/
def tableEntry (rows : List Nat) (x : Byte) : Byte :=
  BitVec.ofNat 8 (rows.getD (x.toNat / 16) 0 >>> (8 * (15 - x.toNat % 16)))

/-- The printed table of 40_block_primitive.md R124. -/
def sboxRows : List Nat :=
  [ 0x637c777bf26b6fc53001672bfed7ab76, 0xca82c97dfa5947f0add4a2af9ca472c0,
    0xb7fd9326363ff7cc34a5e5f171d83115, 0x04c723c31896059a071280e2eb27b275,
    0x09832c1a1b6e5aa0523bd6b329e32f84, 0x53d100ed20fcb15b6acbbe394a4c58cf,
    0xd0efaafb434d338545f9027f503c9fa8, 0x51a3408f929d38f5bcb6da2110fff3d2,
    0xcd0c13ec5f974417c4a77e3d645d1973, 0x60814fdc222a908846eeb814de5e0bdb,
    0xe0323a0a4906245cc2d3ac629195e479, 0xe7c8376d8dd54ea96c56f4ea657aae08,
    0xba78252e1ca6b4c6e8dd741f4bbd8b8a, 0x703eb5664803f60e613557b986c11d9e,
    0xe1f8981169d98e949b1e87e9ce5528df, 0x8ca1890dbfe6426841992d0fb054bb16 ]

/-- The S-box (40_block_primitive.md R124). -/
def sbox (x : Byte) : Byte := tableEntry sboxRows x

/-- The table of the inverse permutation of `sboxRows`.
DEDUCED (log entry 5): the table printed under 40_block_primitive.md R125 is the table of `S` again
and contradicts that rule's sentence. The sentence and 95_test_vectors.md V36 are followed. -/
def invSboxRows : List Nat :=
  [ 0x52096ad53036a538bf40a39e81f3d7fb, 0x7ce339829b2fff87348e4344c4dee9cb,
    0x547b9432a6c2233dee4c950b42fac34e, 0x082ea16628d924b2765ba2496d8bd125,
    0x72f8f66486689816d4a45ccc5d65b692, 0x6c704850fdedb9da5e154657a78d9d84,
    0x90d8ab008cbcd30af7e45805b8b34506, 0xd02c1e8fca3f0f02c1afbd0301138a6b,
    0x3a9111414f67dcea97f2cfcef0b4e673, 0x96ac7422e7ad3585e2f937e81c75df6e,
    0x47f11a711d29c5896fb7620eaa18be1b, 0xfc563e4bc6d279209adbc0fe78cd5af4,
    0x1fdda8338807c731b11210592780ec5f, 0x60517fa919b54a0d2de57a9f93c99cef,
    0xa0e03b4dae2af5b0c8ebbb3c83539961, 0x172b047eba77d626e169146355210c7d ]

/-- The inverse S-box, the inverse permutation of `sbox` (40_block_primitive.md R125). -/
def invSbox (x : Byte) : Byte := tableEntry invSboxRows x

/-- `Rcon[j] = x^(j-1)` as a byte, for `j` from 1 (40_block_primitive.md R126). -/
def rconByte : Nat → Byte
  | 0 => 0x00
  | 1 => 0x01
  | j + 2 => xtime (rconByte (j + 1))

/-- `Rcon[j]` as the word `word(Rcon[j], 00, 00, 00)` (40_block_primitive.md R126). -/
def rconWord (j : Nat) : Word := wordOfCol ⟨rconByte j, 0, 0, 0⟩

end Sys2Proof.Machine
end

