-- ==== Sys2Proof/Machine/Cipher.lean ====
section
/-! DEFINITION. The block primitive: the state transforms, the key schedule expander and the
single-block transforms (40_block_primitive.md R127 to R156). -/

namespace Sys2Proof.Machine

/-- `SubBytes` (40_block_primitive.md R128). -/
def subBytes (s : Block) : Block := quadMap (quadMap sbox) s

/-- `InvSubBytes` (40_block_primitive.md R129). -/
def invSubBytes (s : Block) : Block := quadMap (quadMap invSbox) s

/-- `ShiftRows`: `s'[r][c] = s[r][(c + r) mod 4]` (40_block_primitive.md R130). -/
def shiftRows (s : Block) : Block :=
  ⟨⟨s.q0.q0, s.q1.q1, s.q2.q2, s.q3.q3⟩,
   ⟨s.q1.q0, s.q2.q1, s.q3.q2, s.q0.q3⟩,
   ⟨s.q2.q0, s.q3.q1, s.q0.q2, s.q1.q3⟩,
   ⟨s.q3.q0, s.q0.q1, s.q1.q2, s.q2.q3⟩⟩

/-- `InvShiftRows`: `s'[r][c] = s[r][(c - r) mod 4]` (40_block_primitive.md R131). -/
def invShiftRows (s : Block) : Block :=
  ⟨⟨s.q0.q0, s.q3.q1, s.q2.q2, s.q1.q3⟩,
   ⟨s.q1.q0, s.q0.q1, s.q3.q2, s.q2.q3⟩,
   ⟨s.q2.q0, s.q1.q1, s.q0.q2, s.q3.q3⟩,
   ⟨s.q3.q0, s.q2.q1, s.q1.q2, s.q0.q3⟩⟩

/-- `MixColumns` on one column (40_block_primitive.md R132). -/
def mixCol (a : Col) : Col :=
  ⟨gmul 0x02 a.q0 ^^^ gmul 0x03 a.q1 ^^^ gmul 0x01 a.q2 ^^^ gmul 0x01 a.q3,
   gmul 0x01 a.q0 ^^^ gmul 0x02 a.q1 ^^^ gmul 0x03 a.q2 ^^^ gmul 0x01 a.q3,
   gmul 0x01 a.q0 ^^^ gmul 0x01 a.q1 ^^^ gmul 0x02 a.q2 ^^^ gmul 0x03 a.q3,
   gmul 0x03 a.q0 ^^^ gmul 0x01 a.q1 ^^^ gmul 0x01 a.q2 ^^^ gmul 0x02 a.q3⟩

/-- `InvMixColumns` on one column (40_block_primitive.md R133). -/
def invMixCol (a : Col) : Col :=
  ⟨gmul 0x0e a.q0 ^^^ gmul 0x0b a.q1 ^^^ gmul 0x0d a.q2 ^^^ gmul 0x09 a.q3,
   gmul 0x09 a.q0 ^^^ gmul 0x0e a.q1 ^^^ gmul 0x0b a.q2 ^^^ gmul 0x0d a.q3,
   gmul 0x0d a.q0 ^^^ gmul 0x09 a.q1 ^^^ gmul 0x0e a.q2 ^^^ gmul 0x0b a.q3,
   gmul 0x0b a.q0 ^^^ gmul 0x0d a.q1 ^^^ gmul 0x09 a.q2 ^^^ gmul 0x0e a.q3⟩

/-- `MixColumns` (40_block_primitive.md R132). -/
def mixColumns (s : Block) : Block := quadMap mixCol s

/-- `InvMixColumns` (40_block_primitive.md R133). -/
def invMixColumns (s : Block) : Block := quadMap invMixCol s

/-- `IMCw(w)` (40_block_primitive.md R133). -/
def imcWord (w : Word) : Word := wordOfCol (invMixCol (colOfWord w))

/-- Word `i` of a round-key array. -/
def keyWord (k : List Word) (i : Nat) : Word := k.getD i 0

/-- Group `j` of a round-key array, `K[4j..4j+3]`, as columns (40_block_primitive.md R134). -/
def roundKey (k : List Word) (j : Nat) : Block :=
  ⟨colOfWord (keyWord k (4 * j)), colOfWord (keyWord k (4 * j + 1)),
   colOfWord (keyWord k (4 * j + 2)), colOfWord (keyWord k (4 * j + 3))⟩

/-- `AddRoundKey(s, K, j)` (40_block_primitive.md R134). -/
def addRoundKey (s : Block) (k : List Word) (j : Nat) : Block := xorBlock s (roundKey k j)

/-- `RotWord` (40_block_primitive.md R135). -/
def rotWord (w : Word) : Word :=
  wordOfCol ⟨(colOfWord w).q1, (colOfWord w).q2, (colOfWord w).q3, (colOfWord w).q0⟩

/-- `SubWord` (40_block_primitive.md R135). -/
def subWord (w : Word) : Word := wordOfCol (quadMap sbox (colOfWord w))

/-- The word `t` that the key expansion adds at index `i`, from `w[i-1]`
(40_block_primitive.md R136). -/
def expansionTerm (nk i : Nat) (prev : Word) : Word :=
  if i % nk = 0 then subWord (rotWord prev) ^^^ rconWord (i / nk)
  else if nk = 8 ∧ i % 8 = 4 then subWord prev
  else prev

/-- `w[i]` for `i` the number of words there are (40_block_primitive.md R136). -/
def nextKeyWord (nk : Nat) (w : List Word) : Word :=
  keyWord w (w.length - nk) ^^^ expansionTerm nk w.length (keyWord w (w.length - 1))

/-- `count` more words of the key expansion. -/
def expandWords (nk : Nat) : Nat → List Word → List Word
  | 0, w => w
  | count + 1, w => expandWords nk count (w ++ [nextKeyWord nk w])

/-- The first `nk` words of the expansion, the key itself (40_block_primitive.md R136). -/
def keyWords (nk : Nat) (key : List Byte) : List Word :=
  (List.range nk).map (fun i => wordOfCol (colAt key (4 * i)))

/-- `Nk` of a key (00_scope.md R12). -/
def keyNk (key : List Byte) : Nat := key.length / 4

/-- `Nr = Nk + 6` of a key: the key length alone fixes the rounds (40_block_primitive.md R141). -/
def keyNr (key : List Byte) : Nat := keyNk key + 6

/-- `derive_encrypt_schedule`: the words of `KeyExpansion(key)` (40_block_primitive.md R136, R140). -/
def encryptSchedule (key : List Byte) : List Word :=
  expandWords (keyNk key) (4 * (keyNr key + 1) - keyNk key) (keyWords (keyNk key) key)

/-- Word `i` of the decryption-oriented schedule (40_block_primitive.md R142). -/
def decryptKeyWord (nr : Nat) (ek : List Word) (i : Nat) : Word :=
  if i / 4 = 0 ∨ i / 4 = nr then keyWord ek (4 * (nr - i / 4) + i % 4)
  else imcWord (keyWord ek (4 * (nr - i / 4) + i % 4))

/-- `derive_decrypt_schedule`: groups reversed, the middle ones through `IMCw`
(40_block_primitive.md R142). -/
def decryptSchedule (key : List Byte) : List Word :=
  (List.range (4 * (keyNr key + 1))).map (decryptKeyWord (keyNr key) (encryptSchedule key))

/-- One full round (40_block_primitive.md R150). -/
def encRound (k : List Word) (j : Nat) (s : Block) : Block :=
  addRoundKey (mixColumns (shiftRows (subBytes s))) k j

/-- One full inverse round (40_block_primitive.md R154). -/
def decRound (k : List Word) (j : Nat) (s : Block) : Block :=
  addRoundKey (invMixColumns (invShiftRows (invSubBytes s))) k j

/-- `count` rounds from round `j` on. -/
def rounds (f : Nat → Block → Block) : Nat → Nat → Block → Block
  | 0, _, s => s
  | count + 1, j, s => rounds f count (j + 1) (f j s)

/-- `AES_Enc(EK, Nr, in)` (40_block_primitive.md R150). -/
def aesEnc (ek : List Word) (nr : Nat) (b : Block) : Block :=
  addRoundKey (shiftRows (subBytes (rounds (encRound ek) (nr - 1) 1 (addRoundKey b ek 0)))) ek nr

/-- `AES_Dec(DK, Nr, in)` (40_block_primitive.md R154). -/
def aesDec (dk : List Word) (nr : Nat) (b : Block) : Block :=
  addRoundKey (invShiftRows (invSubBytes (rounds (decRound dk) (nr - 1) 1 (addRoundKey b dk 0)))) dk nr

end Sys2Proof.Machine
end

