-- ==== Sys2Proof/Machine/Lifecycle.lean ====
section
/-! DEFINITION. The commands that create, key, seed and destroy an instance: ALLOC, ALLOC_PARTS, FREE,
SETKEY, SETIV, POKEIV (43_instance.md). -/

namespace Sys2Proof.Machine

/-! ### Allocation and destruction -/

/-- No slot is Free (43_instance.md R230). -/
def noFreeSlot (s : State) : Bool := s.firstFree.isNone

/-- The slot that an allocation takes (43_instance.md R231). -/
def freeIndex (s : State) : Nat := indexOr0 s.firstFree

/-- The effect of an allocation from registry entry `i` (43_instance.md R230). -/
def allocateFrom (s : State) (i : Nat) : State := s.setSlot (freeIndex s) (freshSlot (s.entry i))

/-- The checks of ALLOC (43_instance.md R230). -/
def allocChecks (s : State) : List (Bool × ErrCode) :=
  nameOperandChecks s ++ [((findName s.registry (nameOperand s)).isNone, .notFound),
    (noFreeSlot s, .noResource)]

/-- `ALLOC` (43_instance.md R230). -/
def execAlloc (s : State) : Host.Outcome State Fault Refusal :=
  .next (s.finish (allocChecks s)
    (allocateFrom s (indexOr0 (findName s.registry (nameOperand s)))) (toWord (freeIndex s)))

/-- The name that ALLOC_PARTS looks up (43_instance.md R232, R233); empty for a mode code that the
first check refuses. -/
def partsName (s : State) (mode : Nat) : List Byte :=
  match modeOfCode mode with
  | some m => canonicalName (readBytes s.mem s.arg0 s.arg1) s.arg2 m
  | none => []

/-- The checks of ALLOC_PARTS (43_instance.md R232). -/
def allocPartsChecks (s : State) (mode : Nat) : List (Bool × ErrCode) :=
  [((modeOfCode mode).isNone, .unsupported),
   (badNameLength s.arg1 Config.algNameMax, .name),
   (outOfRange s s.arg0 s.arg1, .memRange),
   (decide (Config.nameMax < (partsName s mode).length), .unsupported),
   ((findName s.registry (partsName s mode)).isNone, .unsupported),
   (noFreeSlot s, .noResource)]

/-- `ALLOC_PARTS` (43_instance.md R232). -/
def execAllocParts (mode : Nat) (s : State) : Host.Outcome State Fault Refusal :=
  .next (s.finish (allocPartsChecks s mode)
    (allocateFrom s (indexOr0 (findName s.registry (partsName s mode)))) (toWord (freeIndex s)))

/-- `FREE` (43_instance.md R234). -/
def execFree (k : Nat) (s : State) : Host.Outcome State Fault Refusal :=
  .next (s.finish (slotChecks s k) (s.setSlot k Slot.zero) 0)

/-! ### Keying -/

/-- The key bytes that SETKEY reads (43_instance.md R236). -/
def keyOperand (s : State) : List Byte := readBytes s.mem s.arg0 (s.arg1 / 8)

/-- The checks of SETKEY (43_instance.md R236). -/
def setKeyChecks (s : State) (k : Nat) : List (Bool × ErrCode) :=
  slotChecks s k ++
    [(!isKeyBits s.arg1 || s.arg1 != (s.slot k).desc.keyBits.toNat, .keyLen),
     (outOfRange s s.arg0 (s.arg1 / 8), .memRange)]

/-- SETKEY derives a decryption-oriented schedule: ECB or CBC with `DIR = 0` (43_instance.md R237). -/
def derivesDecrypt (d : Descriptor) (dir : Bool) : Bool := isBlockMode d && !dir

/-- The schedule of a key in the orientation given (40_block_primitive.md R140, R142). -/
def scheduleOf (dec : Bool) (key : List Byte) : List Word :=
  if dec then decryptSchedule key else encryptSchedule key

/-- A round-key array with zero words after it, 60 words in all (43_instance.md R236). -/
def padWords (w : List Word) : List Word := w ++ List.replicate (60 - w.length) 0

/-- A slot after a successful SETKEY (43_instance.md R236). -/
def keyedSlot (x : Slot) (dir : Bool) (key : List Byte) : Slot :=
  { x with
    rk := padWords (scheduleOf (derivesDecrypt x.desc dir) key)
    nr := Fin.ofNat 16 (keyNr key)
    sched := derivesDecrypt x.desc dir
    keyed := true
    enc := dir
    cur := 0
    ks := Block.zero }

/-- `SETKEY` (43_instance.md R236). -/
def execSetKey (k : Nat) (dir : Bool) (s : State) : Host.Outcome State Fault Refusal :=
  .next (s.finish (setKeyChecks s k) (s.setSlot k (keyedSlot (s.slot k) dir (keyOperand s))) 0)

/-! ### IV -/

/-- The checks of SETIV (43_instance.md R238). -/
def setIvChecks (s : State) (k : Nat) (ivp : Bool) : List (Bool × ErrCode) :=
  slotChecks s k ++
    [(ivp && s.arg1 != 16, .ivLen), (ivp && outOfRange s s.arg0 16, .memRange)]

/-- A slot after SETIV: the cursor restarts, and with `IVP = 1` the IV is replaced (43_instance.md R238). -/
def seededSlot (x : Slot) (ivp : Bool) (iv : Block) : Slot :=
  { x with iv := if ivp then iv else x.iv, cur := 0 }

/-- `SETIV` (43_instance.md R238). -/
def execSetIv (k : Nat) (ivp : Bool) (s : State) : Host.Outcome State Fault Refusal :=
  .next (s.finish (setIvChecks s k ivp)
    (s.setSlot k (seededSlot (s.slot k) ivp (readBlock s.mem s.arg0))) 0)

/-- The checks of POKEIV (43_instance.md R240). -/
def pokeIvChecks (s : State) (k : Nat) : List (Bool × ErrCode) :=
  slotChecks s k ++ [(outOfRange s s.arg0 16, .memRange)]

/-- `POKEIV`: `CUR` and `KS` are unchanged (43_instance.md R240). -/
def execPokeIv (k : Nat) (s : State) : Host.Outcome State Fault Refusal :=
  .next (s.finish (pokeIvChecks s k)
    (s.setSlot k { s.slot k with iv := readBlock s.mem s.arg0 }) 0)

end Sys2Proof.Machine
end

