-- ==== Sys2Proof/Machine/ModeLayer.lean ====
section
/-! DEFINITION. ENCRYPT and DECRYPT: the mode state machines ECB, CBC, CTR and CFB
(41_mode_layer.md). -/

namespace Sys2Proof.Machine

/-- `MEM` and the working triple `(iv, ks, cur)` of a command (41_mode_layer.md R174). -/
structure Work where
  mem : Memory
  iv : Block
  ks : Block
  cur : Fin 16
deriving DecidableEq, Repr

/-- `count` units from `src` to `dst`, in increasing address order (41_mode_layer.md R175). -/
def units (f : Nat → Nat → Work → Work) (size : Nat) : Nat → Nat → Nat → Work → Work
  | 0, _, _, w => w
  | count + 1, src, dst, w => units f size count (src + size) (dst + size) (f src dst w)

/-! ### ECB and CBC, one block -/

/-- One ECB block through the block transform `f` (41_mode_layer.md R178, R179). -/
def ecbUnit (f : Block → Block) (src dst : Nat) (w : Work) : Work :=
  { w with mem := writeBlock w.mem dst (f (readBlock w.mem src)) }

/-- One CBC encryption block (41_mode_layer.md R180). -/
def cbcEncUnit (e : Block → Block) (src dst : Nat) (w : Work) : Work :=
  { w with
    mem := writeBlock w.mem dst (e (xorBlock (readBlock w.mem src) w.iv))
    iv := e (xorBlock (readBlock w.mem src) w.iv) }

/-- One CBC decryption block: the ciphertext read before the write becomes the IV
(41_mode_layer.md R181). -/
def cbcDecUnit (d : Block → Block) (src dst : Nat) (w : Work) : Work :=
  { w with
    mem := writeBlock w.mem dst (xorBlock (d (readBlock w.mem src)) w.iv)
    iv := readBlock w.mem src }

/-! ### CTR, one byte -/

/-- `inc128(iv)`, big-endian modulo 2^128 (41_mode_layer.md R186). -/
def inc128 (iv : Block) : Block := blockOfBytes (beBytes 16 ((be (blockBytes iv) + 1) % 2 ^ 128))

/-- A fresh keystream block when none is held (41_mode_layer.md R184, R185). -/
def ctrRefill (preinc : Bool) (e : Block → Block) (w : Work) : Work :=
  if w.cur = 0 then
    if preinc then { w with iv := inc128 w.iv, ks := e (inc128 w.iv) }
    else { w with ks := e w.iv, iv := inc128 w.iv }
  else w

/-- The byte of a CTR step once keystream is held (41_mode_layer.md R184). -/
def ctrEmit (src dst : Nat) (w : Work) : Work :=
  { w with
    mem := memWrite w.mem dst (memRead w.mem src ^^^ blockByte w.ks w.cur.val)
    cur := w.cur + 1 }

/-- One CTR byte (41_mode_layer.md R184). -/
def ctrUnit (preinc : Bool) (e : Block → Block) (src dst : Nat) (w : Work) : Work :=
  ctrEmit src dst (ctrRefill preinc e w)

/-! ### CFB, one byte -/

/-- A fresh keystream block when none is held (41_mode_layer.md R190, R191). -/
def cfbRefill (e : Block → Block) (w : Work) : Work :=
  if w.cur = 0 then { w with ks := e w.iv } else w

/-- The consumed keystream byte is replaced by the ciphertext byte `c`, and a whole ciphertext block
becomes the feedback register (41_mode_layer.md R190, R191). -/
def cfbFeed (c : Byte) (w : Work) : Work :=
  if w.cur = 15 then
    { w with ks := setBlockByte w.ks w.cur.val c, iv := setBlockByte w.ks w.cur.val c, cur := 0 }
  else { w with ks := setBlockByte w.ks w.cur.val c, cur := w.cur + 1 }

/-- A CFB encryption byte once keystream is held: the ciphertext is the output
(41_mode_layer.md R190). -/
def cfbEncEmit (src dst : Nat) (w : Work) : Work :=
  cfbFeed (memRead w.mem src ^^^ blockByte w.ks w.cur.val)
    { w with mem := memWrite w.mem dst (memRead w.mem src ^^^ blockByte w.ks w.cur.val) }

/-- A CFB decryption byte once keystream is held: the ciphertext is the input, read before the write
(41_mode_layer.md R191). -/
def cfbDecEmit (src dst : Nat) (w : Work) : Work :=
  cfbFeed (memRead w.mem src)
    { w with mem := memWrite w.mem dst (memRead w.mem src ^^^ blockByte w.ks w.cur.val) }

/-- One CFB encryption byte (41_mode_layer.md R190). -/
def cfbEncUnit (e : Block → Block) (src dst : Nat) (w : Work) : Work :=
  cfbEncEmit src dst (cfbRefill e w)

/-- One CFB decryption byte (41_mode_layer.md R191). -/
def cfbDecUnit (e : Block → Block) (src dst : Nat) (w : Work) : Work :=
  cfbDecEmit src dst (cfbRefill e w)

/-! ### The commands -/

/-- `E(b)` in a slot (41_mode_layer.md, opening). -/
def slotEnc (x : Slot) (b : Block) : Block := aesEnc x.rk x.nr.val b

/-- `D(b)` in a slot (41_mode_layer.md, opening). -/
def slotDec (x : Slot) (b : Block) : Block := aesDec x.rk x.nr.val b

/-- The checks of ENCRYPT and DECRYPT (41_mode_layer.md R173). `wrongSched` is the value of `SCHED` that
an ECB or CBC slot must not have. -/
def cryptChecks (s : State) (k : Nat) (ivp wrongSched : Bool) : List (Bool × ErrCode) :=
  slotChecks s k ++
    [(!(s.slot k).keyed, .notKeyed),
     (isBlockMode (s.slot k).desc && (s.slot k).sched == wrongSched, .direction),
     (isBlockMode (s.slot k).desc && s.arg2 % 16 != 0, .length),
     (outOfRange s s.arg0 s.arg2 || outOfRange s s.arg1 s.arg2, .memRange),
     (ivp && outOfRange s s.arg3 16, .memRange)]

/-- The working state at the start (41_mode_layer.md R174). -/
def startWork (s : State) (k : Nat) (ivp : Bool) : Work :=
  if ivp then { mem := s.mem, iv := readBlock s.mem s.arg3, ks := Block.zero, cur := 0 }
  else { mem := s.mem, iv := (s.slot k).iv, ks := (s.slot k).ks, cur := (s.slot k).cur }

/-- All units of an encryption (41_mode_layer.md R171). A reserved mode code, which no allocated slot
holds, has no unit (log entry 8). -/
def encryptWork (p : Params) (x : Slot) (n src dst : Nat) (w : Work) : Work :=
  match modeOf x.desc with
  | some .ecb => units (ecbUnit (slotEnc x)) 16 (n / 16) src dst w
  | some .cbc => units (cbcEncUnit (slotEnc x)) 16 (n / 16) src dst w
  | some .ctr => units (ctrUnit p.ctrPreinc (slotEnc x)) 1 n src dst w
  | some .cfb => units (cfbEncUnit (slotEnc x)) 1 n src dst w
  | none => w

/-- All units of a decryption (41_mode_layer.md R172). CTR is the encryption (R187). A reserved mode
code has no unit (log entry 8). -/
def decryptWork (p : Params) (x : Slot) (n src dst : Nat) (w : Work) : Work :=
  match modeOf x.desc with
  | some .ecb => units (ecbUnit (slotDec x)) 16 (n / 16) src dst w
  | some .cbc => units (cbcDecUnit (slotDec x)) 16 (n / 16) src dst w
  | some .ctr => units (ctrUnit p.ctrPreinc (slotEnc x)) 1 n src dst w
  | some .cfb => units (cfbDecUnit (slotEnc x)) 1 n src dst w
  | none => w

/-- The commit: with an override IV no slot field changes (41_mode_layer.md R176). -/
def commitWork (s : State) (k : Nat) (ivp : Bool) (w : Work) : State :=
  if ivp then { s with mem := w.mem }
  else { s.setSlot k { s.slot k with iv := w.iv, ks := w.ks, cur := w.cur } with mem := w.mem }

/-- `ENCRYPT` (41_mode_layer.md R171). -/
def execEncrypt (k : Nat) (ivp : Bool) (s : State) : Host.Outcome State Fault Refusal :=
  .next (s.finish (cryptChecks s k ivp true)
    (commitWork s k ivp
      (encryptWork s.params (s.slot k) s.arg2 s.arg0 s.arg1 (startWork s k ivp)))
    s.latch.arg2)

/-- `DECRYPT` (41_mode_layer.md R172). -/
def execDecrypt (k : Nat) (ivp : Bool) (s : State) : Host.Outcome State Fault Refusal :=
  .next (s.finish (cryptChecks s k ivp false)
    (commitWork s k ivp
      (decryptWork s.params (s.slot k) s.arg2 s.arg0 s.arg1 (startWork s k ivp)))
    s.latch.arg2)

end Sys2Proof.Machine
end

