-- ==== Sys2Proof/Machine/Registry.lean ====
section
/-! DEFINITION. The registry commands (42_registry.md). -/

namespace Sys2Proof.Machine

/-! ### REGISTER -/

/-- `validate(rec)` (42_registry.md R212). -/
def recordChecks (rec : List Byte) : List (Bool × ErrCode) :=
  [(badNameLength (recByte rec 0).toNat Config.nameMax
      || badNameLength (recByte rec 1).toNat Config.algNameMax, .name),
   ((modeOfCode (recByte rec 2).toNat).isNone, .unsupported),
   (recByte rec 3 != implAes, .unsupported),
   (!isKeyBits (recKeyBits rec), .unsupported),
   (recBlockLen rec != 16, .unsupported)]

/-- The record that REGISTER reads (42_registry.md R210). -/
def recordOperand (s : State) : List Byte := readBytes s.mem s.arg0 64

/-- The checks of REGISTER (42_registry.md R210). -/
def registerChecks (s : State) : List (Bool × ErrCode) :=
  (outOfRange s s.arg0 64, .memRange) :: recordChecks (recordOperand s) ++
    [((findName s.registry (descriptorOfRecord (recordOperand s)).name).isNone
        && s.registry.length == s.params.regMax, .noResource)]

/-- The registry without the entry that `find` gave, if it gave one. -/
def removeFound (reg : List Descriptor) (o : Option Nat) : List Descriptor :=
  match o with
  | some i => reg.eraseIdx i
  | none => reg

/-- The registry after `d` replaces the entry of its name or is added: it stands last
(42_registry.md R210, R213). -/
def registered (reg : List Descriptor) (d : Descriptor) : List Descriptor :=
  removeFound reg (findName reg d.name) ++ [d]

/-- `REGISTER` (42_registry.md R210). -/
def execRegister (s : State) : Host.Outcome State Fault Refusal :=
  .next (s.finish (registerChecks s)
    { s with registry := registered s.registry (descriptorOfRecord (recordOperand s)) }
    (toWord ((registered s.registry (descriptorOfRecord (recordOperand s))).length - 1)))

/-! ### UNREGISTER, UNREGISTER_ALL, RESOLVE -/

/-- The checks of UNREGISTER (42_registry.md R214). -/
def unregisterChecks (s : State) : List (Bool × ErrCode) :=
  nameOperandChecks s ++ [((findName s.registry (nameOperand s)).isNone, .notFound)]

/-- `UNREGISTER` (42_registry.md R214). -/
def execUnregister (s : State) : Host.Outcome State Fault Refusal :=
  .next (s.finish (unregisterChecks s)
    { s with registry := removeFound s.registry (findName s.registry (nameOperand s)) } 0)

/-- `UNREGISTER_ALL` (42_registry.md R215). -/
def execUnregisterAll (s : State) : Host.Outcome State Fault Refusal :=
  .next (s.finish [] { s with registry := [] } (toWord s.registry.length))

/-- The checks of RESOLVE (42_registry.md R216). -/
def resolveChecks (s : State) : List (Bool × ErrCode) :=
  nameOperandChecks s ++ [(outOfRange s s.arg2 64, .memRange),
    ((findName s.registry (nameOperand s)).isNone, .notFound)]

/-- The index that RESOLVE gives (42_registry.md R216). -/
def resolveIndex (s : State) : Nat := indexOr0 (findName s.registry (nameOperand s))

/-- `RESOLVE` (42_registry.md R216). -/
def execResolve (s : State) : Host.Outcome State Fault Refusal :=
  .next (s.finish (resolveChecks s)
    { s with mem := writeBytes s.mem s.arg2 (recordBytes (s.entry (resolveIndex s))) }
    (toWord (resolveIndex s)))

end Sys2Proof.Machine
end

