-- ==== Sys2Proof/Syntax.lean ====
section
/-! DEFINITION. The commands of the engine, one constructor per row of spec/opcode_table.json
(30_encoding.md R98). A slot number and a mode code are small numbers here; `WellFormed` bounds them. -/

namespace Sys2Proof

/-- A command with the fields its opcode uses (30_encoding.md R91, R98). Its operands are the latched
`ARG0` to `ARG3` (R95) and are no part of it. -/
inductive Instr where
  /-- `REGISTER` (42_registry.md R210). -/
  | register
  /-- `UNREGISTER` (42_registry.md R214). -/
  | unregister
  /-- `UNREGISTER_ALL` (42_registry.md R215). -/
  | unregisterAll
  /-- `RESOLVE` (42_registry.md R216). -/
  | resolve
  /-- `ALLOC` (43_instance.md R230). -/
  | alloc
  /-- `ALLOC_PARTS` with its `MODE` field (43_instance.md R232). -/
  | allocParts (mode : Nat)
  /-- `FREE` (43_instance.md R234). -/
  | free (slot : Nat)
  /-- `SETKEY`, `dir` is `encrypting` (43_instance.md R236). -/
  | setKey (slot : Nat) (dir : Bool)
  /-- `SETIV`, `ivp` says that an IV is supplied (43_instance.md R238). -/
  | setIv (slot : Nat) (ivp : Bool)
  /-- `POKEIV` (43_instance.md R240). -/
  | pokeIv (slot : Nat)
  /-- `ENCRYPT`, `ivp` says that an override IV is supplied (41_mode_layer.md R171). -/
  | encrypt (slot : Nat) (ivp : Bool)
  /-- `DECRYPT`, `ivp` says that an override IV is supplied (41_mode_layer.md R172). -/
  | decrypt (slot : Nat) (ivp : Bool)
  /-- `GET_BLOCK_LEN` (43_instance.md R242). -/
  | getBlockLen (slot : Nat)
  /-- `GET_IV_LEN` (43_instance.md R243). -/
  | getIvLen (slot : Nat)
  /-- `GET_KEY_LEN` (43_instance.md R244). -/
  | getKeyLen (slot : Nat)
  /-- `GET_NAME` (43_instance.md R245). -/
  | getName (slot : Nat)
  /-- `GET_ALG_NAME` (43_instance.md R246). -/
  | getAlgName (slot : Nat)
  /-- `GET_MODE` (43_instance.md R247). -/
  | getMode (slot : Nat)
  /-- `GET_IV` (43_instance.md R248). -/
  | getIv (slot : Nat)
  /-- `GET_STATE` (43_instance.md R250). -/
  | getState (slot : Nat)
deriving DecidableEq, Repr

end Sys2Proof
end

