-- ==== Sys2Proof/Machine/Dispatch.lean ====
section
/-! DEFINITION. One arm per command (30_encoding.md R98). -/

namespace Sys2Proof.Machine

/-- What the engine does with a decoded command, from acceptance to completion. -/
def exec (i : Instr) (s : State) : Host.Outcome State Fault Refusal :=
  match i with
  -- 42_registry.md
  | .register => Sys2Proof.Machine.execRegister s
  | .unregister => Sys2Proof.Machine.execUnregister s
  | .unregisterAll => Sys2Proof.Machine.execUnregisterAll s
  | .resolve => Sys2Proof.Machine.execResolve s
  -- 43_instance.md
  | .alloc => Sys2Proof.Machine.execAlloc s
  | .allocParts mode => Sys2Proof.Machine.execAllocParts mode s
  | .free slot => Sys2Proof.Machine.execFree slot s
  | .setKey slot dir => Sys2Proof.Machine.execSetKey slot dir s
  | .setIv slot ivp => Sys2Proof.Machine.execSetIv slot ivp s
  | .pokeIv slot => Sys2Proof.Machine.execPokeIv slot s
  -- 41_mode_layer.md
  | .encrypt slot ivp => Sys2Proof.Machine.execEncrypt slot ivp s
  | .decrypt slot ivp => Sys2Proof.Machine.execDecrypt slot ivp s
  -- 43_instance.md, accessors
  | .getBlockLen slot => Sys2Proof.Machine.execGetBlockLen slot s
  | .getIvLen slot => Sys2Proof.Machine.execGetIvLen slot s
  | .getKeyLen slot => Sys2Proof.Machine.execGetKeyLen slot s
  | .getName slot => Sys2Proof.Machine.execGetName slot s
  | .getAlgName slot => Sys2Proof.Machine.execGetAlgName slot s
  | .getMode slot => Sys2Proof.Machine.execGetMode slot s
  | .getIv slot => Sys2Proof.Machine.execGetIv slot s
  | .getState slot => Sys2Proof.Machine.execGetState slot s

end Sys2Proof.Machine
end

