-- ==== Sys2Proof/WellFormed.lean ====
section
/-! DEFINITION. Which terms of `Instr` are commands: their fields fit the command word
(30_encoding.md R91, R92). -/

namespace Sys2Proof

/-- The `SLOT` field, if the command has one (30_encoding.md R98). -/
def Instr.slot? : Instr → Option Nat
  | .register => none
  | .unregister => none
  | .unregisterAll => none
  | .resolve => none
  | .alloc => none
  | .allocParts _ => none
  | .free k => some k
  | .setKey k _ => some k
  | .setIv k _ => some k
  | .pokeIv k => some k
  | .encrypt k _ => some k
  | .decrypt k _ => some k
  | .getBlockLen k => some k
  | .getIvLen k => some k
  | .getKeyLen k => some k
  | .getName k => some k
  | .getAlgName k => some k
  | .getMode k => some k
  | .getIv k => some k
  | .getState k => some k

/-- The `MODE` field, if the command has one (30_encoding.md R98). -/
def Instr.mode? : Instr → Option Nat
  | .allocParts m => some m
  | .register => none
  | .unregister => none
  | .unregisterAll => none
  | .resolve => none
  | .alloc => none
  | .free _ => none
  | .setKey _ _ => none
  | .setIv _ _ => none
  | .pokeIv _ => none
  | .encrypt _ _ => none
  | .decrypt _ _ => none
  | .getBlockLen _ => none
  | .getIvLen _ => none
  | .getKeyLen _ => none
  | .getName _ => none
  | .getAlgName _ => none
  | .getMode _ => none
  | .getIv _ => none
  | .getState _ => none

/-- A slot number fits 8 bits and a mode code fits 4 bits. Every such value decodes, legal for the
command or not (30_encoding.md R92). -/
abbrev Instr.WellFormed (i : Instr) : Prop :=
  (∀ k ∈ i.slot?, k < 256) ∧ (∀ m ∈ i.mode?, m < 16)

end Sys2Proof
end

