-- ==== Sys2Proof/Decode.lean ====
section
/-! DEFINITION. The command word: fields (30_encoding.md R91), the opcode map (R98), decoding
(R94, R99) and the encoder. -/

namespace Sys2Proof

/-- `v[hi:lo]` as a number, with the field's width in place of `hi` (00_scope.md R15). -/
def field (w : Word) (lo width : Nat) : Nat := w.toNat / 2 ^ lo % 2 ^ width

/-- `OPC`, bits 31:24. -/
def opcField (w : Word) : Nat := field w 24 8

/-- `SLOT`, bits 23:16. -/
def slotField (w : Word) : Nat := field w 16 8

/-- `MODE`, bits 15:12. -/
def modeField (w : Word) : Nat := field w 12 4

/-- `DIR`, bit 11. -/
def dirField (w : Word) : Bool := field w 11 1 == 1

/-- `IVP`, bit 10. -/
def ivpField (w : Word) : Bool := field w 10 1 == 1

/-- The rows of the opcode map by name. -/
inductive Op where
  | register | unregister | unregisterAll | resolve
  | alloc | allocParts | free | setKey | setIv | pokeIv
  | encrypt | decrypt
  | getBlockLen | getIvLen | getKeyLen | getName | getAlgName | getMode | getIv | getState
deriving DecidableEq, Repr

/-- One row of the opcode map: its command, match and mask. -/
structure Row where
  op : Op
  bits : Word
  mask : Word
deriving DecidableEq, Repr

/-- The opcode map of 30_encoding.md R98, in its order. -/
def opcodeMap : List Row :=
  [ ⟨.register,      0x01000000, 0xFFFFFFFF⟩,
    ⟨.unregister,    0x02000000, 0xFFFFFFFF⟩,
    ⟨.unregisterAll, 0x02000200, 0xFFFFFFFF⟩,
    ⟨.resolve,       0x03000000, 0xFFFFFFFF⟩,
    ⟨.alloc,         0x10000000, 0xFFFFFFFF⟩ ] ++
  [ ⟨.allocParts,    0x11000000, 0xFFFF0FFF⟩,
    ⟨.free,          0x12000000, 0xFF00FFFF⟩,
    ⟨.setKey,        0x13000000, 0xFF00F7FF⟩,
    ⟨.setIv,         0x14000000, 0xFF00FBFF⟩,
    ⟨.pokeIv,        0x15000000, 0xFF00FFFF⟩ ] ++
  [ ⟨.encrypt,       0x20000000, 0xFF00FBFF⟩,
    ⟨.decrypt,       0x21000000, 0xFF00FBFF⟩,
    ⟨.getBlockLen,   0x30000000, 0xFF00FFFF⟩,
    ⟨.getIvLen,      0x31000000, 0xFF00FFFF⟩,
    ⟨.getKeyLen,     0x32000000, 0xFF00FFFF⟩ ] ++
  [ ⟨.getName,       0x33000000, 0xFF00FFFF⟩,
    ⟨.getAlgName,    0x34000000, 0xFF00FFFF⟩,
    ⟨.getMode,       0x35000000, 0xFF00FFFF⟩,
    ⟨.getIv,         0x36000000, 0xFF00FFFF⟩,
    ⟨.getState,      0x37000000, 0xFF00FFFF⟩ ]

/-- A row matches a word when the masked word is its match value (30_encoding.md R94). -/
def Row.covers (r : Row) (w : Word) : Bool := w &&& r.mask == r.bits

/-- The command a matching row gives, with its fields taken from the word (30_encoding.md R94). -/
def Op.build : Op → Word → Instr
  | .register, _ => .register
  | .unregister, _ => .unregister
  | .unregisterAll, _ => .unregisterAll
  | .resolve, _ => .resolve
  | .alloc, _ => .alloc
  | .allocParts, w => .allocParts (modeField w)
  | .free, w => .free (slotField w)
  | .setKey, w => .setKey (slotField w) (dirField w)
  | .setIv, w => .setIv (slotField w) (ivpField w)
  | .pokeIv, w => .pokeIv (slotField w)
  | .encrypt, w => .encrypt (slotField w) (ivpField w)
  | .decrypt, w => .decrypt (slotField w) (ivpField w)
  | .getBlockLen, w => .getBlockLen (slotField w)
  | .getIvLen, w => .getIvLen (slotField w)
  | .getKeyLen, w => .getKeyLen (slotField w)
  | .getName, w => .getName (slotField w)
  | .getAlgName, w => .getAlgName (slotField w)
  | .getMode, w => .getMode (slotField w)
  | .getIv, w => .getIv (slotField w)
  | .getState, w => .getState (slotField w)

/-- Why a word is no command (30_encoding.md R99). Both raise `ERR_ILLEGAL`. -/
inductive Undecodable where
  /-- No row has this `OPC`. -/
  | reservedOpcode (opc : Nat)
  /-- The opcode exists, but a reserved bit or a field it does not use is nonzero (R93). -/
  | unusedFieldNonzero (opc : Nat)
deriving DecidableEq, Repr

/-- Decoding, total on every word (30_encoding.md R94, R99). -/
def decode (w : Word) : Except Undecodable Instr :=
  match opcodeMap.find? (fun r => r.covers w) with
  | some r => .ok (r.op.build w)
  | none =>
    if opcodeMap.any (fun r => field r.bits 24 8 == opcField w) then
      .error (.unusedFieldNonzero (opcField w))
    else .error (.reservedOpcode (opcField w))

/-- A field's value at its place in the word. -/
def place (v lo : Nat) : Word := BitVec.ofNat 32 (v * 2 ^ lo)

/-- A one-bit field at its place in the word. -/
def placeBit (b : Bool) (lo : Nat) : Word := place b.toNat lo

/-- The command word of a command (30_encoding.md R91, R98). -/
def encode : Instr → Word
  | .register => 0x01000000
  | .unregister => 0x02000000
  | .unregisterAll => 0x02000000 ||| placeBit true 9
  | .resolve => 0x03000000
  | .alloc => 0x10000000
  | .allocParts m => 0x11000000 ||| place m 12
  | .free k => 0x12000000 ||| place k 16
  | .setKey k dir => 0x13000000 ||| place k 16 ||| placeBit dir 11
  | .setIv k ivp => 0x14000000 ||| place k 16 ||| placeBit ivp 10
  | .pokeIv k => 0x15000000 ||| place k 16
  | .encrypt k ivp => 0x20000000 ||| place k 16 ||| placeBit ivp 10
  | .decrypt k ivp => 0x21000000 ||| place k 16 ||| placeBit ivp 10
  | .getBlockLen k => 0x30000000 ||| place k 16
  | .getIvLen k => 0x31000000 ||| place k 16
  | .getKeyLen k => 0x32000000 ||| place k 16
  | .getName k => 0x33000000 ||| place k 16
  | .getAlgName k => 0x34000000 ||| place k 16
  | .getMode k => 0x35000000 ||| place k 16
  | .getIv k => 0x36000000 ||| place k 16
  | .getState k => 0x37000000 ||| place k 16

/-- The word whose low `nbits` bits are those of `w` and whose other bits are 0. -/
def tableWord (nbits w : Nat) : Word := BitVec.ofNat 32 (w % 2 ^ nbits)

/-- The decoder's answer for a row of spec/opcode_table.json. A command is one 32-bit word, never
longer, and the window takes it whole (30_encoding.md R90, 20_memory.md R65 (d)): no byte order. -/
def decodeTableWord (nbits w : Nat) : Option Instr :=
  match decode (tableWord nbits w) with
  | .ok i => some i
  | .error _ => none

end Sys2Proof
end

