-- ==== Sys2Proof/Machine/HostPort.lean ====
section
/-! DEFINITION. The host's moves: the register window and the host's port to `MEM`
(10_state.md R22 to R30, 20_memory.md R62, R70, 60_exceptions.md R290, R291). -/

namespace Sys2Proof.Machine

/-! ### The window -/

/-- `ID` (10_state.md R27). -/
def idWord : Word := 0x41455343

/-- `PARAMS` (10_state.md R28). -/
def paramsWord (p : Params) : Word :=
  toWord (p.nslots % 256 + 2 ^ 8 * p.regMax + 2 ^ 16 * Config.nameMax
    + 2 ^ 24 * (Config.algNameMax / 4) + 2 ^ 28 * bit p.ctrPreinc)

/-- `MEMSIZE` (10_state.md R29). -/
def memSizeWord (p : Params) : Word := toWord (p.memSize % 2 ^ 32)

/-- The value a 32-bit read of the window gives (10_state.md, table of section 2). `CTRL` and the
reserved offsets read 0. -/
def windowRead (s : State) (offset : Nat) : Word :=
  if offset = 0x00 then s.window.cmd
  else if offset = 0x04 then s.window.arg0
  else if offset = 0x08 then s.window.arg1
  else if offset = 0x0C then s.window.arg2
  else if offset = 0x10 then s.window.arg3
  else if offset = 0x14 then statusWord s.window.status
  else if offset = 0x18 then s.window.result
  else if offset = 0x20 then idWord
  else if offset = 0x24 then paramsWord s.params
  else if offset = 0x28 then memSizeWord s.params
  else 0

/-- A write of `CMD`: accepted when the engine is idle, and then the time to its completion is drawn
(log entry 1); otherwise only `OVR` is set (10_state.md R22, 60_exceptions.md R276). -/
def writeCmd (s : State) (v : Word) : State :=
  if s.window.status.busy then
    { s with window := { s.window with status := statusAtOverrun s.window.status } }
  else { s.accept v with delay := Config.latency s.accepted, accepted := s.accepted + 1 }

/-- A write of `CTRL` (10_state.md R26): `SRST` is bit 0 and wins, `OVRCLR` is bit 1. -/
def writeCtrl (s : State) (v : Word) : State :=
  if v.getLsbD 0 then s.softReset
  else if v.getLsbD 1 then
    { s with window := { s.window with status := statusAtOvrClear s.window.status } }
  else s

/-- A 32-bit write of the window; read-only registers and reserved offsets ignore it
(10_state.md, table of section 2). -/
def windowWrite (s : State) (offset : Nat) (v : Word) : State :=
  if offset = 0x00 then writeCmd s v
  else if offset = 0x04 then { s with window := { s.window with arg0 := v } }
  else if offset = 0x08 then { s with window := { s.window with arg1 := v } }
  else if offset = 0x0C then { s with window := { s.window with arg2 := v } }
  else if offset = 0x10 then { s with window := { s.window with arg3 := v } }
  else if offset = 0x1C then writeCtrl s v
  else s

/-- The window answers aligned 32-bit accesses inside it (20_memory.md R70). -/
def windowAnswers (offset width : Nat) : Bool :=
  width == 32 && offset % 4 == 0 && decide (offset < 0x40)

/-! ### The ranges of a command in progress -/

/-- The `MEM` ranges that a command's operands name (20_memory.md R63, 70_reset_and_hazards.md R310;
log entry 6). -/
def commandRanges (i : Instr) (s : State) : List (Nat × Nat) :=
  match i with
  | .register => [(s.arg0, 64)]
  | .unregister => [(s.arg0, s.arg1)]
  | .unregisterAll => []
  | .resolve => [(s.arg0, s.arg1), (s.arg2, 64)]
  | .alloc => [(s.arg0, s.arg1)]
  | .allocParts _ => [(s.arg0, s.arg1)]
  | .free _ => []
  | .setKey _ _ => [(s.arg0, s.arg1 / 8)]
  | .setIv _ ivp => if ivp then [(s.arg0, 16)] else []
  | .pokeIv _ => [(s.arg0, 16)]
  | .encrypt _ ivp => [(s.arg0, s.arg2), (s.arg1, s.arg2)] ++ if ivp then [(s.arg3, 16)] else []
  | .decrypt _ ivp => [(s.arg0, s.arg2), (s.arg1, s.arg2)] ++ if ivp then [(s.arg3, 16)] else []
  | .getBlockLen _ => []
  | .getIvLen _ => []
  | .getKeyLen _ => []
  | .getName k => [(s.arg0, (s.slot k).desc.name.length)]
  | .getAlgName k => [(s.arg0, (s.slot k).desc.algName.length)]
  | .getMode _ => []
  | .getIv _ => [(s.arg0, 16)]
  | .getState _ => []

/-- The ranges of the command in progress; none when the engine is idle or the word is illegal. -/
def runningRanges (s : State) : List (Nat × Nat) :=
  if s.window.status.busy then
    match decode s.latch.cmd with
    | .ok i => commandRanges i s
    | .error _ => []
  else []

/-- An address lies in one of the ranges of the command in progress (70_reset_and_hazards.md R310). -/
def inRunningRange (s : State) (a : Nat) : Bool :=
  (runningRanges s).any (fun r => decide (r.1 ≤ a) && decide (a < r.1 + r.2))

/-! ### The moves -/

/-- The host's next action is done: the index advances by one (10_state.md R53). -/
def State.advance (s : State) : State := { s with host := { s.host with index := s.host.index + 1 } }

/-- The host gets a value back (60_exceptions.md R290). -/
def State.reply (s : State) (r : HostReply) : State :=
  { s with host := { s.host with replies := r :: s.host.replies } }

/-- The host reads `STATUS`, or something else: a read of `DONE = 1` is one for its last accepted command,
since acceptance clears `DONE` (70_reset_and_hazards.md R321; log entry 14). -/
def State.noteDone (s : State) (readsStatus : Bool) : State :=
  { s with host := { s.host with doneRead := s.host.doneRead || (readsStatus && s.window.status.done) } }

/-- A host access to `MEM[a]` that ends in `s'`: the byte must exist (20_memory.md R61; log entry 7) and
lie outside the ranges of the command in progress (70_reset_and_hazards.md R310). -/
def hostMemAccess (s : State) (a : Nat) (s' : State) : Host.Outcome State Fault Refusal :=
  if s.params.memSize ≤ a then .fault (.memAddressAbsent a)
  else if inRunningRange s a then .refused (.memAccessInRunningRange a)
  else .next s'

/-- One action of the host (60_exceptions.md R290). `waitDone` reads `STATUS` once a step until it reads
`DONE = 1` (30_encoding.md R100; log entry 1). -/
def hostMove (act : HostAction) (s : State) : Host.Outcome State Fault Refusal :=
  match act with
  | .readWindow offset width =>
    if windowAnswers offset width then
      .next ((s.reply (.word (windowRead s offset))).noteDone (offset == 0x14)).advance
    else .refused (.windowAccessWithoutMove offset width)
  | .writeWindow offset width v =>
    if windowAnswers offset width then .next (windowWrite s offset v).advance
    else .refused (.windowAccessWithoutMove offset width)
  | .readMem a => hostMemAccess s a (s.reply (.byte (memRead s.mem a))).advance
  | .writeMem a v => hostMemAccess s a { s with mem := memWrite s.mem a v }.advance
  | .waitDone =>
    if s.window.status.done then
      .next ((s.reply (.word (statusWord s.window.status))).noteDone true).advance
    else .next s
  | .powerUp => .next s.powerUpReset.advance

end Sys2Proof.Machine
end

