-- ==== Sys2Proof/Machine/Step.lean ====
section
/-! DEFINITION. One step of the machine: the engine performs the latched command, or the host performs
its next action (10_state.md R20). -/

namespace Sys2Proof.Machine

/-- The host's next action, if its program has one more (10_state.md R53). -/
def State.nextAction (s : State) : Option HostAction := s.host.program[s.host.index]?

/-- It is the engine's turn: a command is in progress, and the host waits for it, or has nothing more to
do, or the drawn time is over (70_reset_and_hazards.md R320; log entry 1). -/
def State.engineTurn (s : State) : Bool :=
  s.window.status.busy && (s.nextAction == some .waitDone || s.nextAction == none || s.delay == 0)

/-- The engine performs the latched command as one atomic step (10_state.md R20). A word that is no
command raises `ERR_ILLEGAL` (30_encoding.md R94, R99). -/
def engineStep (s : State) : Host.Outcome State Fault Refusal :=
  match decode s.latch.cmd with
  | .ok i => exec i s
  | .error _ => .next (s.raiseError .illegal)

/-- The host performs its next action; one host action less is left before the completion of a command
in progress. With no action left and no command in progress the machine is idle and keeps its state
(60_exceptions.md R289; log entry 4). -/
def hostStep (s : State) : Host.Outcome State Fault Refusal :=
  match s.nextAction with
  | some act => hostMove act { s with delay := s.delay - 1 }
  | none => .next s

/-- One step of the machine. -/
def step (s : State) : Host.Outcome State Fault Refusal :=
  if s.engineTurn then engineStep s else hostStep s

/-- `s` just after the host's write of this command word to `CMD` was accepted (10_state.md R22), with the
completion due at once: the next step runs the command on the operands now in `ARG0` to `ARG3`
(log entry 4). -/
def State.withFetchWord (s : State) (nbits w : Nat) : State :=
  { s.accept (tableWord nbits w) with delay := 0 }

end Sys2Proof.Machine
end

