-- ==== Sys2Proof/Machine/Tables.lean ====
section
/-! DEFINITION. The table-driven form of the block primitive (40_block_primitive.md R151 to R153,
R155). The commands use the unfused form of Cipher.lean, which 93_implementation_defined.md G6 calls
normative; this form is for the claim that the two agree (R152). -/

namespace Sys2Proof.Machine

/-- `Te0[x]` (40_block_primitive.md R151). -/
def te0 (x : Byte) : Word :=
  wordOfCol ⟨gmul 0x02 (sbox x), gmul 0x01 (sbox x), gmul 0x01 (sbox x), gmul 0x03 (sbox x)⟩

/-- `Te1[x]` (40_block_primitive.md R151). -/
def te1 (x : Byte) : Word := (te0 x).rotateRight 8

/-- `Te2[x]` (40_block_primitive.md R151). -/
def te2 (x : Byte) : Word := (te0 x).rotateRight 16

/-- `Te3[x]` (40_block_primitive.md R151). -/
def te3 (x : Byte) : Word := (te0 x).rotateRight 24

/-- `Td0[x]` (40_block_primitive.md R155). -/
def td0 (x : Byte) : Word :=
  wordOfCol ⟨gmul 0x0e (invSbox x), gmul 0x09 (invSbox x), gmul 0x0d (invSbox x), gmul 0x0b (invSbox x)⟩

/-- `Td1[x]` (40_block_primitive.md R155). -/
def td1 (x : Byte) : Word := (td0 x).rotateRight 8

/-- `Td2[x]` (40_block_primitive.md R155). -/
def td2 (x : Byte) : Word := (td0 x).rotateRight 16

/-- `Td3[x]` (40_block_primitive.md R155). -/
def td3 (x : Byte) : Word := (td0 x).rotateRight 24

/-- One output column of a forward table round: the four probes of columns `a`, `b`, `c`, `d` (column
`c`, then the three after it) and the key word (40_block_primitive.md R152). -/
def teColumn (a b c d : Col) (k : Word) : Col :=
  colOfWord (te0 a.q0 ^^^ te1 b.q1 ^^^ te2 c.q2 ^^^ te3 d.q3 ^^^ k)

/-- One output column of an inverse table round (40_block_primitive.md R155). -/
def tdColumn (a b c d : Col) (k : Word) : Col :=
  colOfWord (td0 a.q0 ^^^ td1 b.q1 ^^^ td2 c.q2 ^^^ td3 d.q3 ^^^ k)

/-- The table-driven full round (40_block_primitive.md R152). -/
def encRoundByTables (k : List Word) (j : Nat) (s : Block) : Block :=
  ⟨teColumn s.q0 s.q1 s.q2 s.q3 (keyWord k (4 * j)),
   teColumn s.q1 s.q2 s.q3 s.q0 (keyWord k (4 * j + 1)),
   teColumn s.q2 s.q3 s.q0 s.q1 (keyWord k (4 * j + 2)),
   teColumn s.q3 s.q0 s.q1 s.q2 (keyWord k (4 * j + 3))⟩

/-- The table-driven full inverse round (40_block_primitive.md R155). -/
def decRoundByTables (k : List Word) (j : Nat) (s : Block) : Block :=
  ⟨tdColumn s.q0 s.q3 s.q2 s.q1 (keyWord k (4 * j)),
   tdColumn s.q1 s.q0 s.q3 s.q2 (keyWord k (4 * j + 1)),
   tdColumn s.q2 s.q1 s.q0 s.q3 (keyWord k (4 * j + 2)),
   tdColumn s.q3 s.q2 s.q1 s.q0 (keyWord k (4 * j + 3))⟩

/-- One output column of a final round: the substituted bytes as a word, and the key word
(40_block_primitive.md R153, R155). -/
def finalColumn (sub : Byte → Byte) (a b c d : Col) (k : Word) : Col :=
  colOfWord (wordOfCol ⟨sub a.q0, sub b.q1, sub c.q2, sub d.q3⟩ ^^^ k)

/-- The final round (40_block_primitive.md R153). -/
def encFinalByTables (k : List Word) (nr : Nat) (s : Block) : Block :=
  ⟨finalColumn sbox s.q0 s.q1 s.q2 s.q3 (keyWord k (4 * nr)),
   finalColumn sbox s.q1 s.q2 s.q3 s.q0 (keyWord k (4 * nr + 1)),
   finalColumn sbox s.q2 s.q3 s.q0 s.q1 (keyWord k (4 * nr + 2)),
   finalColumn sbox s.q3 s.q0 s.q1 s.q2 (keyWord k (4 * nr + 3))⟩

/-- The final inverse round (40_block_primitive.md R155). -/
def decFinalByTables (k : List Word) (nr : Nat) (s : Block) : Block :=
  ⟨finalColumn invSbox s.q0 s.q3 s.q2 s.q1 (keyWord k (4 * nr)),
   finalColumn invSbox s.q1 s.q0 s.q3 s.q2 (keyWord k (4 * nr + 1)),
   finalColumn invSbox s.q2 s.q1 s.q0 s.q3 (keyWord k (4 * nr + 2)),
   finalColumn invSbox s.q3 s.q2 s.q1 s.q0 (keyWord k (4 * nr + 3))⟩

/-- The initial round, `t[c] = word(in[4c..4c+3]) ⊕ K[c]` (40_block_primitive.md R152). -/
def initialByTables (k : List Word) (b : Block) : Block :=
  ⟨colOfWord (wordOfCol b.q0 ^^^ keyWord k 0), colOfWord (wordOfCol b.q1 ^^^ keyWord k 1),
   colOfWord (wordOfCol b.q2 ^^^ keyWord k 2), colOfWord (wordOfCol b.q3 ^^^ keyWord k 3)⟩

/-- `AES_Enc` by tables (40_block_primitive.md R151 to R153). -/
def aesEncByTables (ek : List Word) (nr : Nat) (b : Block) : Block :=
  encFinalByTables ek nr (rounds (encRoundByTables ek) (nr - 1) 1 (initialByTables ek b))

/-- `AES_Dec` by tables (40_block_primitive.md R155). -/
def aesDecByTables (dk : List Word) (nr : Nat) (b : Block) : Block :=
  decFinalByTables dk nr (rounds (decRoundByTables dk) (nr - 1) 1 (initialByTables dk b))

end Sys2Proof.Machine
end

