-- ==== Sys2Proof/Machine/Assembler.lean ====
section
/-! DEFINITION. Command lines, pseudo-instructions and directives, and the host actions they stand for
(30_encoding.md R100 to R102). The text of the lines is notation only and is not parsed. -/

namespace Sys2Proof.Machine

/-- A line of a host program: a command (30_encoding.md R100), a directive (R101) or a
pseudo-instruction (R102). -/
inductive Line where
  | register (record : Nat)
  | unregister (name len : Nat)
  | unregisterAll
  | resolve (name len out : Nat)
  | alloc (name len : Nat)
  | allocParts (mode alg len bits : Nat)
  | free (slot : Nat)
  | setKey (slot key bits : Nat) (enc : Bool)
  | setIv (slot iv len : Nat)
  | setIvNull (slot : Nat)
  | pokeIv (slot iv : Nat)
  | encrypt (slot src dst len : Nat) (iv : Option Nat)
  | decrypt (slot src dst len : Nat) (iv : Option Nat)
  | getBlockLen (slot : Nat)
  | getIvLen (slot : Nat)
  | getKeyLen (slot : Nat)
  | getName (slot out : Nat)
  | getAlgName (slot out : Nat)
  | getMode (slot : Nat)
  | getIv (slot out : Nat)
  | getState (slot : Nat)
  /-- `.bytes A, <hex>`, and `.ascii A, "<text>"` with the text's bytes (R101). -/
  | bytes (address : Nat) (data : List Byte)
  /-- `.record` (R101). -/
  | record (address : Nat) (desc : Descriptor)
  /-- `RESETIV` (R102). -/
  | resetIv (slot : Nat)
  /-- `REKEY` (R102). -/
  | rekey (slot key bits : Nat) (enc : Bool)
  /-- `CTRCRYPT` (R102). -/
  | ctrCrypt (slot src dst len : Nat)
  /-- `ALLOCNAME "<name>", at=A` (R102). -/
  | allocName (name : List Byte) (address : Nat)
deriving DecidableEq, Repr

/-- Byte writes of the host, in address order (20_memory.md R62). -/
def putBytes : Nat → List Byte → List HostAction
  | _, [] => []
  | a, b :: bs => .writeMem a b :: putBytes (a + 1) bs

/-- A write of `ARG0`, `ARG1`, `ARG2` or `ARG3`. -/
def putArg (i v : Nat) : HostAction := .writeWindow (4 + 4 * i) 32 (toWord v)

/-- A command line: write each named `ARGi`, write the command word to `CMD`, read `STATUS` until
`DONE = 1` (30_encoding.md R100). -/
def commandActions (args : List HostAction) (i : Instr) : List HostAction :=
  args ++ [.writeWindow 0x00 32 (encode i), .waitDone]

/-- The operand writes of ENCRYPT and DECRYPT (30_encoding.md R95, R100). -/
def cryptArgs (src dst len : Nat) (iv : Option Nat) : List HostAction :=
  [putArg 0 src, putArg 1 dst, putArg 2 len] ++ (iv.map (putArg 3)).toList

/-- The host actions of a line (30_encoding.md R100 to R102). -/
def lineActions : Line → List HostAction
  | .register r => commandActions [putArg 0 r] .register
  | .unregister a n => commandActions [putArg 0 a, putArg 1 n] .unregister
  | .unregisterAll => commandActions [] .unregisterAll
  | .resolve a n out => commandActions [putArg 0 a, putArg 1 n, putArg 2 out] .resolve
  | .alloc a n => commandActions [putArg 0 a, putArg 1 n] .alloc
  | .allocParts m a n bits => commandActions [putArg 0 a, putArg 1 n, putArg 2 bits] (.allocParts m)
  | .free k => commandActions [] (.free k)
  | .setKey k key bits enc => commandActions [putArg 0 key, putArg 1 bits] (.setKey k enc)
  | .setIv k iv n => commandActions [putArg 0 iv, putArg 1 n] (.setIv k true)
  | .setIvNull k => commandActions [] (.setIv k false)
  | .pokeIv k iv => commandActions [putArg 0 iv] (.pokeIv k)
  | .encrypt k src dst n iv => commandActions (cryptArgs src dst n iv) (.encrypt k iv.isSome)
  | .decrypt k src dst n iv => commandActions (cryptArgs src dst n iv) (.decrypt k iv.isSome)
  | .getBlockLen k => commandActions [] (.getBlockLen k)
  | .getIvLen k => commandActions [] (.getIvLen k)
  | .getKeyLen k => commandActions [] (.getKeyLen k)
  | .getName k out => commandActions [putArg 0 out] (.getName k)
  | .getAlgName k out => commandActions [putArg 0 out] (.getAlgName k)
  | .getMode k => commandActions [] (.getMode k)
  | .getIv k out => commandActions [putArg 0 out] (.getIv k)
  | .getState k => commandActions [] (.getState k)
  | .bytes a l => putBytes a l
  | .record a d => putBytes a (recordBytes d)
  | .resetIv k => commandActions [] (.setIv k false)
  | .rekey k key bits enc => commandActions [putArg 0 key, putArg 1 bits] (.setKey k enc)
  | .ctrCrypt k src dst n => commandActions (cryptArgs src dst n none) (.encrypt k false)
  | .allocName name a =>
    putBytes a name ++ commandActions [putArg 0 a, putArg 1 name.length] .alloc

/-- A host program: a finite list of lines as host actions (70_reset_and_hazards.md R321). -/
def assemble (lines : List Line) : List HostAction := lines.flatMap lineActions

/-- `expect ERR=<code> RESULT=<v>` (30_encoding.md R101). -/
def expects (s : State) (code v : Nat) : Bool :=
  errCode s.window.status.errcode == code && s.window.result == toWord v

/-- A state whose host is about to perform a program (10_state.md R53; log entry 4). -/
def State.withProgram (s : State) (program : List HostAction) : State :=
  { s with host := { program := program, index := 0, replies := [], doneRead := true } }

end Sys2Proof.Machine
end

