-- ==== Sys2Proof/Safety.lean ====
section
/-! DEFINITION. What claims are stated in terms of: the invariant of the machine, the launch premises
and the end of a run. -/

namespace Sys2Proof.Machine

/-- A descriptor that the registry may hold (10_state.md R33). -/
structure DescriptorLegal (d : Descriptor) : Prop where
  nameLen : 1 ≤ d.name.length ∧ d.name.length ≤ Config.nameMax
  algNameLen : 1 ≤ d.algName.length ∧ d.algName.length ≤ Config.algNameMax
  mode : (modeOf d).isSome = true
  impl : d.impl = implAes
  keyBits : isKeyBits d.keyBits.toNat = true
  blockLen : d.blockLen = 16

/-- An allocated slot (10_state.md R40 to R49). -/
structure SlotAllocated (x : Slot) : Prop where
  /-- R42. -/
  desc : DescriptorLegal x.desc
  /-- R43, R45, R46, R49: an Unkeyed slot has no schedule and no keystream. -/
  unkeyed : x.keyed = false →
    (x.nr = 0 ∧ x.enc = false ∧ x.sched = false ∧ x.rk = List.replicate 60 0) ∧
      x.cur = 0 ∧ x.ks = Block.zero
  /-- R43: a Keyed slot holds the schedule of some key of the descriptor's length. -/
  keyed : x.keyed = true → ∃ key : List Byte, 8 * key.length = x.desc.keyBits.toNat ∧
    x.nr.val = keyNr key ∧ x.rk = padWords (scheduleOf x.sched key)
  /-- 43_instance.md R237: the orientation of the schedule. -/
  orientation : x.keyed = true → x.sched = derivesDecrypt x.desc x.enc
  /-- R45, R46: ECB and CBC slots have cursor 0 and no keystream. -/
  cursor : isBlockMode x.desc = true → x.cur = 0 ∧ x.ks = Block.zero

/-- What every slot satisfies: a Free slot is all zero (10_state.md R47). -/
def SlotInv (x : Slot) : Prop := if x.alloc then SlotAllocated x else x = Slot.zero

/-- The invariant of the machine. -/
structure Inv (s : State) : Prop where
  /-- 00_scope.md R13. -/
  params : s.params.Legal
  /-- 10_state.md R40. -/
  slotCount : s.slots.length = s.params.nslots
  /-- 10_state.md R40 to R49. -/
  slots : ∀ x ∈ s.slots, SlotInv x
  /-- 10_state.md R33. -/
  registrySize : s.registry.length ≤ s.params.regMax
  /-- 10_state.md R36: names are unique. -/
  registryNames : s.registry.Pairwise (fun d e => d.name ≠ e.name)
  /-- 10_state.md R33. -/
  registryLegal : ∀ d ∈ s.registry, DescriptorLegal d
  /-- `MEM` keeps its canonical form (log entry 2). -/
  memForm : s.mem.wf
  /-- 20_memory.md R61: no byte outside `MEM` is ever written. -/
  memInside : ∀ c ∈ s.mem.cells, c.1 < s.params.memSize
  /-- 10_state.md R24: `ERR` is `ERRCODE ≠ 0`. -/
  errFlag : s.window.status.err = decide (s.window.status.errcode ≠ .ok)
  /-- 10_state.md R24: `BUSY` and `DONE` are never 1 together. -/
  busyDone : ¬(s.window.status.busy = true ∧ s.window.status.done = true)
  /-- 70_reset_and_hazards.md R313: nothing of the outcome shows before the completion. -/
  busyQuiet : s.window.status.busy = true → s.window.status.errcode = .ok ∧ s.window.result = 0
  /-- 10_state.md R25: `RESULT` is 0 after an error. -/
  errorResult : s.window.status.errcode ≠ .ok → s.window.result = 0
  /-- 10_state.md R32: `CMD` reads back the latched word. -/
  cmdLatched : s.window.cmd = s.latch.cmd
  /-- 70_reset_and_hazards.md R321: `DONE = 1` is read of no command in progress. -/
  doneReadIdle : s.host.doneRead = true → s.window.status.busy = false

/-! ### Runs: their start and their end -/

/-- `k` steps lead from `s` to `t` with no fault and no refusal. -/
def RunsTo (k : Nat) (s t : State) : Prop := Sys2Proof.core.run k s = .next t

/-- The state of the power-up or the soft reset: every piece of engine state as 70_reset_and_hazards.md R300
gives it, and any `MEM` (R300, R301). -/
def IsReset (s : State) : Prop :=
  s.params.Legal ∧ s.mem.wf ∧ (∀ c ∈ s.mem.cells, c.1 < s.params.memSize) ∧
    s = { State.resetWith s.params with mem := s.mem, accepted := s.accepted, host := s.host }

/-- `s` with another value of `MEM[a]`. -/
def State.withByte (s : State) (a : Nat) (v : Byte) : State := { s with mem := memWrite s.mem a v }

/-- The cell of `MEM[a]`: what it was last written with, if it was written since power-up. -/
def State.cell (s : State) (a : Nat) : Option Byte := lookupCell s.mem.cells a

/-- Two steps, from `s` and from `s'`, do the same but for `MEM[a]`, and that byte ends alike or was written by
neither. -/
def SameButByte (a : Nat) (s s' : State) : Prop :=
  match step s, step s' with
  | .next t, .next t' =>
    t = { t' with mem := t.mem } ∧ (∀ x, x ≠ a → memRead t'.mem x = memRead t.mem x) ∧
      (memRead t'.mem a = memRead t.mem a ∨ (t.cell a = s.cell a ∧ t'.cell a = s'.cell a))
  | .fault r, .fault r' => r = r'
  | .refused r, .refused r' => r = r'
  | _, _ => False

/-- The step reads `MEM[a]`: what it does depends on that byte's value (70_reset_and_hazards.md R322;
log entry 14). -/
def StepReads (s : State) (a : Nat) : Prop := ∃ v, ¬ SameButByte a s (s.withByte a v)

/-- The launch premises of 70_reset_and_hazards.md R322, of a state whose host program is at its start. A claim
that needs the registry to hold the built-ins says so. -/
structure Launch (s : State) : Prop where
  /-- The program is at its start, and none of its commands was accepted (R321). -/
  start : s.host.index = 0 ∧ s.host.doneRead = true
  /-- (1): the engine is in the state of R300 or R301, or in one that a run leads to from there. -/
  engine : ∃ r k t, IsReset r ∧ RunsTo k r t ∧ s = { t with host := s.host }
  /-- (2). -/
  idle : s.window.status.busy = false
  /-- (3). -/
  noOverrun : s.window.status.ovr = false
  /-- (4): a byte that a step of the run reads has a value by then, given at the start or written by the run. -/
  given : ∀ k t a, RunsTo k s t → StepReads t a → (t.cell a).isSome = true

/-- The run of a host program is over: the host has performed its last action and has read `DONE = 1` for its
last accepted command; a run whose last command is still `BUSY` is not over (70_reset_and_hazards.md R321). -/
def runOver (s : State) : Bool :=
  decide (s.host.program.length ≤ s.host.index) && s.host.doneRead && !s.window.status.busy

/-- The state with other latched operands. -/
def withArgs (s : State) (a0 a1 a2 a3 : Nat) : State :=
  { s with latch := { s.latch with arg0 := toWord a0, arg1 := toWord a1, arg2 := toWord a2,
                                   arg3 := toWord a3 } }

/-- What a GET command returns: its code, its result, and the bytes it writes. -/
structure GetAnswer where
  /-- `ERRCODE`. -/
  code : ErrCode
  /-- `RESULT`. -/
  result : Word
  /-- The bytes at `ARG0`. -/
  bytes : List Byte
deriving DecidableEq, Repr

/-- The eight GET commands on slot `k` (43_instance.md R242 to R250). -/
def getters (k : Nat) : List Instr :=
  [.getBlockLen k, .getIvLen k, .getKeyLen k, .getName k, .getAlgName k, .getMode k, .getIv k, .getState k]

/-- The GET command writes its answer at `ARG0` (43_instance.md R245, R246, R248). -/
def writesAnswer (i : Instr) : Bool :=
  match i with
  | .getName _ => true
  | .getAlgName _ => true
  | .getIv _ => true
  | _ => false

/-- What a GET command would return in this state, with `ARG0 = 0` (70_reset_and_hazards.md R321). A command
that fails has the result 0, and so no bytes. -/
def getAnswer (i : Instr) (s : State) : Option GetAnswer :=
  match exec i (withArgs s 0 0 0 0) with
  | .next t => some
    { code := t.window.status.errcode
      result := t.window.result
      bytes := if writesAnswer i then readBytes t.mem 0 t.window.result.toNat else [] }
  | _ => none

/-- The observation at the end of a run (70_reset_and_hazards.md R321). -/
structure Observation where
  /-- The final `MEM`, every byte of it. -/
  memory : List Byte
  /-- The window registers, by rising offset. -/
  window : List Word
  /-- What the GET commands would return, for each slot. -/
  slots : List (List (Option GetAnswer))
deriving DecidableEq, Repr

/-- The observation of a state (70_reset_and_hazards.md R321). -/
def observation (s : State) : Observation :=
  { memory := readBytes s.mem 0 s.params.memSize
    window := (List.range 16).map (fun i => windowRead s (4 * i))
    slots := (List.range s.params.nslots).map (fun k => (getters k).map (fun i => getAnswer i s)) }

/-- The run that starts in `s` ends, with this observation (70_reset_and_hazards.md R321). -/
def RunEndsWith (s : State) (o : Observation) : Prop :=
  ∃ k t, RunsTo k s t ∧ runOver t = true ∧ observation t = o

/-! ### Words of the claims -/

/-- `SLOT` names an instance: the checks of 43_instance.md R229 pass. -/
abbrev Live (s : State) (k : Nat) : Prop := k < s.params.nslots ∧ (s.slot k).alloc = true

/-- The range of `n` bytes from `a` lies in `MEM` (20_memory.md R66). -/
abbrev RangeOk (s : State) (a n : Nat) : Prop := n = 0 ∨ a + n ≤ s.params.memSize

/-- The name operand `(ARG0, ARG1)` is legal (42_registry.md R217). -/
abbrev NameOperandOk (s : State) : Prop :=
  1 ≤ s.arg1 ∧ s.arg1 ≤ 32 ∧ s.arg0 + s.arg1 ≤ s.params.memSize

/-- Names are unique in the registry (10_state.md R36). -/
abbrev UniqueNames (s : State) : Prop := s.registry.Pairwise (fun d e => d.name ≠ e.name)

/-- A key length is 128, 192 or 256 bits (00_scope.md R12). -/
abbrev KeyBitsLegal (n : Nat) : Prop := n = 128 ∨ n = 192 ∨ n = 256

/-- The mode of a slot's descriptor is ECB or CBC. -/
abbrev BlockMode (x : Slot) : Prop := modeOf x.desc = some .ecb ∨ modeOf x.desc = some .cbc

/-- ENCRYPT or DECRYPT passes its checks (41_mode_layer.md R173). `wrongSched` is the value of `SCHED` that
an ECB or CBC slot must not have. -/
structure CryptOk (s : State) (k : Nat) (ivp wrongSched : Bool) : Prop where
  live : Live s k
  keyed : (s.slot k).keyed = true
  direction : BlockMode (s.slot k) → (s.slot k).sched ≠ wrongSched
  length : BlockMode (s.slot k) → s.arg2 % 16 = 0
  source : RangeOk s s.arg0 s.arg2
  destination : RangeOk s s.arg1 s.arg2
  override : ivp = true → s.arg3 + 16 ≤ s.params.memSize

/-- Source and destination are the same buffer or do not overlap (20_memory.md R72). -/
abbrev PlainAliasing (s : State) : Prop :=
  s.arg0 = s.arg1 ∨ s.arg0 + s.arg2 ≤ s.arg1 ∨ s.arg1 + s.arg2 ≤ s.arg0

/-- The IV that ENCRYPT or DECRYPT starts from (41_mode_layer.md R174). -/
def startIv (s : State) (k : Nat) (ivp : Bool) : Block :=
  if ivp then readBlock s.mem s.arg3 else (s.slot k).iv

/-- From `s` to `t` a command completed with this code and result, and the completion fields are all that
changed in the window; the latch, the parameters and the host are unchanged (60_exceptions.md R271). -/
structure Completed (s t : State) (e : ErrCode) (v : Word) : Prop where
  busy : t.window.status.busy = false
  done : t.window.status.done = true
  err : t.window.status.err = decide (e ≠ .ok)
  errcode : t.window.status.errcode = e
  ovr : t.window.status.ovr = s.window.status.ovr
  result : t.window.result = v
  cmd : t.window.cmd = s.window.cmd
  args : t.window.arg0 = s.window.arg0 ∧ t.window.arg1 = s.window.arg1 ∧
    t.window.arg2 = s.window.arg2 ∧ t.window.arg3 = s.window.arg3
  latch : t.latch = s.latch
  params : t.params = s.params
  host : t.host = s.host

/-- Every byte of `MEM` reads as before. -/
def SameMem (s t : State) : Prop := ∀ a, memRead t.mem a = memRead s.mem a

/-- Every byte of `MEM` outside the `n` bytes from `a` reads as before. -/
def SameMemOutside (s t : State) (a n : Nat) : Prop :=
  ∀ x, x < a ∨ a + n ≤ x → memRead t.mem x = memRead s.mem x

/-- Every slot but `slot[k]` is as before. -/
def OtherSlotsSame (s t : State) (k : Nat) : Prop := ∀ j, j ≠ k → t.slot j = s.slot j

/-- Two states that differ in nothing that a command may read: the live operand registers, the flags, the
result and the readable command word are free (10_state.md R23, R32, R50). -/
def withWindow (s : State) (w : Window) : State := { s with window := w }

/-- The engine's completion is due: the host waits for `DONE`, has nothing more to do, or the drawn time is
over (log entry 1). -/
abbrev EngineDue (s : State) : Prop :=
  s.nextAction = some .waitDone ∨ s.nextAction = none ∨ s.delay = 0

/-- The command answers this value and changes nothing but the completion fields. -/
def Answers (i : Instr) (s : State) (v : Word) : Prop :=
  ∃ t, exec i s = .next t ∧ Completed s t .ok v ∧ t.registry = s.registry ∧ t.slots = s.slots ∧
    t.mem = s.mem

/-- The command writes these bytes at `ARG0`, answers their number, and changes nothing else but the
completion fields. -/
def WritesAtArg0 (i : Instr) (s : State) (bs : List Byte) : Prop :=
  ∃ t, exec i s = .next t ∧ Completed s t .ok (toWord bs.length) ∧ t.registry = s.registry ∧
    t.slots = s.slots ∧ readBytes t.mem s.arg0 bs.length = bs ∧ SameMemOutside s t s.arg0 bs.length

/-- The command completes with this code. -/
def EndsWith (i : Instr) (s : State) (e : ErrCode) : Prop :=
  ∃ t, exec i s = .next t ∧ t.window.status.errcode = e

/-- The host's read of a window offset gives this value and changes nothing but the host's own record
(20_memory.md R69), which notes a read of `DONE = 1` (70_reset_and_hazards.md R321; log entry 14). -/
def ReadsAs (s : State) (offset : Nat) (v : Word) : Prop :=
  hostMove (.readWindow offset 32) s = .next
    { s with host := { s.host with
      index := s.host.index + 1, replies := .word v :: s.host.replies
      doneRead := s.host.doneRead || (offset == 0x14 && s.window.status.done) } }

/-- A write of the window offset changes nothing but the host's own record (10_state.md R24, R25, R27 to
R30). -/
def IgnoresWrites (s : State) (offset : Nat) : Prop :=
  ∀ v, hostMove (.writeWindow offset 32 v) s = .next
    { s with host := { s.host with index := s.host.index + 1 } }

/-- What ENCRYPT or DECRYPT leaves when its checks pass (41_mode_layer.md R174, R176). -/
structure CryptFrame (s t : State) (k : Nat) (ivp : Bool) : Prop where
  completed : Completed s t .ok s.latch.arg2
  slot : t.slot k =
    { s.slot k with iv := (t.slot k).iv, ks := (t.slot k).ks, cur := (t.slot k).cur }
  override : ivp = true → t.slots = s.slots
  others : OtherSlotsSame s t k
  registry : t.registry = s.registry
  memory : SameMemOutside s t s.arg1 s.arg2

/-- The cursor that ENCRYPT or DECRYPT starts from (41_mode_layer.md R174). -/
def startCur (s : State) (k : Nat) (ivp : Bool) : Nat := if ivp then 0 else (s.slot k).cur.val

/-- Byte `p` of the CTR keystream of a slot, counted from the start of the block in hand: the rest of a begun
block is in `KS`, and the blocks after it are encrypted counters (41_mode_layer.md R184, R185). -/
def ctrKeyByte (s : State) (k : Nat) (ivp : Bool) (p : Nat) : Byte :=
  if startCur s k ivp ≠ 0 ∧ p < 16 then blockByte (s.slot k).ks p
  else blockByte (aesEnc (s.slot k).rk (s.slot k).nr.val
    (Nat.iterate inc128 (p / 16 - bit (startCur s k ivp != 0) + bit s.params.ctrPreinc)
      (startIv s k ivp))) (p % 16)

/-- Byte `p` of the CFB ciphertext of a slot, counted from the start of the block in hand, when the call's
ciphertext is `cipher`: the consumed bytes of a begun block are in `KS` (10_state.md R46). -/
def cfbCipherByte (s : State) (k : Nat) (ivp : Bool) (cipher : Nat → Byte) (p : Nat) : Byte :=
  if p < startCur s k ivp then blockByte (s.slot k).ks p else cipher (p - startCur s k ivp)

/-- The CFB feedback register at block `q` from the block in hand (41_mode_layer.md R190, R191). -/
def cfbFeedback (s : State) (k : Nat) (ivp : Bool) (cipher : Nat → Byte) (q : Nat) : Block :=
  if q = 0 then startIv s k ivp
  else blockOfBytes ((List.range 16).map (fun i => cfbCipherByte s k ivp cipher (16 * (q - 1) + i)))

/-- Byte `p` of the CFB keystream of a slot, counted likewise (41_mode_layer.md R190, R191). -/
def cfbKeyByte (s : State) (k : Nat) (ivp : Bool) (cipher : Nat → Byte) (p : Nat) : Byte :=
  if startCur s k ivp ≠ 0 ∧ p < 16 then blockByte (s.slot k).ks p
  else blockByte (aesEnc (s.slot k).rk (s.slot k).nr.val (cfbFeedback s k ivp cipher (p / 16))) (p % 16)

/-- `t` is what a CFB call with this ciphertext leaves of `s` (41_mode_layer.md R190, R191). -/
structure CfbFrom (s t : State) (k : Nat) (ivp : Bool) (cipher : Nat → Byte) : Prop where
  bytes : ∀ j, j < s.arg2 → memRead t.mem (s.arg1 + j) =
    memRead s.mem (s.arg0 + j) ^^^ cfbKeyByte s k ivp cipher (startCur s k ivp + j)
  iv : ivp = false →
    (t.slot k).iv = cfbFeedback s k ivp cipher ((startCur s k ivp + s.arg2) / 16)
  cur : ivp = false → (t.slot k).cur.val = (startCur s k ivp + s.arg2) % 16
  ks : ivp = false → (t.slot k).cur ≠ 0 → ∀ p, p < 16 → blockByte (t.slot k).ks p =
    if p < (t.slot k).cur.val then
      cfbCipherByte s k ivp cipher (16 * ((startCur s k ivp + s.arg2) / 16) + p)
    else cfbKeyByte s k ivp cipher (16 * ((startCur s k ivp + s.arg2) / 16) + p)

/-- Commands over pieces of these lengths, one after the other (41_mode_layer.md R195). -/
def runPieces (i : Instr) (s : State) (src dst : Nat) : List Nat → Host.Outcome State Fault Refusal
  | [] => .next s
  | n :: ns =>
    match exec i (withArgs s src dst n 0) with
    | .next t => runPieces i t (src + n) (dst + n) ns
    | o => o

end Sys2Proof.Machine
end

