-- ==== Sys2Proof/Certificates/Slice0/Obligations.lean ====
section
/-! DEFINITION. The statements for the provers. Each docstring says which rule of spec/ it formalises. -/

open Sys2Proof Sys2Proof.Machine

/-! ### Encoding -/

/-- Words written out bit by bit from the fields of 30_encoding.md R91 and R98 decode to the command they
stand for. -/
def Obligations.DecodeOfWrittenWords : Prop :=
  decode 0b00000001000000000000000000000000 = .ok .register ∧
  decode 0b00000010000000000000001000000000 = .ok .unregisterAll ∧
  decode 0b00010001000000000100000000000000 = .ok (.allocParts 4) ∧
  decode 0b00010011000000010000100000000000 = .ok (.setKey 1 true) ∧
  decode 0b00010100000000100000010000000000 = .ok (.setIv 2 true) ∧
  decode 0b00100000111111110000010000000000 = .ok (.encrypt 255 true) ∧
  decode 0b00100001000000010000000000000000 = .ok (.decrypt 1 false) ∧
  decode 0b00110111000010000000000000000000 = .ok (.getState 8)

/-- Decoding the word of a well-formed command gives the command back (30_encoding.md R91, R94, R98). -/
def Obligations.DecodeEncodeRoundTrip : Prop :=
  ∀ i : Instr, i.WellFormed → decode (encode i) = .ok i

/-- A word that decodes is the word of the command it decodes to, and that command is well formed: no bit of
a command word is dropped (30_encoding.md R93, R94). -/
def Obligations.DecodedWordsEncodeBack : Prop :=
  ∀ (w : Word) (i : Instr), decode w = .ok i → encode i = w ∧ i.WellFormed

/-- "No two rows match the same word" (30_encoding.md R94). -/
def Obligations.OpcodeRowsDisjoint : Prop :=
  ∀ (w : Word), ∀ r ∈ opcodeMap, ∀ r' ∈ opcodeMap, r.covers w = true → r'.covers w = true → r = r'

/-- Reserved opcodes and nonzero reserved bits do not decode, and a word that does not decode raises
`ERR_ILLEGAL` and changes nothing else (30_encoding.md R99). -/
def Obligations.ReservedWordsRaiseIllegal : Prop :=
  (∀ w : Word, (opcField w = 0x00 ∨ (0x04 ≤ opcField w ∧ opcField w ≤ 0x0F) ∨
      (0x16 ≤ opcField w ∧ opcField w ≤ 0x1F) ∨ (0x22 ≤ opcField w ∧ opcField w ≤ 0x2F) ∨
      0x38 ≤ opcField w) → ∃ r, decode w = .error r) ∧
  (∀ w : Word, field w 0 10 ≠ 0 → w ≠ 0x02000200 → ∃ r, decode w = .error r) ∧
  (∀ (s : State) (r : Undecodable), s.window.status.busy = true → EngineDue s →
    decode s.latch.cmd = .error r →
    ∃ t, step s = .next t ∧ Completed s t .illegal 0 ∧ t.registry = s.registry ∧
      t.slots = s.slots ∧ t.mem = s.mem)

/-! ### The step -/

/-- When a command is in progress, its completion is due and its word decodes, the step is `exec` of the
decoded command at that state, and nothing is added around it (10_state.md R20, 30_encoding.md R94). -/
def Obligations.StepRunsDecodedCommand : Prop :=
  ∀ (s : State) (i : Instr), s.window.status.busy = true → EngineDue s → decode s.latch.cmd = .ok i →
    step s = exec i s

/-- With the word of a well-formed command accepted and its completion due, the step runs that command, on
the operands that were in `ARG0` to `ARG3`, with the flags and `RESULT` as acceptance leaves them
(10_state.md R22, R32; log entry 4). -/
def Obligations.FetchedWordRuns : Prop :=
  ∀ (s : State) (i : Instr), i.WellFormed →
    let f := s.withFetchWord 32 (encode i).toNat
    step f = exec i f ∧
    f.latch = ⟨encode i, s.window.arg0, s.window.arg1, s.window.arg2, s.window.arg3⟩ ∧
    f.window = ⟨encode i, s.window.arg0, s.window.arg1, s.window.arg2, s.window.arg3,
      ⟨true, false, false, s.window.status.ovr, .ok⟩, 0⟩ ∧
    f.registry = s.registry ∧ f.slots = s.slots ∧ f.mem = s.mem ∧ f.params = s.params

/-- When it is not the engine's turn the host performs its next action, and with none left the machine is
idle and keeps its state (10_state.md R20, R53, 60_exceptions.md R289; log entries 1 and 4). -/
def Obligations.HostActsWhenEngineIsNotDue : Prop :=
  ∀ s : State, (s.window.status.busy = false ∨ ¬ EngineDue s) →
    (∀ act, s.nextAction = some act → step s = hostMove act { s with delay := s.delay - 1 }) ∧
    (s.nextAction = none → step s = .next s)

/-- A command in progress ends: every step ends it or brings its completion nearer and leaves the latched
command alone (70_reset_and_hazards.md R320; log entry 1). -/
def Obligations.CommandsInProgressEnd : Prop :=
  ∀ s t : State, s.window.status.busy = true → step s = .next t →
    t.window.status.busy = false ∨
    (t.window.status.busy = true ∧ t.latch = s.latch ∧ t.delay < s.delay)

/-! ### The host's moves -/

/-- A `CMD` write to an idle engine is accepted; one to a busy engine sets `OVR` and changes nothing else; a
read gives the last accepted word (10_state.md R22). -/
def Obligations.CmdWriteIsAccepted : Prop :=
  ∀ (s : State) (v : Word), ReadsAs s 0x00 s.window.cmd ∧
    (s.window.status.busy = false →
      ∃ t, hostMove (.writeWindow 0x00 32 v) s = .next t ∧
        t.latch = ⟨v, s.window.arg0, s.window.arg1, s.window.arg2, s.window.arg3⟩ ∧
        t.window = ⟨v, s.window.arg0, s.window.arg1, s.window.arg2, s.window.arg3,
          ⟨true, false, false, s.window.status.ovr, .ok⟩, 0⟩ ∧
        t.registry = s.registry ∧ t.slots = s.slots ∧ t.mem = s.mem ∧ t.params = s.params) ∧
    (s.window.status.busy = true →
      hostMove (.writeWindow 0x00 32 v) s = .next
        { s with window := { s.window with status := { s.window.status with ovr := true } },
                 host := { s.host with index := s.host.index + 1 } })

/-- A `CMD` write while `BUSY = 1` sets `OVR` and changes nothing else; `OVR` then stays 1 at every step but a
`CTRL` write of `OVRCLR` or `SRST` and a power-up; and `OVR = 1` does not keep a command from being accepted
(60_exceptions.md R276). -/
def Obligations.OverrunOnlySetsOvr : Prop :=
  (∀ (s : State) (v : Word), s.window.status.busy = true →
    hostMove (.writeWindow 0x00 32 v) s = .next
      { s with window := { s.window with status := { s.window.status with ovr := true } },
               host := { s.host with index := s.host.index + 1 } }) ∧
  (∀ s t : State, s.window.status.ovr = true → step s = .next t →
    t.window.status.ovr = true ∨ s.nextAction = some .powerUp ∨
    ∃ v, s.nextAction = some (.writeWindow 0x1C 32 v) ∧ (v.getLsbD 0 = true ∨ v.getLsbD 1 = true)) ∧
  (∀ (s : State) (v : Word), s.window.status.busy = false → s.window.status.ovr = true →
    ∃ t, hostMove (.writeWindow 0x00 32 v) s = .next t ∧ t.window.status.busy = true ∧ t.latch.cmd = v)

/-- What each offset of the window reads as, that a read has no side effect, and that the read-only and the
reserved offsets ignore writes (10_state.md R22 to R30, 20_memory.md R69). -/
def Obligations.WindowReadsGiveTheRegisters : Prop :=
  ∀ s : State, ReadsAs s 0x00 s.window.cmd ∧ ReadsAs s 0x04 s.window.arg0 ∧
    ReadsAs s 0x08 s.window.arg1 ∧ ReadsAs s 0x0C s.window.arg2 ∧ ReadsAs s 0x10 s.window.arg3 ∧
    ReadsAs s 0x14 (statusWord s.window.status) ∧ ReadsAs s 0x18 s.window.result ∧
    ReadsAs s 0x1C 0 ∧ ReadsAs s 0x20 0x41455343 ∧ ReadsAs s 0x24 (paramsWord s.params) ∧
    ReadsAs s 0x28 (toWord (s.params.memSize % 2 ^ 32)) ∧
    (∀ offset ∈ [0x14, 0x18, 0x20, 0x24, 0x28], IgnoresWrites s offset) ∧
    (∀ offset, 0x2C ≤ offset → offset < 0x40 → offset % 4 = 0 →
      ReadsAs s offset 0 ∧ IgnoresWrites s offset)

/-- The bits that `PARAMS` (10_state.md R28) and `STATUS` (R24) read as; neither takes a write. -/
def Obligations.WindowWordLayouts : Prop :=
  ∀ s : State, s.params.Legal →
    (∃ v, ReadsAs s 0x24 v ∧ IgnoresWrites s 0x24 ∧ field v 0 8 = s.params.nslots % 256 ∧
      field v 8 8 = s.params.regMax ∧ field v 16 8 = 32 ∧ field v 24 4 = 4 ∧
      field v 28 1 = bit s.params.ctrPreinc ∧ field v 29 3 = 0) ∧
    (∃ v, ReadsAs s 0x14 v ∧ IgnoresWrites s 0x14 ∧ field v 0 1 = bit s.window.status.busy ∧
      field v 1 1 = bit s.window.status.done ∧ field v 2 1 = bit s.window.status.err ∧
      field v 3 1 = bit s.window.status.ovr ∧ field v 4 4 = 0 ∧
      field v 8 8 = errCode s.window.status.errcode ∧ field v 16 16 = 0)

/-- A write of `ARGi` stores the value, in progress or not, and leaves the latch and everything else alone
(10_state.md R23, 70_reset_and_hazards.md R311). -/
def Obligations.WindowWritesStoreOperandsOnly : Prop :=
  ∀ (s : State) (v : Word),
    hostMove (.writeWindow 0x04 32 v) s = .next { s with
      window := { s.window with arg0 := v }, host := { s.host with index := s.host.index + 1 } } ∧
    hostMove (.writeWindow 0x08 32 v) s = .next { s with
      window := { s.window with arg1 := v }, host := { s.host with index := s.host.index + 1 } } ∧
    hostMove (.writeWindow 0x0C 32 v) s = .next { s with
      window := { s.window with arg2 := v }, host := { s.host with index := s.host.index + 1 } } ∧
    hostMove (.writeWindow 0x10 32 v) s = .next { s with
      window := { s.window with arg3 := v }, host := { s.host with index := s.host.index + 1 } }

/-- A write of `CTRL`: bit 0 performs the soft reset, in progress or not, which gives every piece of engine
state its reset value and leaves `MEM` unchanged; otherwise bit 1 clears `OVR`; other bits do nothing,
and a read gives 0 (10_state.md R26, 70_reset_and_hazards.md R301, R302). -/
def Obligations.CtrlWritesResetOrClear : Prop :=
  ∀ (s : State) (v : Word), ReadsAs s 0x1C 0 ∧ ∃ t, hostMove (.writeWindow 0x1C 32 v) s = .next t ∧
    (v.getLsbD 0 = true →
      t.window = ⟨0, 0, 0, 0, 0, ⟨false, false, false, false, .ok⟩, 0⟩ ∧ t.latch = ⟨0, 0, 0, 0, 0⟩ ∧
      t.registry = builtins ∧ t.slots = List.replicate s.params.nslots Slot.zero ∧
      t.mem = s.mem ∧ t.params = s.params) ∧
    (v.getLsbD 0 = false → v.getLsbD 1 = true →
      t = { s with window := { s.window with status := { s.window.status with ovr := false } },
                   host := { s.host with index := s.host.index + 1 } }) ∧
    (v.getLsbD 0 = false → v.getLsbD 1 = false →
      t = { s with host := { s.host with index := s.host.index + 1 } })

/-- A window access that is not an aligned 32-bit access inside the window is refused (20_memory.md R70). -/
def Obligations.OddWindowAccessesAreRefused : Prop :=
  ∀ (s : State) (offset width : Nat) (v : Word), width ≠ 32 ∨ offset % 4 ≠ 0 ∨ 0x40 ≤ offset →
    hostMove (.readWindow offset width) s = .refused (.windowAccessWithoutMove offset width) ∧
    hostMove (.writeWindow offset width v) s = .refused (.windowAccessWithoutMove offset width)

/-- The host has no move on a `MEM` byte in the ranges of the command in progress; every other byte of `MEM`
it reads and writes freely (70_reset_and_hazards.md R310, 20_memory.md R62; log entry 6). -/
def Obligations.HostMemMovesAvoidRunningRanges : Prop :=
  ∀ (s : State) (a : Nat) (v : Byte), a < s.params.memSize →
    (∀ i, s.window.status.busy = true → decode s.latch.cmd = .ok i →
      (∃ r ∈ commandRanges i s, r.1 ≤ a ∧ a < r.1 + r.2) →
      hostMove (.readMem a) s = .refused (.memAccessInRunningRange a) ∧
      hostMove (.writeMem a v) s = .refused (.memAccessInRunningRange a)) ∧
    ((s.window.status.busy = false ∨
        ∀ i, decode s.latch.cmd = .ok i → ∀ r ∈ commandRanges i s, a < r.1 ∨ r.1 + r.2 ≤ a) →
      hostMove (.readMem a) s = .next { s with host := { s.host with
        index := s.host.index + 1, replies := .byte (memRead s.mem a) :: s.host.replies } } ∧
      ∃ t, hostMove (.writeMem a v) s = .next t ∧ t.window = s.window ∧ t.latch = s.latch ∧
        t.registry = s.registry ∧ t.slots = s.slots ∧ memRead t.mem a = v ∧
        ∀ x, x ≠ a → memRead t.mem x = memRead s.mem x)

/-! ### Errors and completion -/

/-- Every command, and a latched word that is no command, ends with exactly one completion, which writes the
flags and `RESULT` and nothing else of the window (60_exceptions.md R271). -/
def Obligations.EveryCommandCompletes : Prop :=
  (∀ (i : Instr) (s : State), ∃ t e v, exec i s = .next t ∧ Completed s t e v ∧ (e ≠ .ok → v = 0)) ∧
  (∀ s : State, ∃ t e v, engineStep s = .next t ∧ Completed s t e v ∧ (e ≠ .ok → v = 0))

/-- A command that fails completes with its code and `RESULT = 0` and changes no registry entry, no slot field
and no `MEM` byte (60_exceptions.md R272). -/
def Obligations.ErrorsArePrecise : Prop :=
  ∀ (i : Instr) (s t : State) (e : ErrCode), exec i s = .next t → t.window.status.errcode = e → e ≠ .ok →
    Completed s t e 0 ∧ t.registry = s.registry ∧ t.slots = s.slots ∧ t.mem = s.mem

/-- A failed command repeated with the same state and operands fails again with the same code
(60_exceptions.md R277). -/
def Obligations.FailedCommandsFailAgain : Prop :=
  ∀ (i : Instr) (s t : State), exec i s = .next t → t.window.status.errcode ≠ .ok → exec i t = .next t

/-- The code of ENCRYPT and DECRYPT is that of the first failing check (41_mode_layer.md R173). -/
def Obligations.CryptErrorOrder : Prop :=
  ∀ (s : State) (k : Nat) (ivp : Bool),
    let code := fun (wrongSched : Bool) =>
      if ¬ Live s k then ErrCode.badSlot
      else if (s.slot k).keyed = false then .notKeyed
      else if BlockMode (s.slot k) ∧ (s.slot k).sched = wrongSched then .direction
      else if BlockMode (s.slot k) ∧ s.arg2 % 16 ≠ 0 then .length
      else if ¬ RangeOk s s.arg0 s.arg2 ∨ ¬ RangeOk s s.arg1 s.arg2 then .memRange
      else if ivp = true ∧ ¬ RangeOk s s.arg3 16 then .memRange
      else .ok
    EndsWith (.encrypt k ivp) s (code true) ∧ EndsWith (.decrypt k ivp) s (code false)

/-- The codes of SETKEY (43_instance.md R236), SETIV (R238) and POKEIV (R240) in the order of their checks. -/
def Obligations.KeyAndIvErrorOrder : Prop :=
  ∀ (s : State) (k : Nat) (dir ivp : Bool),
    EndsWith (.setKey k dir) s
      (if ¬ Live s k then .badSlot
       else if ¬ KeyBitsLegal s.arg1 ∨ s.arg1 ≠ (s.slot k).desc.keyBits.toNat then .keyLen
       else if ¬ RangeOk s s.arg0 (s.arg1 / 8) then .memRange else .ok) ∧
    EndsWith (.setIv k ivp) s
      (if ¬ Live s k then .badSlot
       else if ivp = true ∧ s.arg1 ≠ 16 then .ivLen
       else if ivp = true ∧ ¬ RangeOk s s.arg0 16 then .memRange else .ok) ∧
    EndsWith (.pokeIv k) s
      (if ¬ Live s k then .badSlot else if ¬ RangeOk s s.arg0 16 then .memRange else .ok)

/-- The codes of FREE and the accessors (43_instance.md R229, R245, R246, R248, R250): only GET_STATE works
on a Free slot. -/
def Obligations.SlotCommandErrorOrder : Prop :=
  ∀ (s : State) (k : Nat),
    (∀ i ∈ [Instr.free k, .getBlockLen k, .getIvLen k, .getKeyLen k, .getMode k],
      EndsWith i s (if ¬ Live s k then .badSlot else .ok)) ∧
    EndsWith (.getName k) s (if ¬ Live s k then .badSlot
      else if ¬ RangeOk s s.arg0 (s.slot k).desc.name.length then .memRange else .ok) ∧
    EndsWith (.getAlgName k) s (if ¬ Live s k then .badSlot
      else if ¬ RangeOk s s.arg0 (s.slot k).desc.algName.length then .memRange else .ok) ∧
    EndsWith (.getIv k) s (if ¬ Live s k then .badSlot
      else if ¬ RangeOk s s.arg0 16 then .memRange else .ok) ∧
    EndsWith (.getState k) s (if s.params.nslots ≤ k then .badSlot else .ok)

/-- The codes of the registry commands in the order of their checks (42_registry.md R210, R212, R214, R215,
R216, R217). -/
def Obligations.RegistryErrorOrder : Prop :=
  ∀ s : State,
    let b := fun i => (memRead s.mem (s.arg0 + i)).toNat
    let known := fun (x : List Byte) => s.registry.any (fun e => e.name == x)
    EndsWith .register s
      (if ¬ RangeOk s s.arg0 64 then .memRange
       else if ¬ ((1 ≤ b 0 ∧ b 0 ≤ 32) ∧ 1 ≤ b 1 ∧ b 1 ≤ 16) then .name
       else if ¬ (1 ≤ b 2 ∧ b 2 ≤ 4) then .unsupported
       else if b 3 ≠ 1 then .unsupported
       else if ¬ KeyBitsLegal (b 4 + 256 * b 5) then .unsupported
       else if b 6 + 256 * b 7 ≠ 16 then .unsupported
       else if known (readBytes s.mem (s.arg0 + 8) (b 0)) = false ∧
          s.registry.length = s.params.regMax then .noResource
       else .ok) ∧
    EndsWith .unregister s
      (if ¬ (1 ≤ s.arg1 ∧ s.arg1 ≤ 32) then .name
       else if ¬ RangeOk s s.arg0 s.arg1 then .memRange
       else if known (readBytes s.mem s.arg0 s.arg1) = false then .notFound else .ok) ∧
    EndsWith .unregisterAll s .ok ∧
    EndsWith .resolve s
      (if ¬ (1 ≤ s.arg1 ∧ s.arg1 ≤ 32) then .name
       else if ¬ RangeOk s s.arg0 s.arg1 then .memRange
       else if ¬ RangeOk s s.arg2 64 then .memRange
       else if known (readBytes s.mem s.arg0 s.arg1) = false then .notFound else .ok)

/-- The codes of ALLOC (43_instance.md R230) and ALLOC_PARTS (R232) in the order of their checks. -/
def Obligations.AllocErrorOrder : Prop :=
  ∀ (s : State) (mode : Nat),
    let known := fun (x : List Byte) => s.registry.any (fun e => e.name == x)
    let full := s.slots.all (fun x => x.alloc)
    EndsWith .alloc s
      (if ¬ (1 ≤ s.arg1 ∧ s.arg1 ≤ 32) then .name
       else if ¬ RangeOk s s.arg0 s.arg1 then .memRange
       else if known (readBytes s.mem s.arg0 s.arg1) = false then .notFound
       else if full = true then .noResource else .ok) ∧
    (¬ (1 ≤ mode ∧ mode ≤ 4) → EndsWith (.allocParts mode) s .unsupported) ∧
    (∀ m, modeOfCode mode = some m →
      EndsWith (.allocParts mode) s
        (if ¬ (1 ≤ s.arg1 ∧ s.arg1 ≤ 16) then .name
         else if ¬ RangeOk s s.arg0 s.arg1 then .memRange
         else if 32 < (canonicalName (readBytes s.mem s.arg0 s.arg1) s.arg2 m).length then .unsupported
         else if known (canonicalName (readBytes s.mem s.arg0 s.arg1) s.arg2 m) = false then .unsupported
         else if full = true then .noResource else .ok))

/-! ### Registry commands -/

/-- REGISTER of a valid record, when its name is known or there is room: the entry of that name goes, every
other entry keeps its order, and the new descriptor stands last (42_registry.md R210, R211, R213). -/
def Obligations.RegisterPutsDescriptorLast : Prop :=
  ∀ s : State,
    let b := fun i => (memRead s.mem (s.arg0 + i)).toNat
    let name := readBytes s.mem (s.arg0 + 8) (b 0)
    UniqueNames s → s.arg0 + 64 ≤ s.params.memSize →
    1 ≤ b 0 → b 0 ≤ 32 → 1 ≤ b 1 → b 1 ≤ 16 → 1 ≤ b 2 → b 2 ≤ 4 → b 3 = 1 →
    KeyBitsLegal (b 4 + 256 * b 5) → b 6 + 256 * b 7 = 16 →
    ((∃ e ∈ s.registry, e.name = name) ∨ s.registry.length < s.params.regMax) →
    ∃ t d, exec .register s = .next t ∧
      d.name = name ∧ d.algName = readBytes s.mem (s.arg0 + 40) (b 1) ∧ d.mode.toNat = b 2 ∧
      d.impl = 1 ∧ d.keyBits.toNat = b 4 + 256 * b 5 ∧ d.blockLen.toNat = 16 ∧
      t.registry = s.registry.filter (fun e => e.name != name) ++ [d] ∧
      Completed s t .ok (toWord (t.registry.length - 1)) ∧ t.slots = s.slots ∧ SameMem s t

/-- UNREGISTER removes the entry of the name and keeps the order of the others; UNREGISTER_ALL removes every
entry and gives their number (42_registry.md R214, R215). -/
def Obligations.UnregisterRemovesEntries : Prop :=
  ∀ s : State,
    (UniqueNames s → NameOperandOk s → (∃ e ∈ s.registry, e.name = readBytes s.mem s.arg0 s.arg1) →
      ∃ t, exec .unregister s = .next t ∧ Completed s t .ok 0 ∧
        t.registry = s.registry.filter (fun e => e.name != readBytes s.mem s.arg0 s.arg1) ∧
        t.registry.length + 1 = s.registry.length ∧ t.slots = s.slots ∧ SameMem s t) ∧
    (∃ t, exec .unregisterAll s = .next t ∧ Completed s t .ok (toWord s.registry.length) ∧
      t.registry = [] ∧ t.slots = s.slots ∧ SameMem s t)

/-- RESOLVE writes the record of the entry of the name, with padding and reserved bytes 0, and gives its
index (42_registry.md R211, R216). -/
def Obligations.ResolveWritesTheRecord : Prop :=
  ∀ (s : State) (i : Nat) (d : Descriptor), UniqueNames s → NameOperandOk s →
    s.arg2 + 64 ≤ s.params.memSize → s.registry[i]? = some d →
    d.name = readBytes s.mem s.arg0 s.arg1 → DescriptorLegal d →
    ∃ t, exec .resolve s = .next t ∧ Completed s t .ok (toWord i) ∧
      t.registry = s.registry ∧ t.slots = s.slots ∧ SameMemOutside s t s.arg2 64 ∧
      (memRead t.mem s.arg2).toNat = d.name.length ∧
      (memRead t.mem (s.arg2 + 1)).toNat = d.algName.length ∧
      (memRead t.mem (s.arg2 + 2)).toNat = d.mode.toNat ∧ memRead t.mem (s.arg2 + 3) = d.impl ∧
      (memRead t.mem (s.arg2 + 4)).toNat + 256 * (memRead t.mem (s.arg2 + 5)).toNat = d.keyBits.toNat ∧
      (memRead t.mem (s.arg2 + 6)).toNat + 256 * (memRead t.mem (s.arg2 + 7)).toNat = d.blockLen.toNat ∧
      readBytes t.mem (s.arg2 + 8) 32 = d.name ++ List.replicate (32 - d.name.length) 0 ∧
      readBytes t.mem (s.arg2 + 40) 16 = d.algName ++ List.replicate (16 - d.algName.length) 0 ∧
      readBytes t.mem (s.arg2 + 56) 8 = List.replicate 8 0

/-- The descriptor that REGISTER makes of the record that RESOLVE writes is the descriptor itself
(42_registry.md R211). -/
def Obligations.RecordRoundTrip : Prop :=
  ∀ d : Descriptor, DescriptorLegal d →
    (recordBytes d).length = 64 ∧ descriptorOfRecord (recordBytes d) = d

/-- `decimal(v)` is the exact decimal form of every 32-bit value, with no leading zero, and `0` for 0
(43_instance.md R233). -/
def Obligations.DecimalFormIsExact : Prop :=
  ∀ v : Nat, v < 2 ^ 32 →
    (∀ b ∈ decimal v, 0x30 ≤ b.toNat ∧ b.toNat ≤ 0x39) ∧
    (decimal v).foldl (fun n b => 10 * n + (b.toNat - 0x30)) 0 = v ∧
    (v = 0 → decimal v = [0x30]) ∧ (v ≠ 0 → ∃ b rest, decimal v = b :: rest ∧ b ≠ 0x30)

/-! ### Lifecycle commands -/

/-- ALLOC takes the lowest-numbered Free slot, makes it Unkeyed and all zero but for its copy of the
descriptor, and gives its number (43_instance.md R230, R231). -/
def Obligations.AllocTakesLowestFreeSlot : Prop :=
  ∀ (s : State) (i k : Nat) (d : Descriptor), UniqueNames s → NameOperandOk s →
    s.registry[i]? = some d → d.name = readBytes s.mem s.arg0 s.arg1 →
    k < s.slots.length → (s.slot k).alloc = false → (∀ j, j < k → (s.slot j).alloc = true) →
    ∃ t, exec .alloc s = .next t ∧ Completed s t .ok (toWord k) ∧
      t.slot k = { Slot.zero with alloc := true, desc := d } ∧ OtherSlotsSame s t k ∧
      t.registry = s.registry ∧ SameMem s t

/-- ALLOC_PARTS does the same from the canonical name of its parts (43_instance.md R232, R233). -/
def Obligations.AllocPartsTakesCanonicalName : Prop :=
  ∀ (s : State) (mode i k : Nat) (m : Mode) (d : Descriptor), UniqueNames s →
    modeOfCode mode = some m → 1 ≤ s.arg1 → s.arg1 ≤ 16 → s.arg0 + s.arg1 ≤ s.params.memSize →
    s.registry[i]? = some d →
    d.name = readBytes s.mem s.arg0 s.arg1 ++ [0x2d] ++ decimal s.arg2 ++ [0x2d] ++ modeName m →
    d.name.length ≤ 32 →
    k < s.slots.length → (s.slot k).alloc = false → (∀ j, j < k → (s.slot j).alloc = true) →
    ∃ t, exec (.allocParts mode) s = .next t ∧ Completed s t .ok (toWord k) ∧
      t.slot k = { Slot.zero with alloc := true, desc := d } ∧ OtherSlotsSame s t k ∧
      t.registry = s.registry ∧ SameMem s t

/-- FREE zeroes every field of the slot and touches nothing else (43_instance.md R234). -/
def Obligations.FreeZeroesTheSlot : Prop :=
  ∀ (s : State) (k : Nat), Live s k →
    ∃ t, exec (.free k) s = .next t ∧ Completed s t .ok 0 ∧ t.slot k = Slot.zero ∧
      OtherSlotsSame s t k ∧ t.registry = s.registry ∧ SameMem s t

/-- SETKEY stores the schedule of the key in the orientation of R237, zero words after it, and its rounds;
it sets `KEYED` and `ENC`, discards keystream and keeps the IV (43_instance.md R236, R237). -/
def Obligations.SetKeyStoresTheSchedule : Prop :=
  ∀ (s : State) (k : Nat) (dir : Bool), Live s k → KeyBitsLegal s.arg1 →
    s.arg1 = (s.slot k).desc.keyBits.toNat → s.arg0 + s.arg1 / 8 ≤ s.params.memSize →
    let key := readBytes s.mem s.arg0 (s.arg1 / 8)
    let dec := decide (BlockMode (s.slot k) ∧ dir = false)
    ∃ t, exec (.setKey k dir) s = .next t ∧ Completed s t .ok 0 ∧
      t.slot k = { s.slot k with
        rk := (t.slot k).rk, nr := (t.slot k).nr, sched := dec, keyed := true, enc := dir, cur := 0,
        ks := Block.zero } ∧
      (t.slot k).rk.length = 60 ∧ (t.slot k).nr.val = s.arg1 / 32 + 6 ∧
      (∀ i, i < 4 * (s.arg1 / 32 + 7) → keyWord (t.slot k).rk i =
        keyWord (if dec = true then decryptSchedule key else encryptSchedule key) i) ∧
      (∀ i, 4 * (s.arg1 / 32 + 7) ≤ i → keyWord (t.slot k).rk i = 0) ∧
      OtherSlotsSame s t k ∧ t.registry = s.registry ∧ SameMem s t

/-- SETIV replaces the IV when one is supplied and restarts the cursor in any case; POKEIV replaces the IV
and leaves `CUR` and `KS` alone (43_instance.md R238, R240). -/
def Obligations.SetIvAndPokeIvWriteTheIv : Prop :=
  ∀ (s : State) (k : Nat), Live s k →
    (s.arg1 = 16 → s.arg0 + 16 ≤ s.params.memSize →
      ∃ t, exec (.setIv k true) s = .next t ∧ Completed s t .ok 0 ∧
        t.slot k = { s.slot k with iv := readBlock s.mem s.arg0, cur := 0 } ∧
        OtherSlotsSame s t k ∧ t.registry = s.registry ∧ SameMem s t) ∧
    (∃ t, exec (.setIv k false) s = .next t ∧ Completed s t .ok 0 ∧
      t.slot k = { s.slot k with cur := 0 } ∧
      OtherSlotsSame s t k ∧ t.registry = s.registry ∧ SameMem s t) ∧
    (s.arg0 + 16 ≤ s.params.memSize →
      ∃ t, exec (.pokeIv k) s = .next t ∧ Completed s t .ok 0 ∧
        t.slot k = { s.slot k with iv := readBlock s.mem s.arg0 } ∧
        OtherSlotsSame s t k ∧ t.registry = s.registry ∧ SameMem s t)

/-! ### Accessors -/

/-- The accessors that give a value: block length, IV length, key length, mode (43_instance.md R242 to R244,
R247). -/
def Obligations.ValueAccessorsAnswer : Prop :=
  ∀ (s : State) (k : Nat), Live s k →
    Answers (.getBlockLen k) s (toWord (s.slot k).desc.blockLen.toNat) ∧
    Answers (.getIvLen k) s (toWord (s.slot k).desc.blockLen.toNat) ∧
    Answers (.getKeyLen k) s (toWord (s.slot k).desc.keyBits.toNat) ∧
    Answers (.getMode k) s (toWord (s.slot k).desc.mode.toNat)

/-- The accessors that write: name, algorithm name, IV (43_instance.md R245, R246, R248). -/
def Obligations.ByteAccessorsWrite : Prop :=
  ∀ (s : State) (k : Nat), Live s k →
    (RangeOk s s.arg0 (s.slot k).desc.name.length →
      WritesAtArg0 (.getName k) s (s.slot k).desc.name) ∧
    (RangeOk s s.arg0 (s.slot k).desc.algName.length →
      WritesAtArg0 (.getAlgName k) s (s.slot k).desc.algName) ∧
    (RangeOk s s.arg0 16 → WritesAtArg0 (.getIv k) s (blockBytes (s.slot k).iv))

/-- GET_STATE: 0 on a Free slot, and on an allocated one the bits that 43_instance.md R250 lists. -/
def Obligations.GetStateShowsTheSlot : Prop :=
  ∀ (s : State) (k : Nat), k < s.params.nslots →
    ((s.slot k).alloc = false → Answers (.getState k) s 0) ∧
    ((s.slot k).alloc = true → ∃ v, Answers (.getState k) s v ∧ field v 0 1 = 1 ∧
      field v 1 1 = bit (s.slot k).keyed ∧ field v 2 1 = bit (s.slot k).enc ∧
      field v 3 1 = bit (s.slot k).sched ∧ field v 4 4 = 0 ∧ field v 8 4 = (s.slot k).cur.val ∧
      field v 12 4 = 0 ∧ field v 16 4 = (s.slot k).desc.mode.toNat ∧ field v 20 12 = 0)

/-! ### The mode layer -/

/-- ENCRYPT and DECRYPT, when their checks pass, complete with their length as the result; only `IV`, `KS` and
`CUR` of the slot change, not even those with an override IV, and only the destination bytes of `MEM`
(41_mode_layer.md R171, R172, R176). -/
def Obligations.CryptCompletesInItsFrame : Prop :=
  ∀ (s : State) (k : Nat) (ivp : Bool),
    (CryptOk s k ivp true → ∃ t, exec (.encrypt k ivp) s = .next t ∧ CryptFrame s t k ivp) ∧
    (CryptOk s k ivp false → ∃ t, exec (.decrypt k ivp) s = .next t ∧ CryptFrame s t k ivp)

/-- With an override IV the call runs as if the slot held that IV and no keystream, and leaves every slot as it
was (41_mode_layer.md R174). -/
def Obligations.OverrideIvIsForTheCallOnly : Prop :=
  ∀ (s : State) (k : Nat),
    let other := s.setSlot k
      { s.slot k with iv := readBlock s.mem s.arg3, ks := Block.zero, cur := 0 }
    (CryptOk s k true true → ∃ t u, exec (.encrypt k true) s = .next t ∧
      exec (.encrypt k false) other = .next u ∧
      t.mem = u.mem ∧ t.window = u.window ∧ t.slots = s.slots ∧ t.registry = s.registry) ∧
    (CryptOk s k true false → ∃ t u, exec (.decrypt k true) s = .next t ∧
      exec (.decrypt k false) other = .next u ∧
      t.mem = u.mem ∧ t.window = u.window ∧ t.slots = s.slots ∧ t.registry = s.registry)

/-- ECB: every block of the destination is the transform of the source block, and the slot is unchanged
(41_mode_layer.md R178, R179). Longer partial overlaps follow from one block and StreamingEquivalence. -/
def Obligations.EcbTransformsEachBlock : Prop :=
  ∀ (s : State) (k : Nat) (ivp : Bool), modeOf (s.slot k).desc = some .ecb →
    (PlainAliasing s ∨ s.arg2 = 16) →
    (CryptOk s k ivp true → ∃ t, exec (.encrypt k ivp) s = .next t ∧ t.slots = s.slots ∧
      ∀ j, j < s.arg2 / 16 → readBlock t.mem (s.arg1 + 16 * j) =
        aesEnc (s.slot k).rk (s.slot k).nr.val (readBlock s.mem (s.arg0 + 16 * j))) ∧
    (CryptOk s k ivp false → ∃ t, exec (.decrypt k ivp) s = .next t ∧ t.slots = s.slots ∧
      ∀ j, j < s.arg2 / 16 → readBlock t.mem (s.arg1 + 16 * j) =
        aesDec (s.slot k).rk (s.slot k).nr.val (readBlock s.mem (s.arg0 + 16 * j)))

/-- CBC: each block is chained with the ciphertext block before it, the first with the IV, and the last
ciphertext block becomes the IV (41_mode_layer.md R180, R181). -/
def Obligations.CbcChainsBlocks : Prop :=
  ∀ (s : State) (k : Nat) (ivp : Bool), modeOf (s.slot k).desc = some .cbc →
    (PlainAliasing s ∨ s.arg2 = 16) →
    (CryptOk s k ivp true → ∃ t, exec (.encrypt k ivp) s = .next t ∧
      let chain := fun j => if j = 0 then startIv s k ivp else readBlock t.mem (s.arg1 + 16 * (j - 1))
      (∀ j, j < s.arg2 / 16 → readBlock t.mem (s.arg1 + 16 * j) =
        aesEnc (s.slot k).rk (s.slot k).nr.val
          (xorBlock (readBlock s.mem (s.arg0 + 16 * j)) (chain j))) ∧
      (ivp = false → t.slot k = { s.slot k with iv := chain (s.arg2 / 16) })) ∧
    (CryptOk s k ivp false → ∃ t, exec (.decrypt k ivp) s = .next t ∧
      let chain := fun j => if j = 0 then startIv s k ivp else readBlock s.mem (s.arg0 + 16 * (j - 1))
      (∀ j, j < s.arg2 / 16 → readBlock t.mem (s.arg1 + 16 * j) =
        xorBlock (aesDec (s.slot k).rk (s.slot k).nr.val (readBlock s.mem (s.arg0 + 16 * j))) (chain j)) ∧
      (ivp = false → t.slot k = { s.slot k with iv := chain (s.arg2 / 16) }))

/-- CTR from any cursor: each byte is XORed with the next byte of the keystream, which is what the slot holds of
a begun block and then the encrypted counters; the counter, the cursor and the unconsumed keystream are left
where the next byte needs them. ENCRYPT and DECRYPT alike (41_mode_layer.md R184, R185, R187). -/
def Obligations.CtrXorsTheKeystream : Prop :=
  ∀ (s : State) (k : Nat) (ivp w : Bool) (i : Instr), i = .encrypt k ivp ∨ i = .decrypt k ivp →
    CryptOk s k ivp w → modeOf (s.slot k).desc = some .ctr → PlainAliasing s →
    let fin := startCur s k ivp + s.arg2
    ∃ t, exec i s = .next t ∧
      (∀ j, j < s.arg2 → memRead t.mem (s.arg1 + j) =
        memRead s.mem (s.arg0 + j) ^^^ ctrKeyByte s k ivp (startCur s k ivp + j)) ∧
      (ivp = false →
        (t.slot k).iv =
          Nat.iterate inc128 ((fin + 15) / 16 - bit (startCur s k ivp != 0)) (startIv s k ivp) ∧
        (t.slot k).cur.val = fin % 16 ∧
        (fin % 16 ≠ 0 → ∀ p, fin % 16 ≤ p → p < 16 →
          blockByte (t.slot k).ks p = ctrKeyByte s k ivp (16 * (fin / 16) + p)))

/-- CFB from any cursor: each byte is XORed with the next byte of the keystream, which is what the slot holds of
a begun block and then the encryption of the ciphertext block before; the ciphertext is the output of ENCRYPT
and the input of DECRYPT, and the last whole ciphertext block becomes the IV (41_mode_layer.md R190, R191). -/
def Obligations.CfbFeedsBackTheCiphertext : Prop :=
  ∀ (s : State) (k : Nat) (ivp w : Bool), CryptOk s k ivp w → modeOf (s.slot k).desc = some .cfb →
    PlainAliasing s →
    (∃ t, exec (.encrypt k ivp) s = .next t ∧
      CfbFrom s t k ivp (fun j => memRead t.mem (s.arg1 + j))) ∧
    (∃ t, exec (.decrypt k ivp) s = .next t ∧
      CfbFrom s t k ivp (fun j => memRead s.mem (s.arg0 + j)))

/-- `inc128` adds 1 to the big-endian counter modulo 2^128 (41_mode_layer.md R186). -/
def Obligations.CounterIncrementsBigEndian : Prop :=
  ∀ b : Block, be (blockBytes (inc128 b)) = (be (blockBytes b) + 1) % 2 ^ 128

/-- DECRYPT on a CTR slot performs exactly the steps of ENCRYPT (41_mode_layer.md R187). -/
def Obligations.CtrDecryptIsEncrypt : Prop :=
  ∀ (s : State) (k : Nat) (ivp : Bool), modeOf (s.slot k).desc = some .ctr →
    exec (.decrypt k ivp) s = exec (.encrypt k ivp) s

/-- Streaming equivalence: one command over a byte string leaves the same `MEM` and the same slots as commands
over its pieces in order, whatever the cursor at the start and however source and destination lie, for CTR
and CFB with pieces of any lengths (41_mode_layer.md R195), and for ECB and CBC with pieces of whole blocks
(the unit order of R175). -/
def Obligations.StreamingEquivalence : Prop :=
  ∀ (s : State) (k src dst : Nat) (ns : List Nat), s.params.Legal →
    ns.sum < 2 ^ 32 → src < 2 ^ 32 → dst < 2 ^ 32 →
    (BlockMode (s.slot k) → ∀ n ∈ ns, n % 16 = 0) →
    (CryptOk (withArgs s src dst ns.sum 0) k false true →
      ∃ t u, exec (.encrypt k false) (withArgs s src dst ns.sum 0) = .next t ∧
        runPieces (.encrypt k false) s src dst ns = .next u ∧ u.mem = t.mem ∧ u.slots = t.slots) ∧
    (CryptOk (withArgs s src dst ns.sum 0) k false false →
      ∃ t u, exec (.decrypt k false) (withArgs s src dst ns.sum 0) = .next t ∧
        runPieces (.decrypt k false) s src dst ns = .next u ∧ u.mem = t.mem ∧ u.slots = t.slots)

/-- Round trip, in every mode and for every key and IV: ENCRYPT on a slot keyed with `DIR = 1` and then DECRYPT
of its output on another slot of the same descriptor, key and IV gives the plaintext (41_mode_layer.md R197). -/
def Obligations.DecryptRestoresThePlaintext : Prop :=
  ∀ (s : State) (a b src dst out n : Nat) (key : List Byte), a ≠ b → (s.slot b).desc = (s.slot a).desc →
    8 * key.length = (s.slot a).desc.keyBits.toNat → KeyBitsLegal (s.slot a).desc.keyBits.toNat →
    (modeOf (s.slot a).desc).isSome = true →
    Live s a → Live s b → (s.slot a).keyed = true → (s.slot b).keyed = true →
    (s.slot a).nr.val = keyNr key → (s.slot b).nr.val = keyNr key →
    (s.slot a).sched = false → (s.slot a).rk = padWords (encryptSchedule key) →
    (s.slot b).sched = decide (BlockMode (s.slot b)) →
    (s.slot b).rk = padWords (if BlockMode (s.slot b) then decryptSchedule key else encryptSchedule key) →
    (s.slot a).cur = 0 → (s.slot b).cur = 0 → (s.slot b).iv = (s.slot a).iv →
    n < 2 ^ 32 → src < 2 ^ 32 → dst < 2 ^ 32 → out < 2 ^ 32 → (BlockMode (s.slot a) → n % 16 = 0) →
    RangeOk s src n → RangeOk s dst n → RangeOk s out n →
    PlainAliasing (withArgs s src dst n 0) → PlainAliasing (withArgs s dst out n 0) →
    ∃ t u, exec (.encrypt a false) (withArgs s src dst n 0) = .next t ∧
      exec (.decrypt b false) (withArgs t dst out n 0) = .next u ∧
      t.window.status.errcode = .ok ∧ u.window.status.errcode = .ok ∧
      readBytes u.mem out n = readBytes s.mem src n

/-! ### The block primitive -/

/-- `inv` is the multiplicative inverse, and the S-box, which is the printed table, is the affine map of it
(40_block_primitive.md R123, R124). -/
def Obligations.SboxFollowsTheField : Prop :=
  ginv 0 = 0 ∧ (∀ x b : Byte, x ≠ 0 → (gmul x b = 1 ↔ b = ginv x)) ∧
  ∀ x : Byte, sbox x = ginv x ^^^ (ginv x).rotateLeft 1 ^^^ (ginv x).rotateLeft 2 ^^^
    (ginv x).rotateLeft 3 ^^^ (ginv x).rotateLeft 4 ^^^ 0x63

/-- The inverse transforms undo the forward ones: the inverse S-box is the inverse permutation of the S-box (the
model follows the sentence of 40_block_primitive.md R125 and not the table under it: log entry 5), and
`InvShiftRows` and `InvMixColumns` undo `ShiftRows` and `MixColumns` (R130 to R133). -/
def Obligations.InverseTransformsInvert : Prop :=
  (∀ x : Byte, invSbox (sbox x) = x ∧ sbox (invSbox x) = x) ∧
  ∀ s : Block, invSubBytes (subBytes s) = s ∧ invShiftRows (shiftRows s) = s ∧
    invMixColumns (mixColumns s) = s ∧ mixColumns (invMixColumns s) = s

/-- The key schedules: the expansion's recurrence, and the decryption-oriented schedule with its groups
reversed and the middle ones through `IMCw` (40_block_primitive.md R136, R140, R142). -/
def Obligations.KeySchedulesFollowTheRecurrence : Prop :=
  ∀ (key : List Byte) (nk : Nat), nk = 4 ∨ nk = 6 ∨ nk = 8 → key.length = 4 * nk →
    let w := encryptSchedule key
    let dk := decryptSchedule key
    keyNr key = nk + 6 ∧ w.length = 4 * (nk + 7) ∧ dk.length = 4 * (nk + 7) ∧
    (∀ i, i < nk → keyWord w i = wordOfCol ⟨key.getD (4 * i) 0, key.getD (4 * i + 1) 0,
      key.getD (4 * i + 2) 0, key.getD (4 * i + 3) 0⟩) ∧
    (∀ i, nk ≤ i → i < 4 * (nk + 7) → keyWord w i = keyWord w (i - nk) ^^^
      (if i % nk = 0 then subWord (rotWord (keyWord w (i - 1))) ^^^ rconWord (i / nk)
       else if nk = 8 ∧ i % 8 = 4 then subWord (keyWord w (i - 1))
       else keyWord w (i - 1))) ∧
    (∀ j c, j ≤ nk + 6 → c < 4 → keyWord dk (4 * j + c) =
      if j = 0 ∨ j = nk + 6 then keyWord w (4 * (nk + 6 - j) + c)
      else imcWord (keyWord w (4 * (nk + 6 - j) + c)))

/-- The table-driven transforms equal the unfused ones, for every schedule, number of rounds and block
(40_block_primitive.md R151 to R153, R155). -/
def Obligations.TableDrivenFormsAgree : Prop :=
  ∀ (k : List Word) (nr : Nat) (b : Block),
    aesEncByTables k nr b = aesEnc k nr b ∧ aesDecByTables k nr b = aesDec k nr b

/-- `AES_Dec` with the decryption-oriented schedule inverts `AES_Enc` with the encryption-oriented one, for
every supported key and every block (40_block_primitive.md R156). -/
def Obligations.AesDecInvertsAesEnc : Prop :=
  ∀ (key : List Byte) (b : Block), key.length = 16 ∨ key.length = 24 ∨ key.length = 32 →
    aesDec (decryptSchedule key) (keyNr key) (aesEnc (encryptSchedule key) (keyNr key) b) = b

/-! ### Isolation -/

/-- A command on one slot neither reads nor writes another: whatever another slot holds, the command does the
same and leaves it as it was. The other commands read nothing of a slot but its `ALLOC` bit
(10_state.md R48). -/
def Obligations.SlotsDoNotInterfere : Prop :=
  (∀ (i : Instr) (k j : Nat) (s : State) (x : Slot), i.slot? = some k → j ≠ k → j < s.slots.length →
    ∃ t, exec i s = .next t ∧ exec i (s.setSlot j x) = .next (t.setSlot j x) ∧ t.slot j = s.slot j) ∧
  (∀ (i : Instr) (j : Nat) (s : State) (x : Slot), i.slot? = none → x.alloc = (s.slot j).alloc →
    j < s.slots.length →
    ∃ t u, exec i s = .next t ∧ exec i (s.setSlot j x) = .next u ∧ u.window = t.window ∧
      u.mem = t.mem ∧ u.registry = t.registry ∧ OtherSlotsSame t u j)

/-- Only ENCRYPT and DECRYPT let anything of `RK` or `KS` out: with other schedule words and keystream in a
slot, every other command gives the same window, the same `MEM` and the same registry
(43_instance.md R249). -/
def Obligations.KeyMaterialStaysInside : Prop :=
  ∀ (i : Instr) (j : Nat) (s : State) (rk : List Word) (ks : Block),
    (∀ k ivp, i ≠ .encrypt k ivp ∧ i ≠ .decrypt k ivp) →
    ∃ t t', exec i s = .next t ∧
      exec i (s.setSlot j { s.slot j with rk := rk, ks := ks }) = .next t' ∧
      t'.window = t.window ∧ t'.mem = t.mem ∧ t'.registry = t.registry

/-- A command reads the latched operands, never the live registers, and no flag and no result: with any other
window it has the same effect on the registry, the slots and `MEM`, the same code and the same result
(10_state.md R23, R32, R50). -/
def Obligations.CommandsReadOnlyTheLatch : Prop :=
  ∀ (i : Instr) (s : State) (w : Window), ∃ t t', exec i s = .next t ∧ exec i (withWindow s w) = .next t' ∧
    t'.registry = t.registry ∧ t'.slots = t.slots ∧ t'.mem = t.mem ∧
    t'.window.status.errcode = t.window.status.errcode ∧ t'.window.result = t.window.result ∧
    t'.window.arg0 = w.arg0 ∧ t'.window.arg1 = w.arg1 ∧ t'.window.arg2 = w.arg2 ∧
    t'.window.arg3 = w.arg3

/-- A command accesses `MEM` only within the ranges its operands name, which are spelled out here: no other byte
is written, and no other byte is read, so that in a `MEM` that agrees on the ranges the command does the same and
leaves the same bytes in them and the others as they were (20_memory.md R63; log entry 6). -/
def Obligations.CommandsStayInTheirRanges : Prop :=
  (∀ (i : Instr) (s : State), Inv s →
    (∀ t a, exec i s = .next t → memRead t.mem a ≠ memRead s.mem a →
      ∃ r ∈ commandRanges i s, r.1 ≤ a ∧ a < r.1 + r.2) ∧
    (∀ m : Memory, (∀ r ∈ commandRanges i s, ∀ a, r.1 ≤ a → a < r.1 + r.2 →
        memRead m a = memRead s.mem a) →
      ∃ t t', exec i s = .next t ∧ exec i { s with mem := m } = .next t' ∧
        t'.window = t.window ∧ t'.registry = t.registry ∧ t'.slots = t.slots ∧
        (∀ r ∈ commandRanges i s, ∀ a, r.1 ≤ a → a < r.1 + r.2 →
          memRead t'.mem a = memRead t.mem a) ∧
        ∀ a, (∀ r ∈ commandRanges i s, a < r.1 ∨ r.1 + r.2 ≤ a) → memRead t'.mem a = memRead m a)) ∧
  ∀ (s : State) (k m : Nat) (dir : Bool),
    commandRanges .register s = [(s.arg0, 64)] ∧
    (∀ i ∈ [Instr.unregister, .alloc, .allocParts m], commandRanges i s = [(s.arg0, s.arg1)]) ∧
    commandRanges .resolve s = [(s.arg0, s.arg1), (s.arg2, 64)] ∧
    commandRanges (.setKey k dir) s = [(s.arg0, s.arg1 / 8)] ∧
    (∀ i ∈ [Instr.setIv k true, .pokeIv k, .getIv k], commandRanges i s = [(s.arg0, 16)]) ∧
    (∀ i ∈ [Instr.encrypt k false, .decrypt k false],
      commandRanges i s = [(s.arg0, s.arg2), (s.arg1, s.arg2)]) ∧
    (∀ i ∈ [Instr.encrypt k true, .decrypt k true],
      commandRanges i s = [(s.arg0, s.arg2), (s.arg1, s.arg2), (s.arg3, 16)]) ∧
    commandRanges (.getName k) s = [(s.arg0, (s.slot k).desc.name.length)] ∧
    commandRanges (.getAlgName k) s = [(s.arg0, (s.slot k).desc.algName.length)] ∧
    ∀ i ∈ [Instr.unregisterAll, .free k, .setIv k false, .getBlockLen k, .getIvLen k, .getKeyLen k,
      .getMode k, .getState k], commandRanges i s = []

/-! ### The whole machine -/

/-- The state machine of a slot: only ALLOC and ALLOC_PARTS take it from Free, to Unkeyed; only SETKEY makes
it Keyed; only FREE makes it Free; only SETKEY and FREE write its schedule; and nothing changes its
descriptor while it is allocated (10_state.md R42, R44, R49). -/
def Obligations.SlotsFollowTheirStateMachine : Prop :=
  ∀ (i : Instr) (s t : State) (j : Nat), Inv s → exec i s = .next t →
    ((s.slot j).alloc = false → (t.slot j).alloc = true →
      (i = .alloc ∨ ∃ m, i = .allocParts m) ∧ (t.slot j).keyed = false) ∧
    ((s.slot j).alloc = true → (t.slot j).alloc = false → i = .free j) ∧
    ((s.slot j).keyed = false → (t.slot j).keyed = true → ∃ dir, i = .setKey j dir) ∧
    ((s.slot j).keyed = true → (t.slot j).keyed = false → i = .free j) ∧
    ((t.slot j).rk ≠ (s.slot j).rk ∨ (t.slot j).nr ≠ (s.slot j).nr ∨
        (t.slot j).sched ≠ (s.slot j).sched → i = .free j ∨ ∃ dir, i = .setKey j dir) ∧
    ((s.slot j).alloc = true → (t.slot j).alloc = true → (t.slot j).desc = (s.slot j).desc)

/-- Every step, of the engine or of the host, keeps the invariant and the parameters (10_state.md R22 to R25,
R32, R33, R36, R40 to R47, R49, 43_instance.md R237, 20_memory.md R61). -/
def Obligations.StepKeepsInvariant : Prop :=
  ∀ s t : State, Inv s → step s = .next t → Inv t ∧ t.params = s.params

/-- The state after power-up, for every legal choice of the parameters: the invariant, every register and slot
zero, and the 12 built-in descriptors in order (70_reset_and_hazards.md R300, 10_state.md R35, R55). -/
def Obligations.ResetStateIsAsGiven : Prop :=
  ∀ p : Params, p.Legal →
    Inv (State.resetWith p) ∧
    (State.resetWith p).window = ⟨0, 0, 0, 0, 0, ⟨false, false, false, false, .ok⟩, 0⟩ ∧
    (State.resetWith p).latch = ⟨0, 0, 0, 0, 0⟩ ∧
    (State.resetWith p).slots = List.replicate p.nslots Slot.zero ∧
    (State.resetWith p).registry.map (fun d => (d.keyBits.toNat, d.mode.toNat)) =
      [(256, 2), (192, 2), (128, 2), (256, 3), (192, 3), (128, 3), (256, 4), (192, 4), (128, 4),
       (256, 1), (192, 1), (128, 1)] ∧
    (∀ d ∈ (State.resetWith p).registry, d.algName = [0x61, 0x65, 0x73] ∧ d.impl = 1 ∧ d.blockLen = 16 ∧
      ∃ m, modeOf d = some m ∧
        d.name = [0x61, 0x65, 0x73, 0x2d] ++ decimal d.keyBits.toNat ++ [0x2d] ++ modeName m) ∧
    State.reset = State.resetWith Params.default
end

