-- ==== Sys2Proof/Laws/Cipher.lean ====
section
/-! SUPPORT. The algebra of the block primitive: multiplication by a constant is linear, and words and
columns are the same thing. -/

namespace Sys2Proof.Machine

/-- A fact about every byte, checked number by number. -/
theorem byte_all {P : Byte → Prop} (h : ∀ n < 256, P (BitVec.ofNat 8 n)) : ∀ x, P x := by
  intro x
  have := h x.toNat x.isLt
  simpa using this

theorem gmulLoop_xor (k : Nat) (a b b' r r' : Byte) :
    gmulLoop k a (b ^^^ b') (r ^^^ r') = gmulLoop k a b r ^^^ gmulLoop k a b' r' := by
  induction k generalizing a b b' r r' with
  | zero => rfl
  | succ k ih =>
    simp only [gmulLoop]
    rw [← ih, show (b ^^^ b') >>> 1 = b >>> 1 ^^^ b' >>> 1 by ext i hi; simp]
    congr 1
    rw [BitVec.getLsbD_xor]
    cases b.getLsbD 0 <;> cases b'.getLsbD 0
    · simp
    · simp only [Bool.false_xor, if_true, Bool.false_eq_true, if_false]
      ac_rfl
    · simp only [Bool.xor_false, if_true, Bool.false_eq_true, if_false]
      ac_rfl
    · simp only [Bool.xor_self, if_true, Bool.false_eq_true, if_false]
      rw [show r ^^^ a ^^^ (r' ^^^ a) = r ^^^ r' ^^^ (a ^^^ a) by ac_rfl]
      simp

/-- Multiplication by a constant is linear (40_block_primitive.md R121). -/
theorem gmul_xor (c x y : Byte) : gmul c (x ^^^ y) = gmul c x ^^^ gmul c y := by
  unfold gmul
  rw [← gmulLoop_xor]
  simp

theorem mixCol_xor (a b : Col) : mixCol (xorCol a b) = xorCol (mixCol a) (mixCol b) := by
  simp only [mixCol, xorCol, quadZip, gmul_xor, Quad.mk.injEq]
  refine ⟨?_, ?_, ?_, ?_⟩ <;> ac_rfl

theorem invMixCol_xor (a b : Col) : invMixCol (xorCol a b) = xorCol (invMixCol a) (invMixCol b) := by
  simp only [invMixCol, xorCol, quadZip, gmul_xor, Quad.mk.injEq]
  refine ⟨?_, ?_, ?_, ?_⟩ <;> ac_rfl

theorem colOfWord_xor (a b : Word) : colOfWord (a ^^^ b) = xorCol (colOfWord a) (colOfWord b) := by
  simp only [colOfWord, xorCol, quadZip, Quad.mk.injEq]
  refine ⟨?_, ?_, ?_, ?_⟩ <;> ext i hi <;> simp

/-- A column read back from its word. -/
@[simp] theorem colOfWord_wordOfCol (c : Col) : colOfWord (wordOfCol c) = c := by
  obtain ⟨a, b, c, d⟩ := c
  simp only [colOfWord, wordOfCol, Quad.mk.injEq]
  refine ⟨?_, ?_, ?_, ?_⟩ <;>
  · apply BitVec.eq_of_getLsbD_eq
    intro i hi
    simp only [BitVec.getLsbD_extractLsb', BitVec.getLsbD_append, hi, decide_true, Bool.true_and]
    grind

end Sys2Proof.Machine
end

