-- ==== Sys2Proof/Laws/Memory.lean ====
section
/-! SUPPORT. The laws of `MEM`: a read after a write, and that every operation keeps the canonical
form. -/

namespace Sys2Proof.Machine

/-! ### One byte -/

theorem lookupCell_insertCell (c : List Host.Cell) (x y : Nat) (v : Byte) :
    lookupCell (insertCell c x v) y = if x = y then some v else lookupCell c y := by
  induction c with
  | nil => simp [insertCell, lookupCell]
  | cons p rest ih =>
    obtain ⟨a, b⟩ := p
    unfold insertCell
    split
    · simp [lookupCell]
    · split
      · rename_i h1 h2
        subst h2
        simp only [lookupCell]
        split <;> rfl
      · rename_i h1 h2
        simp only [lookupCell, ih]
        by_cases hay : a = y
        · simp [hay, show x ≠ y by omega]
        · simp [hay]

@[simp] theorem memWrite_draw (m : Memory) (a : Nat) (v : Byte) : (memWrite m a v).draw = m.draw := rfl

theorem memRead_memWrite (m : Memory) (x y : Nat) (v : Byte) :
    memRead (memWrite m x v) y = if x = y then v else memRead m y := by
  simp only [memRead, memWrite, lookupCell_insertCell]
  split <;> simp

@[simp] theorem memRead_memWrite_self (m : Memory) (x : Nat) (v : Byte) :
    memRead (memWrite m x v) x = v := by simp [memRead_memWrite]

theorem memRead_memWrite_ne (m : Memory) {x y : Nat} (v : Byte) (h : x ≠ y) :
    memRead (memWrite m x v) y = memRead m y := by simp [memRead_memWrite, h]

/-- The addresses listed after a write are those listed before and the one written. -/
theorem mem_insertCell {c : List Host.Cell} {x : Nat} {v : Byte} {p : Host.Cell}
    (h : p ∈ insertCell c x v) : p.1 = x ∨ p ∈ c := by
  induction c with
  | nil => simp [insertCell] at h; simp [h]
  | cons q rest ih =>
    obtain ⟨a, b⟩ := q
    unfold insertCell at h
    split at h
    · rcases List.mem_cons.mp h with rfl | h
      · exact .inl rfl
      · exact .inr h
    · split at h
      · rcases List.mem_cons.mp h with rfl | h
        · exact .inl rfl
        · exact .inr (List.mem_cons_of_mem _ h)
      · rcases List.mem_cons.mp h with rfl | h
        · exact .inr (by simp)
        · exact (ih h).imp_right (List.mem_cons_of_mem _)

theorem insertCell_pairwise {c : List Host.Cell} (x : Nat) (v : Byte)
    (h : c.Pairwise (fun p q => p.1 < q.1)) :
    (insertCell c x v).Pairwise (fun p q => p.1 < q.1) := by
  induction c with
  | nil => simp [insertCell]
  | cons q rest ih =>
    obtain ⟨a, b⟩ := q
    have hq := List.pairwise_cons.mp h
    unfold insertCell
    split
    · rename_i hx
      refine List.pairwise_cons.mpr ⟨fun p hp => ?_, h⟩
      rcases List.mem_cons.mp hp with rfl | hp
      · exact hx
      · exact Nat.lt_trans hx (hq.1 p hp)
    · split
      · rename_i h1 h2
        subst h2
        exact List.pairwise_cons.mpr ⟨fun p hp => hq.1 p hp, hq.2⟩
      · rename_i h1 h2
        refine List.pairwise_cons.mpr ⟨fun p hp => ?_, ih hq.2⟩
        rcases mem_insertCell hp with hp | hp
        · show a < p.1
          omega
        · exact hq.1 p hp

/-- A byte write keeps the canonical form. -/
theorem memWrite_wf {m : Memory} (a : Nat) (v : Byte) (h : m.wf) : (memWrite m a v).wf :=
  insertCell_pairwise a v h

/-- Every listed address is below a bound. -/
def Memory.Inside (m : Memory) (n : Nat) : Prop := ∀ c ∈ m.cells, c.1 < n

theorem memWrite_inside {m : Memory} {n a : Nat} (v : Byte) (h : m.Inside n) (ha : a < n) :
    (memWrite m a v).Inside n := by
  intro c hc
  rcases mem_insertCell hc with hc | hc
  · omega
  · exact h c hc

/-! ### Byte strings -/

@[simp] theorem readBytes_length (m : Memory) (a n : Nat) : (readBytes m a n).length = n := by
  induction n generalizing a with
  | zero => rfl
  | succ n ih => simp [readBytes, ih]

theorem readBytes_getD (m : Memory) (a : Nat) {n i : Nat} (h : i < n) (d : Byte) :
    (readBytes m a n).getD i d = memRead m (a + i) := by
  induction n generalizing a i with
  | zero => omega
  | succ n ih =>
    cases i with
    | zero => simp [readBytes]
    | succ i =>
      simp only [readBytes, List.getD_cons_succ]
      rw [ih (a + 1) (by omega)]
      congr 1; omega

theorem readBytes_append (m : Memory) (a n k : Nat) :
    readBytes m a (n + k) = readBytes m a n ++ readBytes m (a + n) k := by
  induction n generalizing a with
  | zero => simp [readBytes]
  | succ n ih =>
    rw [show n + 1 + k = (n + k) + 1 by omega]
    simp only [readBytes, ih, List.cons_append]
    rw [show a + 1 + n = a + (n + 1) by omega]

/-- Two memories that agree on a range give the same byte string. -/
theorem readBytes_congr {m m' : Memory} {a n : Nat}
    (h : ∀ i, i < n → memRead m (a + i) = memRead m' (a + i)) :
    readBytes m a n = readBytes m' a n := by
  induction n generalizing a with
  | zero => rfl
  | succ n ih =>
    simp only [readBytes]
    rw [show memRead m a = memRead m' a from h 0 (by omega)]
    rw [ih (fun i hi => by have := h (i + 1) (by omega); rwa [show a + (i + 1) = a + 1 + i by omega] at this)]

@[simp] theorem writeBytes_draw (m : Memory) (a : Nat) (bs : List Byte) :
    (writeBytes m a bs).draw = m.draw := by
  induction bs generalizing m a with
  | nil => rfl
  | cons b bs ih => simp [writeBytes, ih]

/-- What a byte reads as after a string is written. -/
theorem memRead_writeBytes (m : Memory) (a : Nat) (bs : List Byte) (x : Nat) :
    memRead (writeBytes m a bs) x =
      if a ≤ x ∧ x < a + bs.length then bs.getD (x - a) 0 else memRead m x := by
  induction bs generalizing m a with
  | nil => simp [writeBytes, show ¬(a ≤ x ∧ x < a) by omega]
  | cons b bs ih =>
    simp only [writeBytes, ih, memRead_memWrite, List.length_cons]
    by_cases h1 : a + 1 ≤ x ∧ x < a + 1 + bs.length
    · rw [if_pos h1, if_pos (by omega), show x - a = (x - (a + 1)) + 1 by omega, List.getD_cons_succ]
    · rw [if_neg h1]
      by_cases h2 : a = x
      · rw [if_pos h2, if_pos (by omega)]; simp [h2]
      · rw [if_neg h2, if_neg (by omega)]

theorem memRead_writeBytes_outside (m : Memory) {a : Nat} {bs : List Byte} {x : Nat}
    (h : x < a ∨ a + bs.length ≤ x) : memRead (writeBytes m a bs) x = memRead m x := by
  rw [memRead_writeBytes, if_neg (by omega)]

/-- A string reads back as it was written. -/
@[simp] theorem readBytes_writeBytes (m : Memory) (a : Nat) (bs : List Byte) :
    readBytes (writeBytes m a bs) a bs.length = bs := by
  apply List.ext_getElem (by simp)
  intro i h1 h2
  have := readBytes_getD (writeBytes m a bs) a h2 0
  rw [List.getD_eq_getElem _ _ h1, memRead_writeBytes, if_pos (by omega)] at this
  rw [this, show a + i - a = i by omega, List.getD_eq_getElem _ _ h2]

/-- A string write keeps the canonical form. -/
theorem writeBytes_wf {m : Memory} (a : Nat) (bs : List Byte) (h : m.wf) : (writeBytes m a bs).wf := by
  induction bs generalizing m a with
  | nil => exact h
  | cons b bs ih => exact ih _ (memWrite_wf a b h)

theorem writeBytes_inside {m : Memory} {n a : Nat} {bs : List Byte} (h : m.Inside n)
    (ha : bs = [] ∨ a + bs.length ≤ n) : (writeBytes m a bs).Inside n := by
  induction bs generalizing m a with
  | nil => exact h
  | cons b bs ih =>
    have ha' : a + (bs.length + 1) ≤ n := by simpa using ha
    exact ih (memWrite_inside b h (by omega)) (.inr (by omega))

/-! ### Blocks -/

@[simp] theorem blockBytes_length (b : Block) : (blockBytes b).length = 16 := rfl

theorem writeBlock_wf {m : Memory} (a : Nat) (b : Block) (h : m.wf) : (writeBlock m a b).wf :=
  writeBytes_wf a _ h

theorem writeBlock_inside {m : Memory} {n a : Nat} {b : Block} (h : m.Inside n) (ha : a + 16 ≤ n) :
    (writeBlock m a b).Inside n := writeBytes_inside h (.inr (by simpa using ha))

theorem memRead_writeBlock_outside (m : Memory) {a : Nat} {b : Block} {x : Nat}
    (h : x < a ∨ a + 16 ≤ x) : memRead (writeBlock m a b) x = memRead m x :=
  memRead_writeBytes_outside m (by simpa using h)

@[simp] theorem blockOfBytes_blockBytes (b : Block) : blockOfBytes (blockBytes b) = b := rfl

theorem blockBytes_blockOfBytes {l : List Byte} (h : l.length = 16) :
    blockBytes (blockOfBytes l) = l := by
  obtain ⟨x0, x1, x2, x3, x4, x5, x6, x7, x8, x9, x10, x11, x12, x13, x14, x15, rfl⟩ :
      ∃ x0 x1 x2 x3 x4 x5 x6 x7 x8 x9 x10 x11 x12 x13 x14 x15,
        l = [x0, x1, x2, x3, x4, x5, x6, x7, x8, x9, x10, x11, x12, x13, x14, x15] := by
    match l, h with
    | [x0, x1, x2, x3, x4, x5, x6, x7, x8, x9, x10, x11, x12, x13, x14, x15], _ =>
      exact ⟨x0, x1, x2, x3, x4, x5, x6, x7, x8, x9, x10, x11, x12, x13, x14, x15, rfl⟩
  rfl

/-- A block reads back as it was written. -/
@[simp] theorem readBlock_writeBlock (m : Memory) (a : Nat) (b : Block) :
    readBlock (writeBlock m a b) a = b := by
  have := readBytes_writeBytes m a (blockBytes b)
  simp only [blockBytes_length] at this
  simp [readBlock, writeBlock, this]

/-- Two memories that agree on 16 bytes give the same block. -/
theorem readBlock_congr {m m' : Memory} {a : Nat}
    (h : ∀ i, i < 16 → memRead m (a + i) = memRead m' (a + i)) : readBlock m a = readBlock m' a := by
  rw [readBlock, readBlock, readBytes_congr h]

/-- A block elsewhere reads as before. -/
theorem readBlock_writeBlock_ne (m : Memory) {a x : Nat} (b : Block) (h : x + 16 ≤ a ∨ a + 16 ≤ x) :
    readBlock (writeBlock m a b) x = readBlock m x :=
  readBlock_congr fun i hi => memRead_writeBlock_outside (x := x + i) m (by omega)

/-- Byte `i` of a block read from `MEM`. -/
theorem blockByte_readBlock (m : Memory) (a : Nat) {i : Nat} (h : i < 16) :
    blockByte (readBlock m a) i = memRead m (a + i) := by
  rw [blockByte, readBlock, blockBytes_blockOfBytes (by simp), readBytes_getD m a h]

theorem memRead_writeBlock (m : Memory) (a : Nat) (b : Block) {i : Nat} (h : i < 16) :
    memRead (writeBlock m a b) (a + i) = blockByte b i := by
  rw [writeBlock, memRead_writeBytes, if_pos (by simp; omega), Nat.add_sub_cancel_left, blockByte]

/-! ### The bytes of a block -/

/-- A block is its 16 bytes. -/
theorem block_ext {a b : Block} (h : ∀ i, i < 16 → blockByte a i = blockByte b i) : a = b := by
  rw [← blockOfBytes_blockBytes a, ← blockOfBytes_blockBytes b]
  congr 1
  apply List.ext_getElem (by simp)
  intro i h1 h2
  have := h i (by simpa using h1)
  rwa [blockByte, blockByte, List.getD_eq_getElem _ _ h1, List.getD_eq_getElem _ _ h2] at this

theorem blockByte_setBlockByte (b : Block) {i k : Nat} (x : Byte) (hi : i < 16) :
    blockByte (setBlockByte b i x) k = if i = k then x else blockByte b k := by
  rw [blockByte, setBlockByte, blockBytes_blockOfBytes (by simp)]
  simp only [List.getD_eq_getElem?_getD, List.getElem?_set, blockBytes_length, hi, if_true, blockByte]
  split <;> simp

end Sys2Proof.Machine
end

