-- ==== Sys2Proof/Laws/State.lean ====
section
/-! SUPPORT. One lemma per field and update: acceptance, completion, slot writes, resets and the host's
own fields. -/

namespace Sys2Proof.Machine

/-! ### `complete` and `raiseError` -/

section complete
variable (s : State) (e : ErrCode) (v : Word)

@[simp] theorem complete_params : (s.complete e v).params = s.params := rfl
@[simp] theorem complete_latch : (s.complete e v).latch = s.latch := rfl
@[simp] theorem complete_registry : (s.complete e v).registry = s.registry := rfl
@[simp] theorem complete_slots : (s.complete e v).slots = s.slots := rfl
@[simp] theorem complete_mem : (s.complete e v).mem = s.mem := rfl
@[simp] theorem complete_delay : (s.complete e v).delay = 0 := rfl
@[simp] theorem complete_accepted : (s.complete e v).accepted = s.accepted := rfl
@[simp] theorem complete_host : (s.complete e v).host = s.host := rfl
@[simp] theorem complete_cmd : (s.complete e v).window.cmd = s.window.cmd := rfl
@[simp] theorem complete_winArg0 : (s.complete e v).window.arg0 = s.window.arg0 := rfl
@[simp] theorem complete_winArg1 : (s.complete e v).window.arg1 = s.window.arg1 := rfl
@[simp] theorem complete_winArg2 : (s.complete e v).window.arg2 = s.window.arg2 := rfl
@[simp] theorem complete_winArg3 : (s.complete e v).window.arg3 = s.window.arg3 := rfl
@[simp] theorem complete_status :
    (s.complete e v).window.status = statusAtCompletion e s.window.status := rfl
@[simp] theorem complete_result :
    (s.complete e v).window.result = if e = .ok then v else 0 := rfl
@[simp] theorem complete_slot (k : Nat) : (s.complete e v).slot k = s.slot k := rfl
@[simp] theorem complete_firstFree : (s.complete e v).firstFree = s.firstFree := rfl
@[simp] theorem complete_entry (i : Nat) : (s.complete e v).entry i = s.entry i := rfl
@[simp] theorem complete_arg0 : (s.complete e v).arg0 = s.arg0 := rfl
@[simp] theorem complete_arg1 : (s.complete e v).arg1 = s.arg1 := rfl
@[simp] theorem complete_arg2 : (s.complete e v).arg2 = s.arg2 := rfl
@[simp] theorem complete_arg3 : (s.complete e v).arg3 = s.arg3 := rfl

theorem raiseError_eq : s.raiseError e = s.complete e 0 := rfl

@[simp] theorem complete_complete (e' : ErrCode) (v' : Word) :
    (s.complete e v).complete e' v' = s.complete e' v' := rfl

end complete

/-! ### The flags -/

section status
variable (e : ErrCode) (st : Status)

@[simp] theorem statusAtCompletion_busy : (statusAtCompletion e st).busy = false := rfl
@[simp] theorem statusAtCompletion_done : (statusAtCompletion e st).done = true := rfl
@[simp] theorem statusAtCompletion_err : (statusAtCompletion e st).err = decide (e ≠ .ok) := rfl
@[simp] theorem statusAtCompletion_ovr : (statusAtCompletion e st).ovr = st.ovr := rfl
@[simp] theorem statusAtCompletion_errcode : (statusAtCompletion e st).errcode = e := rfl
@[simp] theorem statusAtAcceptance_busy : (statusAtAcceptance st).busy = true := rfl
@[simp] theorem statusAtAcceptance_done : (statusAtAcceptance st).done = false := rfl
@[simp] theorem statusAtAcceptance_err : (statusAtAcceptance st).err = false := rfl
@[simp] theorem statusAtAcceptance_ovr : (statusAtAcceptance st).ovr = st.ovr := rfl
@[simp] theorem statusAtAcceptance_errcode : (statusAtAcceptance st).errcode = .ok := rfl
@[simp] theorem statusAtOverrun_busy : (statusAtOverrun st).busy = st.busy := rfl
@[simp] theorem statusAtOverrun_done : (statusAtOverrun st).done = st.done := rfl
@[simp] theorem statusAtOverrun_err : (statusAtOverrun st).err = st.err := rfl
@[simp] theorem statusAtOverrun_errcode : (statusAtOverrun st).errcode = st.errcode := rfl
@[simp] theorem statusAtOvrClear_busy : (statusAtOvrClear st).busy = st.busy := rfl
@[simp] theorem statusAtOvrClear_done : (statusAtOvrClear st).done = st.done := rfl
@[simp] theorem statusAtOvrClear_err : (statusAtOvrClear st).err = st.err := rfl
@[simp] theorem statusAtOvrClear_errcode : (statusAtOvrClear st).errcode = st.errcode := rfl

end status

/-! ### `setSlot` -/

section setSlot
variable (s : State) (k : Nat) (x : Slot)

@[simp] theorem setSlot_params : (s.setSlot k x).params = s.params := rfl
@[simp] theorem setSlot_window : (s.setSlot k x).window = s.window := rfl
@[simp] theorem setSlot_latch : (s.setSlot k x).latch = s.latch := rfl
@[simp] theorem setSlot_registry : (s.setSlot k x).registry = s.registry := rfl
@[simp] theorem setSlot_slots : (s.setSlot k x).slots = s.slots.set k x := rfl
@[simp] theorem setSlot_mem : (s.setSlot k x).mem = s.mem := rfl
@[simp] theorem setSlot_delay : (s.setSlot k x).delay = s.delay := rfl
@[simp] theorem setSlot_accepted : (s.setSlot k x).accepted = s.accepted := rfl
@[simp] theorem setSlot_host : (s.setSlot k x).host = s.host := rfl
@[simp] theorem setSlot_entry (i : Nat) : (s.setSlot k x).entry i = s.entry i := rfl
@[simp] theorem setSlot_arg0 : (s.setSlot k x).arg0 = s.arg0 := rfl
@[simp] theorem setSlot_arg1 : (s.setSlot k x).arg1 = s.arg1 := rfl
@[simp] theorem setSlot_arg2 : (s.setSlot k x).arg2 = s.arg2 := rfl
@[simp] theorem setSlot_arg3 : (s.setSlot k x).arg3 = s.arg3 := rfl

end setSlot

/-! ### `accept` -/

section accept
variable (s : State) (v : Word)

@[simp] theorem accept_params : (s.accept v).params = s.params := rfl
@[simp] theorem accept_latch : (s.accept v).latch =
    ⟨v, s.window.arg0, s.window.arg1, s.window.arg2, s.window.arg3⟩ := rfl
@[simp] theorem accept_registry : (s.accept v).registry = s.registry := rfl
@[simp] theorem accept_slots : (s.accept v).slots = s.slots := rfl
@[simp] theorem accept_mem : (s.accept v).mem = s.mem := rfl
@[simp] theorem accept_delay : (s.accept v).delay = s.delay := rfl
@[simp] theorem accept_accepted : (s.accept v).accepted = s.accepted := rfl
@[simp] theorem accept_host : (s.accept v).host = { s.host with doneRead := false } := rfl
@[simp] theorem accept_window : (s.accept v).window =
    ⟨v, s.window.arg0, s.window.arg1, s.window.arg2, s.window.arg3,
      statusAtAcceptance s.window.status, 0⟩ := rfl

end accept

/-! ### Resets -/

section resets
variable (s : State)

@[simp] theorem softReset_params : s.softReset.params = s.params := rfl
@[simp] theorem softReset_window : s.softReset.window = Window.zero := rfl
@[simp] theorem softReset_latch : s.softReset.latch = Latch.zero := rfl
@[simp] theorem softReset_registry : s.softReset.registry = builtins := rfl
@[simp] theorem softReset_slots :
    s.softReset.slots = List.replicate s.params.nslots Slot.zero := rfl
@[simp] theorem softReset_mem : s.softReset.mem = s.mem := rfl
@[simp] theorem softReset_delay : s.softReset.delay = 0 := rfl
@[simp] theorem softReset_host : s.softReset.host = s.host := rfl
@[simp] theorem powerUpReset_params : s.powerUpReset.params = s.params := rfl
@[simp] theorem powerUpReset_window : s.powerUpReset.window = Window.zero := rfl
@[simp] theorem powerUpReset_latch : s.powerUpReset.latch = Latch.zero := rfl
@[simp] theorem powerUpReset_registry : s.powerUpReset.registry = builtins := rfl
@[simp] theorem powerUpReset_slots :
    s.powerUpReset.slots = List.replicate s.params.nslots Slot.zero := rfl
@[simp] theorem powerUpReset_mem : s.powerUpReset.mem = ⟨s.mem.draw + 1, []⟩ := rfl
@[simp] theorem powerUpReset_delay : s.powerUpReset.delay = 0 := rfl
@[simp] theorem powerUpReset_host : s.powerUpReset.host = s.host := rfl

end resets

/-! ### `advance`, `reply` and `noteDone` -/

section host
variable (s : State) (r : HostReply) (b : Bool)

@[simp] theorem advance_params : s.advance.params = s.params := rfl
@[simp] theorem advance_window : s.advance.window = s.window := rfl
@[simp] theorem advance_latch : s.advance.latch = s.latch := rfl
@[simp] theorem advance_registry : s.advance.registry = s.registry := rfl
@[simp] theorem advance_slots : s.advance.slots = s.slots := rfl
@[simp] theorem advance_mem : s.advance.mem = s.mem := rfl
@[simp] theorem advance_delay : s.advance.delay = s.delay := rfl
@[simp] theorem reply_params : (s.reply r).params = s.params := rfl
@[simp] theorem reply_window : (s.reply r).window = s.window := rfl
@[simp] theorem reply_latch : (s.reply r).latch = s.latch := rfl
@[simp] theorem reply_registry : (s.reply r).registry = s.registry := rfl
@[simp] theorem reply_slots : (s.reply r).slots = s.slots := rfl
@[simp] theorem reply_mem : (s.reply r).mem = s.mem := rfl
@[simp] theorem reply_delay : (s.reply r).delay = s.delay := rfl
@[simp] theorem noteDone_params : (s.noteDone b).params = s.params := rfl
@[simp] theorem noteDone_window : (s.noteDone b).window = s.window := rfl
@[simp] theorem noteDone_latch : (s.noteDone b).latch = s.latch := rfl
@[simp] theorem noteDone_registry : (s.noteDone b).registry = s.registry := rfl
@[simp] theorem noteDone_slots : (s.noteDone b).slots = s.slots := rfl
@[simp] theorem noteDone_mem : (s.noteDone b).mem = s.mem := rfl
@[simp] theorem noteDone_delay : (s.noteDone b).delay = s.delay := rfl
@[simp] theorem advance_doneRead : s.advance.host.doneRead = s.host.doneRead := rfl
@[simp] theorem reply_doneRead : (s.reply r).host.doneRead = s.host.doneRead := rfl
@[simp] theorem noteDone_doneRead :
    (s.noteDone b).host.doneRead = (s.host.doneRead || (b && s.window.status.done)) := rfl

end host

/-! ### Reading a slot back -/

theorem slot_eq_getD (s : State) (k : Nat) : s.slot k = s.slots.getD k Slot.zero := rfl

/-- A slot number that names an allocated slot lies inside the slot list. -/
theorem lt_slots_of_alloc {s : State} {k : Nat} (h : (s.slot k).alloc = true) :
    k < s.slots.length := by
  by_contra hk
  rw [slot_eq_getD, List.getD_eq_default _ _ (not_lt.mp hk)] at h
  cases h

@[simp] theorem setSlot_slot_self {s : State} {k : Nat} {x : Slot} (hk : k < s.slots.length) :
    (s.setSlot k x).slot k = x := by
  simp [slot_eq_getD, List.getD, hk]

theorem setSlot_slot_ne {s : State} {k j : Nat} {x : Slot} (h : j ≠ k) :
    (s.setSlot k x).slot j = s.slot j := by
  simp [slot_eq_getD, List.getD, List.getElem?_set_ne h.symm]

/-- Two slots written, in either order. -/
theorem setSlot_comm (s : State) {k j : Nat} (h : j ≠ k) (x y : Slot) :
    (s.setSlot j x).setSlot k y = (s.setSlot k y).setSlot j x := by
  simp only [State.setSlot, State.mk.injEq, true_and, and_true]
  exact List.set_comm x y h

end Sys2Proof.Machine
end

