-- ==== Sys2Proof/Laws/Exec.lean ====
section
/-! SUPPORT. Every command is checks, an effect and a value: what its end can be, and what its effect
leaves alone. Later proofs cite these and do not unfold the meanings. -/

namespace Sys2Proof.Machine

/-! ### The end of a command -/

theorem firstFailure_cons (bad : Bool) (e : ErrCode) (rest : List (Bool × ErrCode)) :
    firstFailure ((bad, e) :: rest) = if bad then some e else firstFailure rest := rfl

@[simp] theorem firstFailure_nil : firstFailure [] = none := rfl

theorem firstFailure_append (l m : List (Bool × ErrCode)) :
    firstFailure (l ++ m) = (firstFailure l).or (firstFailure m) := by
  induction l with
  | nil => simp
  | cons p l ih =>
    obtain ⟨bad, e⟩ := p
    cases bad <;> simp [firstFailure, ih]

/-- No check fails exactly when every condition is false. -/
theorem firstFailure_eq_none {l : List (Bool × ErrCode)} :
    firstFailure l = none ↔ ∀ p ∈ l, p.1 = false := by
  induction l with
  | nil => simp
  | cons p l ih =>
    obtain ⟨bad, e⟩ := p
    cases bad <;> simp [firstFailure, ih]

/-- The code of a failure is one of the list's. -/
theorem firstFailure_mem {l : List (Bool × ErrCode)} {e : ErrCode} (h : firstFailure l = some e) :
    ∃ p ∈ l, p.1 = true ∧ p.2 = e := by
  induction l with
  | nil => simp at h
  | cons p l ih =>
    obtain ⟨bad, e'⟩ := p
    cases bad
    · obtain ⟨p, hp, h1, h2⟩ := ih (by simpa [firstFailure] using h)
      exact ⟨p, List.mem_cons_of_mem _ hp, h1, h2⟩
    · exact ⟨_, List.mem_cons_self, rfl, by simpa [firstFailure] using h⟩

theorem finish_none {s : State} {l : List (Bool × ErrCode)} (eff : State) (v : Word)
    (h : firstFailure l = none) : s.finish l eff v = eff.complete .ok v := by
  simp [State.finish, h]

theorem finish_some {s : State} {l : List (Bool × ErrCode)} {e : ErrCode} (eff : State) (v : Word)
    (h : firstFailure l = some e) : s.finish l eff v = s.complete e 0 := by
  simp [State.finish, h, State.raiseError]

/-! ### Checks, effect and value of each command -/

/-- The checks of a command. -/
def checksOf (i : Instr) (s : State) : List (Bool × ErrCode) :=
  match i with
  | .register => registerChecks s
  | .unregister => unregisterChecks s
  | .unregisterAll => []
  | .resolve => resolveChecks s
  | .alloc => allocChecks s
  | .allocParts m => allocPartsChecks s m
  | .free k => slotChecks s k
  | .setKey k _ => setKeyChecks s k
  | .setIv k ivp => setIvChecks s k ivp
  | .pokeIv k => pokeIvChecks s k
  | .encrypt k ivp => cryptChecks s k ivp true
  | .decrypt k ivp => cryptChecks s k ivp false
  | .getBlockLen k => slotChecks s k
  | .getIvLen k => slotChecks s k
  | .getKeyLen k => slotChecks s k
  | .getName k => slotChecks s k ++ [(outOfRange s s.arg0 (s.slot k).desc.name.length, .memRange)]
  | .getAlgName k =>
    slotChecks s k ++ [(outOfRange s s.arg0 (s.slot k).desc.algName.length, .memRange)]
  | .getMode k => slotChecks s k
  | .getIv k => slotChecks s k ++ [(outOfRange s s.arg0 16, .memRange)]
  | .getState k => [(decide (s.params.nslots ≤ k), .badSlot)]

/-- The registry after a command that passes its checks. -/
def registryAfter (i : Instr) (s : State) : List Descriptor :=
  match i with
  | .register => registered s.registry (descriptorOfRecord (recordOperand s))
  | .unregister => removeFound s.registry (findName s.registry (nameOperand s))
  | .unregisterAll => []
  | _ => s.registry

/-- `MEM` after a command that passes its checks. -/
def memAfter (i : Instr) (s : State) : Memory :=
  match i with
  | .resolve => writeBytes s.mem s.arg2 (recordBytes (s.entry (resolveIndex s)))
  | .encrypt k ivp =>
    (encryptWork s.params (s.slot k) s.arg2 s.arg0 s.arg1 (startWork s k ivp)).mem
  | .decrypt k ivp =>
    (decryptWork s.params (s.slot k) s.arg2 s.arg0 s.arg1 (startWork s k ivp)).mem
  | .getName k => writeBytes s.mem s.arg0 (s.slot k).desc.name
  | .getAlgName k => writeBytes s.mem s.arg0 (s.slot k).desc.algName
  | .getIv k => writeBytes s.mem s.arg0 (blockBytes (s.slot k).iv)
  | _ => s.mem

/-- A slot with the working triple committed. -/
def commitSlot (x : Slot) (w : Work) : Slot := { x with iv := w.iv, ks := w.ks, cur := w.cur }

/-- The slot that a command which passes its checks writes, and its new value. -/
def slotWritten (i : Instr) (s : State) : Option (Nat × Slot) :=
  match i with
  | .alloc => some (freeIndex s,
      freshSlot (s.entry (indexOr0 (findName s.registry (nameOperand s)))))
  | .allocParts m => some (freeIndex s,
      freshSlot (s.entry (indexOr0 (findName s.registry (partsName s m)))))
  | .free k => some (k, Slot.zero)
  | .setKey k dir => some (k, keyedSlot (s.slot k) dir (keyOperand s))
  | .setIv k ivp => some (k, seededSlot (s.slot k) ivp (readBlock s.mem s.arg0))
  | .pokeIv k => some (k, { s.slot k with iv := readBlock s.mem s.arg0 })
  | .encrypt k false => some (k, commitSlot (s.slot k)
      (encryptWork s.params (s.slot k) s.arg2 s.arg0 s.arg1 (startWork s k false)))
  | .decrypt k false => some (k, commitSlot (s.slot k)
      (decryptWork s.params (s.slot k) s.arg2 s.arg0 s.arg1 (startWork s k false)))
  | _ => none

/-- The slots after a command that passes its checks. -/
def slotsAfter (i : Instr) (s : State) : List Slot :=
  match slotWritten i s with
  | some (k, x) => s.slots.set k x
  | none => s.slots

/-- The result of a command that passes its checks. -/
def valueOf (i : Instr) (s : State) : Word :=
  match i with
  | .register =>
    toWord ((registered s.registry (descriptorOfRecord (recordOperand s))).length - 1)
  | .unregisterAll => toWord s.registry.length
  | .resolve => toWord (resolveIndex s)
  | .alloc => toWord (freeIndex s)
  | .allocParts _ => toWord (freeIndex s)
  | .encrypt _ _ => s.latch.arg2
  | .decrypt _ _ => s.latch.arg2
  | .getBlockLen k => toWord (s.slot k).desc.blockLen.toNat
  | .getIvLen k => toWord (s.slot k).desc.blockLen.toNat
  | .getKeyLen k => toWord (s.slot k).desc.keyBits.toNat
  | .getName k => toWord (s.slot k).desc.name.length
  | .getAlgName k => toWord (s.slot k).desc.algName.length
  | .getMode k => toWord (s.slot k).desc.mode.toNat
  | .getIv _ => 16
  | .getState k => toWord (slotStateValue (s.slot k))
  | _ => 0

/-- Everything a command does when it passes its checks. -/
def effectOf (i : Instr) (s : State) : State :=
  { s with registry := registryAfter i s, slots := slotsAfter i s, mem := memAfter i s }

/-- Every command is its checks, its effect and its value. -/
theorem exec_eq (i : Instr) (s : State) :
    exec i s = .next (s.finish (checksOf i s) (effectOf i s) (valueOf i s)) := by
  cases i <;> try rfl
  all_goals rename_i k ivp; cases ivp <;> rfl

/-- The state a command ends in. -/
def stateAfter (i : Instr) (s : State) : State := s.finish (checksOf i s) (effectOf i s) (valueOf i s)

theorem exec_next {i : Instr} {s t : State} (h : exec i s = .next t) : t = stateAfter i s := by
  rw [exec_eq] at h
  cases h
  rfl

/-- A command whose checks pass. -/
theorem exec_ok {i : Instr} {s : State} (h : firstFailure (checksOf i s) = none) :
    exec i s = .next ((effectOf i s).complete .ok (valueOf i s)) := by
  rw [exec_eq, finish_none _ _ h]

/-- A command whose first failing check is `e`. -/
theorem exec_error {i : Instr} {s : State} {e : ErrCode} (h : firstFailure (checksOf i s) = some e) :
    exec i s = .next (s.complete e 0) := by
  rw [exec_eq, finish_some _ _ h]

/-- What a command can do: an error that changes nothing but the completion fields, or its effect. -/
theorem exec_cases {i : Instr} {s t : State} (h : exec i s = .next t) :
    (∃ e, firstFailure (checksOf i s) = some e ∧ t = s.complete e 0) ∨
    (firstFailure (checksOf i s) = none ∧ t = (effectOf i s).complete .ok (valueOf i s)) := by
  rw [exec_eq] at h
  cases hf : firstFailure (checksOf i s) with
  | none => rw [finish_none _ _ hf] at h; cases h; exact .inr ⟨rfl, rfl⟩
  | some e => rw [finish_some _ _ hf] at h; cases h; exact .inl ⟨e, rfl, rfl⟩

/-- The code of a failing check is never `OK`. -/
theorem checksOf_ne_ok {i : Instr} {s : State} {e : ErrCode}
    (h : firstFailure (checksOf i s) = some e) : e ≠ .ok := by
  obtain ⟨p, hp, -, rfl⟩ := firstFailure_mem h
  cases i <;>
    simp only [checksOf, registerChecks, recordChecks, unregisterChecks, nameOperandChecks,
      resolveChecks, allocChecks, allocPartsChecks, slotChecks, setKeyChecks, setIvChecks,
      pokeIvChecks, cryptChecks, List.mem_append, List.mem_cons, List.not_mem_nil, or_false] at hp <;>
    rcases hp with hp | hp <;> grind

section effect
variable (i : Instr) (s : State)

@[simp] theorem effectOf_params : (effectOf i s).params = s.params := rfl
@[simp] theorem effectOf_window : (effectOf i s).window = s.window := rfl
@[simp] theorem effectOf_latch : (effectOf i s).latch = s.latch := rfl
@[simp] theorem effectOf_host : (effectOf i s).host = s.host := rfl
@[simp] theorem effectOf_accepted : (effectOf i s).accepted = s.accepted := rfl
@[simp] theorem effectOf_registry : (effectOf i s).registry = registryAfter i s := rfl
@[simp] theorem effectOf_slots : (effectOf i s).slots = slotsAfter i s := rfl
@[simp] theorem effectOf_mem : (effectOf i s).mem = memAfter i s := rfl

end effect

/-- A slot after a command that passes its checks. -/
theorem slotsAfter_getD (i : Instr) (s : State) (j : Nat) :
    (slotsAfter i s).getD j Slot.zero =
      match slotWritten i s with
      | some (k, x) => if k = j ∧ j < s.slots.length then x else s.slot j
      | none => s.slot j := by
  unfold slotsAfter
  cases h : slotWritten i s with
  | none => rfl
  | some p =>
    obtain ⟨k, x⟩ := p
    simp only [List.getD_eq_getElem?_getD, List.getElem?_set, State.slot]
    by_cases h1 : k = j
    · by_cases h2 : j < s.slots.length
      · simp [h1, h2]
      · simp [h1, h2]
    · simp [h1]

@[simp] theorem slotsAfter_length (i : Instr) (s : State) : (slotsAfter i s).length = s.slots.length := by
  unfold slotsAfter
  split <;> simp

end Sys2Proof.Machine
end

