-- ==== Sys2Proof/Laws/Lookup.lean ====
section
/-! SUPPORT. What the look-ups give: names in the registry, slots, Free slots, ranges, and the checks on
a `SLOT` field. -/

namespace Sys2Proof.Machine

/-! ### Names -/

theorem findName_isNone (reg : List Descriptor) (x : List Byte) :
    (findName reg x).isNone = !(reg.any (fun e => e.name == x)) := by
  unfold findName
  induction reg with
  | nil => rfl
  | cons d r ih =>
    simp only [List.findIdx?_cons, List.any_cons]
    cases d.name == x <;> simp_all

theorem findName_none {reg : List Descriptor} {x : List Byte} (h : findName reg x = none) :
    ∀ d ∈ reg, d.name ≠ x := by
  intro d hd hx
  rw [findName, List.findIdx?_eq_none_iff] at h
  have := h d hd
  simp [hx] at this

theorem findName_some {reg : List Descriptor} {x : List Byte} {i : Nat} (h : findName reg x = some i) :
    ∃ hi : i < reg.length, reg[i].name = x := by
  rw [findName, List.findIdx?_eq_some_iff_getElem] at h
  obtain ⟨hi, h1, -⟩ := h
  exact ⟨hi, by simpa using h1⟩

/-- In a registry of unique names `find` gives the entry of the name. -/
theorem findName_unique {reg : List Descriptor} {i : Nat} {d : Descriptor}
    (hu : reg.Pairwise (fun d e => d.name ≠ e.name)) (h : reg[i]? = some d) :
    findName reg d.name = some i := by
  obtain ⟨hi, rfl⟩ := List.getElem?_eq_some_iff.mp h
  rw [findName, List.findIdx?_eq_some_iff_getElem]
  refine ⟨hi, by simp, fun j hj => ?_⟩
  simpa using List.pairwise_iff_getElem.mp hu j i (by omega) hi hj

theorem removeFound_sublist (reg : List Descriptor) (o : Option Nat) :
    (removeFound reg o).Sublist reg := by
  cases o
  · exact List.Sublist.refl _
  · exact List.eraseIdx_sublist _ _

/-! ### Slots -/

/-- An allocated slot is one of the slots. -/
theorem slot_lt_length {s : State} {k : Nat} (h : (s.slot k).alloc = true) : k < s.slots.length := by
  by_contra hc
  simp [slot_eq_getD, List.getD, List.getElem?_eq_none (Nat.le_of_not_lt hc), Slot.zero] at h

theorem slot_getElem {s : State} {k : Nat} (h : k < s.slots.length) : s.slot k = s.slots[k] := by
  simp [slot_eq_getD, List.getD, h]

theorem firstFree_eq_some {s : State} {k : Nat} (hk : k < s.slots.length)
    (h : (s.slot k).alloc = false) (hj : ∀ j, j < k → (s.slot j).alloc = true) :
    s.firstFree = some k := by
  rw [State.firstFree, List.findIdx?_eq_some_iff_getElem]
  refine ⟨hk, by rw [← slot_getElem hk]; simp [h], fun j hjk => ?_⟩
  rw [← slot_getElem (by omega)]
  simp [hj j hjk]

/-- The first Free slot is a Free slot, and it is one of the slots. -/
theorem firstFree_some {s : State} {k : Nat} (h : s.firstFree = some k) :
    k < s.slots.length ∧ (s.slot k).alloc = false := by
  rw [State.firstFree, List.findIdx?_eq_some_iff_getElem] at h
  obtain ⟨hk, h1, -⟩ := h
  exact ⟨hk, by rw [slot_getElem hk]; simpa using h1⟩

theorem slotChecks_none_iff {s : State} {k : Nat} :
    firstFailure (slotChecks s k) = none ↔ k < s.params.nslots ∧ (s.slot k).alloc = true := by
  simp [firstFailure_eq_none, slotChecks]

/-! ### Ranges and modes -/

theorem outOfRange_false_iff {s : State} {a n : Nat} :
    outOfRange s a n = false ↔ n = 0 ∨ a + n ≤ s.params.memSize := by
  by_cases h : n = 0 <;> simp [outOfRange, inRange, h]

theorem modeOfCode_isNone (n : Nat) : (modeOfCode n).isNone = !decide (1 ≤ n ∧ n ≤ 4) := by
  unfold modeOfCode
  repeat' split
  all_goals simp
  all_goals omega

/-! ### The working state of ENCRYPT and DECRYPT -/

@[simp] theorem startWork_mem (s : State) (k : Nat) (ivp : Bool) : (startWork s k ivp).mem = s.mem := by
  unfold startWork
  split <;> rfl

theorem keyWord_padWords (w : List Word) (i : Nat) : keyWord (padWords w) i = keyWord w i := by
  simp only [keyWord, padWords, List.getD_eq_getElem?_getD]
  by_cases h : i < w.length
  · rw [List.getElem?_append_left h]
  · rw [List.getElem?_append_right (by omega), List.getElem?_replicate,
      List.getElem?_eq_none (Nat.le_of_not_lt h)]
    split <;> rfl

end Sys2Proof.Machine
end

