-- ==== Sys2Proof/Laws/PerInstr.lean ====
section
/-! SUPPORT. One lemma per command: the row of the opcode map that its word matches gives the command
back. -/

namespace Sys2Proof.Laws.RowMatch

set_option Elab.async false

/-- A row of the opcode map matches the word of a well-formed command and builds the command from it. -/
def Statement (i : Instr) : Prop :=
  i.WellFormed → ∃ r ∈ opcodeMap, r.covers (encode i) = true ∧ r.op.build (encode i) = i

theorem register : Statement .register :=
  fun _ => ⟨⟨.register, 0x01000000, 0xFFFFFFFF⟩, by decide, by decide, rfl⟩

theorem unregister : Statement .unregister :=
  fun _ => ⟨⟨.unregister, 0x02000000, 0xFFFFFFFF⟩, by decide, by decide, rfl⟩

theorem unregisterAll : Statement .unregisterAll :=
  fun _ => ⟨⟨.unregisterAll, 0x02000200, 0xFFFFFFFF⟩, by decide, by decide, rfl⟩

theorem resolve : Statement .resolve :=
  fun _ => ⟨⟨.resolve, 0x03000000, 0xFFFFFFFF⟩, by decide, by decide, rfl⟩

theorem alloc : Statement .alloc :=
  fun _ => ⟨⟨.alloc, 0x10000000, 0xFFFFFFFF⟩, by decide, by decide, rfl⟩

theorem allocParts (mode : Nat) : Statement (.allocParts mode) := by
  have h : ∀ m < 16, Row.covers ⟨.allocParts, 0x11000000, 0xFFFF0FFF⟩ (encode (.allocParts m)) = true ∧
      modeField (encode (.allocParts m)) = m := by decide +kernel
  intro hw
  obtain ⟨h1, h2⟩ := h mode (by simpa [Instr.WellFormed, Instr.slot?, Instr.mode?] using hw)
  exact ⟨_, by decide, h1, by rw [Op.build, h2]⟩

theorem free (slot : Nat) : Statement (.free slot) := by
  have h : ∀ k < 256, Row.covers ⟨.free, 0x12000000, 0xFF00FFFF⟩ (encode (.free k)) = true ∧
      slotField (encode (.free k)) = k := by decide +kernel
  intro hw
  obtain ⟨h1, h2⟩ := h slot (by simpa [Instr.WellFormed, Instr.slot?, Instr.mode?] using hw)
  exact ⟨_, by decide, h1, by rw [Op.build, h2]⟩

theorem setKey (slot : Nat) (dir : Bool) : Statement (.setKey slot dir) := by
  have h : ∀ k < 256, ∀ b, Row.covers ⟨.setKey, 0x13000000, 0xFF00F7FF⟩ (encode (.setKey k b)) = true ∧
      slotField (encode (.setKey k b)) = k ∧ dirField (encode (.setKey k b)) = b := by decide +kernel
  intro hw
  obtain ⟨h1, h2, h3⟩ := h slot (by simpa [Instr.WellFormed, Instr.slot?, Instr.mode?] using hw) dir
  exact ⟨_, by decide, h1, by rw [Op.build, h2, h3]⟩

theorem setIv (slot : Nat) (ivp : Bool) : Statement (.setIv slot ivp) := by
  have h : ∀ k < 256, ∀ b, Row.covers ⟨.setIv, 0x14000000, 0xFF00FBFF⟩ (encode (.setIv k b)) = true ∧
      slotField (encode (.setIv k b)) = k ∧ ivpField (encode (.setIv k b)) = b := by decide +kernel
  intro hw
  obtain ⟨h1, h2, h3⟩ := h slot (by simpa [Instr.WellFormed, Instr.slot?, Instr.mode?] using hw) ivp
  exact ⟨_, by decide, h1, by rw [Op.build, h2, h3]⟩

theorem pokeIv (slot : Nat) : Statement (.pokeIv slot) := by
  have h : ∀ k < 256, Row.covers ⟨.pokeIv, 0x15000000, 0xFF00FFFF⟩ (encode (.pokeIv k)) = true ∧
      slotField (encode (.pokeIv k)) = k := by decide +kernel
  intro hw
  obtain ⟨h1, h2⟩ := h slot (by simpa [Instr.WellFormed, Instr.slot?, Instr.mode?] using hw)
  exact ⟨_, by decide, h1, by rw [Op.build, h2]⟩

theorem encrypt (slot : Nat) (ivp : Bool) : Statement (.encrypt slot ivp) := by
  have h : ∀ k < 256, ∀ b, Row.covers ⟨.encrypt, 0x20000000, 0xFF00FBFF⟩ (encode (.encrypt k b)) = true ∧
      slotField (encode (.encrypt k b)) = k ∧ ivpField (encode (.encrypt k b)) = b := by decide +kernel
  intro hw
  obtain ⟨h1, h2, h3⟩ := h slot (by simpa [Instr.WellFormed, Instr.slot?, Instr.mode?] using hw) ivp
  exact ⟨_, by decide, h1, by rw [Op.build, h2, h3]⟩

theorem decrypt (slot : Nat) (ivp : Bool) : Statement (.decrypt slot ivp) := by
  have h : ∀ k < 256, ∀ b, Row.covers ⟨.decrypt, 0x21000000, 0xFF00FBFF⟩ (encode (.decrypt k b)) = true ∧
      slotField (encode (.decrypt k b)) = k ∧ ivpField (encode (.decrypt k b)) = b := by decide +kernel
  intro hw
  obtain ⟨h1, h2, h3⟩ := h slot (by simpa [Instr.WellFormed, Instr.slot?, Instr.mode?] using hw) ivp
  exact ⟨_, by decide, h1, by rw [Op.build, h2, h3]⟩

theorem getBlockLen (slot : Nat) : Statement (.getBlockLen slot) := by
  have h : ∀ k < 256, Row.covers ⟨.getBlockLen, 0x30000000, 0xFF00FFFF⟩ (encode (.getBlockLen k)) = true ∧
      slotField (encode (.getBlockLen k)) = k := by decide +kernel
  intro hw
  obtain ⟨h1, h2⟩ := h slot (by simpa [Instr.WellFormed, Instr.slot?, Instr.mode?] using hw)
  exact ⟨_, by decide, h1, by rw [Op.build, h2]⟩

theorem getIvLen (slot : Nat) : Statement (.getIvLen slot) := by
  have h : ∀ k < 256, Row.covers ⟨.getIvLen, 0x31000000, 0xFF00FFFF⟩ (encode (.getIvLen k)) = true ∧
      slotField (encode (.getIvLen k)) = k := by decide +kernel
  intro hw
  obtain ⟨h1, h2⟩ := h slot (by simpa [Instr.WellFormed, Instr.slot?, Instr.mode?] using hw)
  exact ⟨_, by decide, h1, by rw [Op.build, h2]⟩

theorem getKeyLen (slot : Nat) : Statement (.getKeyLen slot) := by
  have h : ∀ k < 256, Row.covers ⟨.getKeyLen, 0x32000000, 0xFF00FFFF⟩ (encode (.getKeyLen k)) = true ∧
      slotField (encode (.getKeyLen k)) = k := by decide +kernel
  intro hw
  obtain ⟨h1, h2⟩ := h slot (by simpa [Instr.WellFormed, Instr.slot?, Instr.mode?] using hw)
  exact ⟨_, by decide, h1, by rw [Op.build, h2]⟩

theorem getName (slot : Nat) : Statement (.getName slot) := by
  have h : ∀ k < 256, Row.covers ⟨.getName, 0x33000000, 0xFF00FFFF⟩ (encode (.getName k)) = true ∧
      slotField (encode (.getName k)) = k := by decide +kernel
  intro hw
  obtain ⟨h1, h2⟩ := h slot (by simpa [Instr.WellFormed, Instr.slot?, Instr.mode?] using hw)
  exact ⟨_, by decide, h1, by rw [Op.build, h2]⟩

theorem getAlgName (slot : Nat) : Statement (.getAlgName slot) := by
  have h : ∀ k < 256, Row.covers ⟨.getAlgName, 0x34000000, 0xFF00FFFF⟩ (encode (.getAlgName k)) = true ∧
      slotField (encode (.getAlgName k)) = k := by decide +kernel
  intro hw
  obtain ⟨h1, h2⟩ := h slot (by simpa [Instr.WellFormed, Instr.slot?, Instr.mode?] using hw)
  exact ⟨_, by decide, h1, by rw [Op.build, h2]⟩

theorem getMode (slot : Nat) : Statement (.getMode slot) := by
  have h : ∀ k < 256, Row.covers ⟨.getMode, 0x35000000, 0xFF00FFFF⟩ (encode (.getMode k)) = true ∧
      slotField (encode (.getMode k)) = k := by decide +kernel
  intro hw
  obtain ⟨h1, h2⟩ := h slot (by simpa [Instr.WellFormed, Instr.slot?, Instr.mode?] using hw)
  exact ⟨_, by decide, h1, by rw [Op.build, h2]⟩

theorem getIv (slot : Nat) : Statement (.getIv slot) := by
  have h : ∀ k < 256, Row.covers ⟨.getIv, 0x36000000, 0xFF00FFFF⟩ (encode (.getIv k)) = true ∧
      slotField (encode (.getIv k)) = k := by decide +kernel
  intro hw
  obtain ⟨h1, h2⟩ := h slot (by simpa [Instr.WellFormed, Instr.slot?, Instr.mode?] using hw)
  exact ⟨_, by decide, h1, by rw [Op.build, h2]⟩

theorem getState (slot : Nat) : Statement (.getState slot) := by
  have h : ∀ k < 256, Row.covers ⟨.getState, 0x37000000, 0xFF00FFFF⟩ (encode (.getState k)) = true ∧
      slotField (encode (.getState k)) = k := by decide +kernel
  intro hw
  obtain ⟨h1, h2⟩ := h slot (by simpa [Instr.WellFormed, Instr.slot?, Instr.mode?] using hw)
  exact ⟨_, by decide, h1, by rw [Op.build, h2]⟩

end Sys2Proof.Laws.RowMatch
end

