-- ==== Sys2Proof/Laws/Step.lean ====
section
/-! SUPPORT. What one step can do: the engine's turn, or the host's. -/

namespace Sys2Proof.Machine

/-- A host access to `MEM` that goes on ends in the state given, and the byte exists and lies outside the
ranges of the command in progress. -/
theorem hostMemAccess_next {s s' t : State} {a : Nat} (h : hostMemAccess s a s' = .next t) :
    t = s' ∧ a < s.params.memSize ∧ inRunningRange s a = false := by
  unfold hostMemAccess at h
  split at h
  · cases h
  · split at h
    · cases h
    · rename_i h1 h2
      cases h
      exact ⟨rfl, by omega, by simpa using h2⟩

/-- What a step that goes on did. -/
theorem step_cases {s t : State} (h : step s = .next t) :
    (s.engineTurn = true ∧
      ((∃ i, decode s.latch.cmd = .ok i ∧ exec i s = .next t) ∨
       (∃ r, decode s.latch.cmd = .error r ∧ t = s.raiseError .illegal))) ∨
    (s.engineTurn = false ∧
      ((∃ act, s.nextAction = some act ∧ hostMove act { s with delay := s.delay - 1 } = .next t) ∨
       (s.nextAction = none ∧ t = s))) := by
  unfold step at h
  split at h
  · rename_i he
    refine .inl ⟨he, ?_⟩
    unfold engineStep at h
    split at h
    · exact .inl ⟨_, ‹_›, h⟩
    · cases h
      exact .inr ⟨_, ‹_›, rfl⟩
  · rename_i he
    refine .inr ⟨by simpa using he, ?_⟩
    unfold hostStep at h
    split at h
    · exact .inl ⟨_, ‹_›, h⟩
    · cases h
      exact .inr ⟨‹_›, rfl⟩

end Sys2Proof.Machine
end

