-- ==== Sys2Proof/Laws/Units.lean ====
section
/-! SUPPORT. The units of the mode layer: induction over units, the bytes that a unit can write, and
what one unit does. -/

namespace Sys2Proof.Machine

/-! ### Many units -/

section units
variable (f : Nat → Nat → Work → Work) (size : Nat)

/-- A run of units is the first of them and then the others. -/
theorem units_add (a b src dst : Nat) (w : Work) :
    units f size (a + b) src dst w =
      units f size b (src + size * a) (dst + size * a) (units f size a src dst w) := by
  induction a generalizing src dst w with
  | zero => simp [units]
  | succ a ih =>
    rw [show a + 1 + b = (a + b) + 1 by omega]
    simp only [units, ih]
    rw [show src + size + size * a = src + size * (a + 1) by rw [Nat.mul_succ]; omega,
      show dst + size + size * a = dst + size * (a + 1) by rw [Nat.mul_succ]; omega]

theorem units_succ_last (n src dst : Nat) (w : Work) :
    units f size (n + 1) src dst w =
      f (src + size * n) (dst + size * n) (units f size n src dst w) := by
  rw [units_add]
  rfl

variable {f size}

/-- Induction over the units: what holds at the start and is kept by unit `j` holds at the end. -/
theorem units_induction {count src dst : Nat} {w : Work} (P : Nat → Work → Prop) (h0 : P 0 w)
    (hstep : ∀ j v, j < count → P j v → P (j + 1) (f (src + size * j) (dst + size * j) v)) :
    P count (units f size count src dst w) := by
  induction count with
  | zero => exact h0
  | succ n ih =>
    rw [units_succ_last]
    exact hstep n _ (by omega) (ih (fun j v hj => hstep j v (by omega)))

/-- A unit writes no byte but its own `size` bytes at `dst`. -/
def WritesOnly (f : Nat → Nat → Work → Work) (size : Nat) : Prop :=
  ∀ src dst w x, x < dst ∨ dst + size ≤ x → memRead (f src dst w).mem x = memRead w.mem x

/-- A unit keeps the form of `MEM` and writes inside it. -/
def KeepsForm (f : Nat → Nat → Work → Work) (size : Nat) : Prop :=
  ∀ src dst w, (w.mem.wf → (f src dst w).mem.wf) ∧
    (∀ n, dst + size ≤ n → w.mem.Inside n → (f src dst w).mem.Inside n)

theorem units_writesOnly (h : WritesOnly f size) {count src dst : Nat} {w : Work} {x : Nat}
    (hx : x < dst ∨ dst + size * count ≤ x) :
    memRead (units f size count src dst w).mem x = memRead w.mem x := by
  refine units_induction (fun _ v => memRead v.mem x = memRead w.mem x) rfl (fun j v hj hv => ?_)
  have hle : size * (j + 1) ≤ size * count := Nat.mul_le_mul_left size hj
  rw [Nat.mul_succ] at hle
  rw [h, hv]
  omega

theorem units_wf (h : KeepsForm f size) {count src dst : Nat} {w : Work} (hw : w.mem.wf) :
    (units f size count src dst w).mem.wf :=
  units_induction (fun _ v => v.mem.wf) hw (fun _ v _ hv => (h _ _ v).1 hv)

theorem units_inside (h : KeepsForm f size) {count src dst n : Nat} {w : Work}
    (hn : dst + size * count ≤ n) (hw : w.mem.Inside n) :
    (units f size count src dst w).mem.Inside n := by
  refine units_induction (fun _ v => v.mem.Inside n) hw (fun j v hj hv => (h _ _ v).2 n ?_ hv)
  have hle : size * (j + 1) ≤ size * count := Nat.mul_le_mul_left size hj
  rw [Nat.mul_succ] at hle
  omega

end units

/-! ### One unit -/

section one
variable (e d : Block → Block) (preinc : Bool)

theorem ecbUnit_writesOnly : WritesOnly (ecbUnit e) 16 :=
  fun _ _ _ _ h => memRead_writeBlock_outside _ h

theorem ecbUnit_keepsForm : KeepsForm (ecbUnit e) 16 :=
  fun _ _ _ => ⟨writeBlock_wf _ _, fun _ h hw => writeBlock_inside hw h⟩

theorem cbcEncUnit_writesOnly : WritesOnly (cbcEncUnit e) 16 :=
  fun _ _ _ _ h => memRead_writeBlock_outside _ h

theorem cbcEncUnit_keepsForm : KeepsForm (cbcEncUnit e) 16 :=
  fun _ _ _ => ⟨writeBlock_wf _ _, fun _ h hw => writeBlock_inside hw h⟩

theorem cbcDecUnit_writesOnly : WritesOnly (cbcDecUnit d) 16 :=
  fun _ _ _ _ h => memRead_writeBlock_outside _ h

theorem cbcDecUnit_keepsForm : KeepsForm (cbcDecUnit d) 16 :=
  fun _ _ _ => ⟨writeBlock_wf _ _, fun _ h hw => writeBlock_inside hw h⟩

section fields
variable (src dst : Nat) (w : Work)

@[simp] theorem ecbUnit_mem : (ecbUnit e src dst w).mem =
    writeBlock w.mem dst (e (readBlock w.mem src)) := by simp only [ecbUnit]
@[simp] theorem ecbUnit_iv : (ecbUnit e src dst w).iv = w.iv := by simp only [ecbUnit]
@[simp] theorem ecbUnit_ks : (ecbUnit e src dst w).ks = w.ks := by simp only [ecbUnit]
@[simp] theorem ecbUnit_cur : (ecbUnit e src dst w).cur = w.cur := by simp only [ecbUnit]
@[simp] theorem cbcEncUnit_mem : (cbcEncUnit e src dst w).mem =
    writeBlock w.mem dst (e (xorBlock (readBlock w.mem src) w.iv)) := by simp only [cbcEncUnit]
@[simp] theorem cbcEncUnit_iv : (cbcEncUnit e src dst w).iv =
    e (xorBlock (readBlock w.mem src) w.iv) := by simp only [cbcEncUnit]
@[simp] theorem cbcEncUnit_ks : (cbcEncUnit e src dst w).ks = w.ks := by simp only [cbcEncUnit]
@[simp] theorem cbcEncUnit_cur : (cbcEncUnit e src dst w).cur = w.cur := by simp only [cbcEncUnit]
@[simp] theorem cbcDecUnit_mem : (cbcDecUnit d src dst w).mem =
    writeBlock w.mem dst (xorBlock (d (readBlock w.mem src)) w.iv) := by simp only [cbcDecUnit]
@[simp] theorem cbcDecUnit_iv : (cbcDecUnit d src dst w).iv = readBlock w.mem src := by
  simp only [cbcDecUnit]
@[simp] theorem cbcDecUnit_ks : (cbcDecUnit d src dst w).ks = w.ks := by simp only [cbcDecUnit]
@[simp] theorem cbcDecUnit_cur : (cbcDecUnit d src dst w).cur = w.cur := by simp only [cbcDecUnit]

end fields

@[simp] theorem ctrRefill_mem (w : Work) : (ctrRefill preinc e w).mem = w.mem := by
  unfold ctrRefill
  split
  · split <;> rfl
  · rfl

@[simp] theorem cfbRefill_mem (w : Work) : (cfbRefill e w).mem = w.mem := by
  unfold cfbRefill
  split <;> rfl

@[simp] theorem ctrRefill_cur (w : Work) : (ctrRefill preinc e w).cur = w.cur := by
  unfold ctrRefill
  split
  · split <;> rfl
  · rfl

@[simp] theorem cfbRefill_cur (w : Work) : (cfbRefill e w).cur = w.cur := by
  unfold cfbRefill
  split <;> rfl

@[simp] theorem cfbFeed_mem (c : Byte) (w : Work) : (cfbFeed c w).mem = w.mem := by
  unfold cfbFeed
  split <;> rfl

/-- The cursor goes from 15 to 0 (41_mode_layer.md R190, R191). -/
@[simp] theorem cfbFeed_cur (c : Byte) (w : Work) : (cfbFeed c w).cur = w.cur + 1 := by
  unfold cfbFeed
  split
  · rename_i h
    rw [h]
    rfl
  · rfl

/-- `MEM` after one CTR byte. -/
theorem ctrUnit_mem (src dst : Nat) (w : Work) :
    (ctrUnit preinc e src dst w).mem =
      memWrite w.mem dst (memRead w.mem src ^^^ blockByte (ctrRefill preinc e w).ks w.cur.val) := by
  simp [ctrUnit, ctrEmit]

@[simp] theorem ctrUnit_cur (src dst : Nat) (w : Work) :
    (ctrUnit preinc e src dst w).cur = w.cur + 1 := by simp [ctrUnit, ctrEmit]

/-- `MEM` after one CFB encryption byte. -/
theorem cfbEncUnit_mem (src dst : Nat) (w : Work) :
    (cfbEncUnit e src dst w).mem =
      memWrite w.mem dst (memRead w.mem src ^^^ blockByte (cfbRefill e w).ks w.cur.val) := by
  simp [cfbEncUnit, cfbEncEmit]

/-- `MEM` after one CFB decryption byte. -/
theorem cfbDecUnit_mem (src dst : Nat) (w : Work) :
    (cfbDecUnit e src dst w).mem =
      memWrite w.mem dst (memRead w.mem src ^^^ blockByte (cfbRefill e w).ks w.cur.val) := by
  simp [cfbDecUnit, cfbDecEmit]

@[simp] theorem cfbEncUnit_cur (src dst : Nat) (w : Work) :
    (cfbEncUnit e src dst w).cur = w.cur + 1 := by simp [cfbEncUnit, cfbEncEmit]

@[simp] theorem cfbDecUnit_cur (src dst : Nat) (w : Work) :
    (cfbDecUnit e src dst w).cur = w.cur + 1 := by simp [cfbDecUnit, cfbDecEmit]

/-- A unit that writes one byte at `dst` writes no other. -/
theorem writesOnly_of_memWrite {f : Nat → Nat → Work → Work}
    (h : ∀ src dst w, ∃ v, (f src dst w).mem = memWrite w.mem dst v) : WritesOnly f 1 := by
  intro src dst w x hx
  obtain ⟨v, hv⟩ := h src dst w
  rw [hv, memRead_memWrite_ne _ _ (by omega)]

theorem keepsForm_of_memWrite {f : Nat → Nat → Work → Work}
    (h : ∀ src dst w, ∃ v, (f src dst w).mem = memWrite w.mem dst v) : KeepsForm f 1 := by
  intro src dst w
  obtain ⟨v, hv⟩ := h src dst w
  rw [hv]
  exact ⟨memWrite_wf _ _, fun n hn hw => memWrite_inside _ hw (by omega)⟩

theorem ctrUnit_writesOnly : WritesOnly (ctrUnit preinc e) 1 :=
  writesOnly_of_memWrite fun s t w => ⟨_, ctrUnit_mem e preinc s t w⟩

theorem ctrUnit_keepsForm : KeepsForm (ctrUnit preinc e) 1 :=
  keepsForm_of_memWrite fun s t w => ⟨_, ctrUnit_mem e preinc s t w⟩

theorem cfbEncUnit_writesOnly : WritesOnly (cfbEncUnit e) 1 :=
  writesOnly_of_memWrite fun s t w => ⟨_, cfbEncUnit_mem e s t w⟩

theorem cfbEncUnit_keepsForm : KeepsForm (cfbEncUnit e) 1 :=
  keepsForm_of_memWrite fun s t w => ⟨_, cfbEncUnit_mem e s t w⟩

theorem cfbDecUnit_writesOnly : WritesOnly (cfbDecUnit e) 1 :=
  writesOnly_of_memWrite fun s t w => ⟨_, cfbDecUnit_mem e s t w⟩

theorem cfbDecUnit_keepsForm : KeepsForm (cfbDecUnit e) 1 :=
  keepsForm_of_memWrite fun s t w => ⟨_, cfbDecUnit_mem e s t w⟩

end one

/-! ### All units of a command -/

section work
variable (p : Params) (x : Slot) (n src dst : Nat) (w : Work)

/-- All units of a run of the mode layer, of one size and number. The number of bytes they cover is at
most the length of the command. -/
theorem encryptWork_units : ∃ f size count, encryptWork p x n src dst w = units f size count src dst w ∧
    size * count ≤ n ∧ (n = 0 → count = 0) ∧ WritesOnly f size ∧ KeepsForm f size := by
  unfold encryptWork
  have h16 : 16 * (n / 16) ≤ n := Nat.mul_div_le n 16
  cases modeOf x.desc with
  | none => exact ⟨fun _ _ w => w, 0, 0, rfl, by omega, fun _ => rfl, fun _ _ _ _ _ => rfl,
      fun _ _ _ => ⟨id, fun _ _ => id⟩⟩
  | some m => cases m with
    | ecb => exact ⟨_, _, _, rfl, h16, fun h => by simp [h], ecbUnit_writesOnly _, ecbUnit_keepsForm _⟩
    | cbc => exact ⟨_, _, _, rfl, h16, fun h => by simp [h], cbcEncUnit_writesOnly _, cbcEncUnit_keepsForm _⟩
    | ctr => exact ⟨_, _, _, rfl, by omega, id, ctrUnit_writesOnly _ _, ctrUnit_keepsForm _ _⟩
    | cfb => exact ⟨_, _, _, rfl, by omega, id, cfbEncUnit_writesOnly _, cfbEncUnit_keepsForm _⟩

theorem decryptWork_units : ∃ f size count, decryptWork p x n src dst w = units f size count src dst w ∧
    size * count ≤ n ∧ (n = 0 → count = 0) ∧ WritesOnly f size ∧ KeepsForm f size := by
  unfold decryptWork
  have h16 : 16 * (n / 16) ≤ n := Nat.mul_div_le n 16
  cases modeOf x.desc with
  | none => exact ⟨fun _ _ w => w, 0, 0, rfl, by omega, fun _ => rfl, fun _ _ _ _ _ => rfl,
      fun _ _ _ => ⟨id, fun _ _ => id⟩⟩
  | some m => cases m with
    | ecb => exact ⟨_, _, _, rfl, h16, fun h => by simp [h], ecbUnit_writesOnly _, ecbUnit_keepsForm _⟩
    | cbc => exact ⟨_, _, _, rfl, h16, fun h => by simp [h], cbcDecUnit_writesOnly _, cbcDecUnit_keepsForm _⟩
    | ctr => exact ⟨_, _, _, rfl, by omega, id, ctrUnit_writesOnly _ _, ctrUnit_keepsForm _ _⟩
    | cfb => exact ⟨_, _, _, rfl, by omega, id, cfbDecUnit_writesOnly _, cfbDecUnit_keepsForm _⟩

/-- An encryption writes no byte outside its destination. -/
theorem encryptWork_outside {a : Nat} (h : a < dst ∨ dst + n ≤ a) :
    memRead (encryptWork p x n src dst w).mem a = memRead w.mem a := by
  obtain ⟨f, size, count, he, hn, -, hf, -⟩ := encryptWork_units p x n src dst w
  rw [he, units_writesOnly hf (by omega)]

/-- A decryption writes no byte outside its destination. -/
theorem decryptWork_outside {a : Nat} (h : a < dst ∨ dst + n ≤ a) :
    memRead (decryptWork p x n src dst w).mem a = memRead w.mem a := by
  obtain ⟨f, size, count, he, hn, -, hf, -⟩ := decryptWork_units p x n src dst w
  rw [he, units_writesOnly hf (by omega)]

theorem encryptWork_wf (h : w.mem.wf) : (encryptWork p x n src dst w).mem.wf := by
  obtain ⟨f, size, count, he, -, -, -, hk⟩ := encryptWork_units p x n src dst w
  rw [he]
  exact units_wf hk h

theorem decryptWork_wf (h : w.mem.wf) : (decryptWork p x n src dst w).mem.wf := by
  obtain ⟨f, size, count, he, -, -, -, hk⟩ := decryptWork_units p x n src dst w
  rw [he]
  exact units_wf hk h

theorem encryptWork_inside {m : Nat} (hm : n = 0 ∨ dst + n ≤ m) (h : w.mem.Inside m) :
    (encryptWork p x n src dst w).mem.Inside m := by
  obtain ⟨f, size, count, he, hn, h0, -, hk⟩ := encryptWork_units p x n src dst w
  rw [he]
  rcases hm with hm | hm
  · rw [h0 hm]
    exact h
  · exact units_inside hk (by omega) h

theorem decryptWork_inside {m : Nat} (hm : n = 0 ∨ dst + n ≤ m) (h : w.mem.Inside m) :
    (decryptWork p x n src dst w).mem.Inside m := by
  obtain ⟨f, size, count, he, hn, h0, -, hk⟩ := decryptWork_units p x n src dst w
  rw [he]
  rcases hm with hm | hm
  · rw [h0 hm]
    exact h
  · exact units_inside hk (by omega) h

end work

end Sys2Proof.Machine
end

