-- ==== Sys2Proof/Tests/Slice0.lean ====
section
/-! SUPPORT. Tests: ill-formed terms, decoding of words written out from the spec, one step of each command
with expected values from 95_test_vectors.md, and for every obligation with hypotheses a concrete state and
operands that meet them. -/

namespace Sys2Proof.Tests

set_option Elab.async false

open Sys2Proof.Machine

/-! ### Well-formedness: each check refuses an ill-formed term -/

theorem test_slot_too_large : ¬ (Instr.free 256).WellFormed := by decide
theorem test_slot_too_large_crypt : ¬ (Instr.encrypt 256 true).WellFormed := by decide
theorem test_mode_too_large : ¬ (Instr.allocParts 16).WellFormed := by decide
theorem test_largest_fields : (Instr.setKey 255 true).WellFormed ∧ (Instr.allocParts 15).WellFormed ∧
    Instr.register.WellFormed := by decide

/-! ### Decoding -/

/-- Every constructor from a word of 30_encoding.md R98, the fields filled in by hand from R91. -/
theorem test_decode_every_command :
    decode 0x01000000 = .ok .register ∧ decode 0x02000000 = .ok .unregister ∧
    decode 0x02000200 = .ok .unregisterAll ∧ decode 0x03000000 = .ok .resolve ∧
    decode 0x10000000 = .ok .alloc ∧ decode 0x11003000 = .ok (.allocParts 3) ∧
    decode 0x12030000 = .ok (.free 3) ∧ decode 0x13000800 = .ok (.setKey 0 true) ∧
    decode 0x13010000 = .ok (.setKey 1 false) ∧ decode 0x14010400 = .ok (.setIv 1 true) ∧
    decode 0x14000000 = .ok (.setIv 0 false) ∧ decode 0x15020000 = .ok (.pokeIv 2) ∧
    decode 0x20000400 = .ok (.encrypt 0 true) ∧ decode 0x20000000 = .ok (.encrypt 0 false) ∧
    decode 0x21010000 = .ok (.decrypt 1 false) ∧ decode 0x30040000 = .ok (.getBlockLen 4) ∧
    decode 0x31050000 = .ok (.getIvLen 5) ∧ decode 0x32060000 = .ok (.getKeyLen 6) ∧
    decode 0x33070000 = .ok (.getName 7) ∧ decode 0x34080000 = .ok (.getAlgName 8) ∧
    decode 0x35090000 = .ok (.getMode 9) ∧ decode 0x36FF0000 = .ok (.getIv 255) ∧
    decode 0x37000000 = .ok (.getState 0) := by decide

/-- The illegal words of 95_test_vectors.md V34. -/
theorem test_decode_rejects :
    decode 0x00000000 = .error (.reservedOpcode 0x00) ∧ decode 0x16000000 = .error (.reservedOpcode 0x16) ∧
    decode 0x38000000 = .error (.reservedOpcode 0x38) ∧ decode 0xFF000000 = .error (.reservedOpcode 0xFF) ∧
    decode 0x10010000 = .error (.unusedFieldNonzero 0x10) ∧
    decode 0x10000001 = .error (.unusedFieldNonzero 0x10) ∧
    decode 0x12000800 = .error (.unusedFieldNonzero 0x12) ∧
    decode 0x13000400 = .error (.unusedFieldNonzero 0x13) ∧
    decode 0x20000800 = .error (.unusedFieldNonzero 0x20) ∧
    decode 0x37000200 = .error (.unusedFieldNonzero 0x37) ∧
    decode 0x02010200 = .error (.unusedFieldNonzero 0x02) ∧
    decode 0x11003800 = .error (.unusedFieldNonzero 0x11) := by decide

/-- The words of 95_test_vectors.md, section 6, from the encoder. -/
theorem test_encode :
    encode (.setKey 0 true) = 0x13000800 ∧ encode (.setKey 1 false) = 0x13010000 ∧
    encode (.setIv 1 true) = 0x14010400 ∧ encode (.encrypt 0 true) = 0x20000400 ∧
    encode (.decrypt 1 false) = 0x21010000 ∧ encode (.allocParts 4) = 0x11004000 ∧
    encode .unregisterAll = 0x02000200 ∧ encode (.getIv 0) = 0x36000000 := by decide

/-! ### A small state -/

/-- Cells of a byte string from an address. -/
def cellsAt : Nat → List Byte → List Host.Cell
  | _, [] => []
  | a, b :: bs => (a, b) :: cellsAt (a + 1) bs

/-- `K128` of 95_test_vectors.md. -/
def key128 : List Byte := beBytes 16 0x2b7e151628aed2a6abf7158809cf4f3c

/-- `IV0` of 95_test_vectors.md. -/
def iv0 : List Byte := beBytes 16 0x000102030405060708090a0b0c0d0e0f

/-- `IVC` of 95_test_vectors.md. -/
def ivc : List Byte := beBytes 16 0xf0f1f2f3f4f5f6f7f8f9fafbfcfdfeff

/-- `P[0..15]` of 95_test_vectors.md. -/
def plain : List Byte := beBytes 16 0x6bc1bee22e409f96e93d7e117393172a

/-- The record of `aes-256-cbc` of 95_test_vectors.md V30. -/
def record : List Byte :=
  beBytes 19 0x0b030201000110006165732d3235362d636263 ++ List.replicate 21 0 ++ beBytes 3 0x616573 ++
    List.replicate 21 0

/-- `aes-128-ctr` at 0x100, `aes` at 0x180, `K128` at 0x200, `IVC` at 0x300, `P[0..15]` at 0x400, its ECB
ciphertext (V10) at 0x420, its CBC ciphertext (V11) at 0x440, its CFB ciphertext (V14) at 0x460, and the
record at 0x600. -/
def demoCells : List Host.Cell :=
  cellsAt 0x100 (beBytes 11 0x6165732d3132382d637472) ++ cellsAt 0x180 (beBytes 3 0x616573) ++
    cellsAt 0x200 key128 ++ cellsAt 0x300 ivc ++ cellsAt 0x400 plain ++
    cellsAt 0x420 (beBytes 16 0x3ad77bb40d7a3660a89ecaf32466ef97) ++
    cellsAt 0x440 (beBytes 16 0x7649abac8119b246cee98e9b12e9197d) ++
    cellsAt 0x460 (beBytes 16 0x3b3fd92eb72dad20333449f8e83cfb4a) ++ cellsAt 0x600 record

/-- A slot of a 128-bit built-in, keyed with `K128`, with an IV. -/
def keyed (m : Mode) (dir : Bool) (iv : List Byte) : Slot :=
  { keyedSlot (freshSlot (builtin 128 m)) dir key128 with iv := blockOfBytes iv }

/-- ECB `enc` and `dec`, CBC `enc` and `dec` with `IV0`, CTR with `IVC`, CFB with `IV0`, an Unkeyed
`aes-192-ctr`, and a Free slot. -/
def demoSlots : List Slot :=
  [keyed .ecb true iv0, keyed .ecb false iv0, keyed .cbc true iv0, keyed .cbc false iv0,
   keyed .ctr true ivc, keyed .cfb true iv0, freshSlot (builtin 192 .ctr), Slot.zero]

/-- A command in progress, its completion due, in a machine with these slots. -/
def demo (i : Instr) (a0 a1 a2 a3 : Nat) : State :=
  { State.reset with
    window := { Window.zero with cmd := encode i, status := { Status.zero with busy := true } }
    latch := ⟨encode i, toWord a0, toWord a1, toWord a2, toWord a3⟩
    slots := demoSlots
    mem := ⟨0, demoCells⟩
    host := { State.reset.host with doneRead := false } }

/-- The state of an outcome that goes on. -/
def stateOf (o : Host.Outcome State Fault Refusal) : State :=
  match o with
  | .next t => t
  | .fault _ => State.reset
  | .refused _ => State.reset

/-- One step of the small state. -/
def run (i : Instr) (a0 a1 a2 a3 : Nat) : State := stateOf (step (demo i a0 a1 a2 a3))

/-- A command ends with this code and result. -/
def ends (t : State) (e : ErrCode) (v : Nat) : Bool :=
  t.window.status.errcode == e && t.window.result == toWord v && t.window.status.done &&
    !t.window.status.busy && t.window.status.err == (e != .ok)

/-- 16 bytes of `MEM` as a number. -/
def mem16 (t : State) (a : Nat) : Nat := be (readBytes t.mem a 16)

/-! ### One step of each command -/

/-- V30: the record at 0x600 replaces `aes-256-cbc`, which goes from index 0 to the end. -/
theorem test_register : ends (run .register 0x600 0 0 0) .ok 11 = true ∧
    (run .register 0x600 0 0 0).registry = builtins.drop 1 ++ builtins.take 1 := by decide +kernel

/-- V31: a record past the end of `MEM`, and a record whose first byte is the `a` of `aes`, 0x61. -/
theorem test_register_errors : ends (run .register 0xFFC1 0 0 0) .memRange 0 = true ∧
    ends (run .register 0x180 0 0 0) .name 0 = true := by decide +kernel

theorem test_unregister : ends (run .unregister 0x100 11 0 0) .ok 0 = true ∧
    (run .unregister 0x100 11 0 0).registry.length = 11 ∧
    ends (run .unregister 0x180 3 0 0) .notFound 0 = true := by decide +kernel

/-- V31: name lengths 0 and 33. -/
theorem test_unregister_errors : ends (run .unregister 0x100 0 0 0) .name 0 = true ∧
    ends (run .unregister 0x100 33 0 0) .name 0 = true ∧
    ends (run .unregister 0xFFF6 11 0 0) .memRange 0 = true := by decide +kernel

theorem test_unregister_all : ends (run .unregisterAll 0 0 0 0) .ok 12 = true ∧
    (run .unregisterAll 0 0 0 0).registry = [] := by decide +kernel

/-- V30: RESOLVE of `aes-128-ctr` gives index 5 and writes its record. -/
theorem test_resolve : ends (run .resolve 0x100 11 0x700 0) .ok 5 = true ∧
    readBytes (run .resolve 0x100 11 0x700 0).mem 0x700 64 =
      beBytes 19 0x0b030301800010006165732d3132382d637472 ++ List.replicate 21 0 ++
        beBytes 3 0x616573 ++ List.replicate 21 0 := by decide +kernel

theorem test_resolve_errors : ends (run .resolve 0x180 3 0xFFC1 0) .memRange 0 = true ∧
    ends (run .resolve 0x180 3 0xFFC0 0) .notFound 0 = true := by decide +kernel

/-- V32: the lowest Free slot, all zero but for the descriptor. -/
theorem test_alloc : ends (run .alloc 0x100 11 0 0) .ok 7 = true ∧
    (run .alloc 0x100 11 0 0).slot 7 = freshSlot (builtin 128 .ctr) := by decide +kernel

theorem test_alloc_errors : ends (run .alloc 0x180 3 0 0) .notFound 0 = true ∧
    ends (stateOf (exec .alloc { demo .alloc 0x100 11 0 0 with
      slots := List.replicate 8 (freshSlot (builtin 128 .ecb)) })) .noResource 0 = true := by
  decide +kernel

/-- V32: `aes-256-ecb` from its parts. -/
theorem test_alloc_parts : ends (run (.allocParts 1) 0x180 3 256 0) .ok 7 = true ∧
    (run (.allocParts 1) 0x180 3 256 0).slot 7 = freshSlot (builtin 256 .ecb) := by decide +kernel

/-- V33: no such cipher, reserved modes, an empty and a too long algorithm name. -/
theorem test_alloc_parts_errors : ends (run (.allocParts 3) 0x180 3 0 0) .unsupported 0 = true ∧
    ends (run (.allocParts 0) 0x180 3 256 0) .unsupported 0 = true ∧
    ends (run (.allocParts 5) 0x180 3 256 0) .unsupported 0 = true ∧
    ends (run (.allocParts 1) 0x180 0 256 0) .name 0 = true ∧
    ends (run (.allocParts 1) 0x180 17 256 0) .name 0 = true := by decide +kernel

theorem test_free : ends (run (.free 0) 0 0 0 0) .ok 0 = true ∧
    (run (.free 0) 0 0 0 0).slot 0 = Slot.zero := by decide +kernel

/-- V33: a Free slot, and a number that names no slot. -/
theorem test_free_errors : ends (run (.free 7) 0 0 0 0) .badSlot 0 = true ∧
    ends (run (.free 200) 0 0 0 0) .badSlot 0 = true := by decide +kernel

/-- V5: the last word of the schedule of `K128`, and the zero word after it. -/
theorem test_set_key : ends (run (.setKey 4 false) 0x200 128 0 0) .ok 0 = true ∧
    keyWord ((run (.setKey 4 false) 0x200 128 0 0).slot 4).rk 43 = 0xb6630ca6 ∧
    keyWord ((run (.setKey 4 false) 0x200 128 0 0).slot 4).rk 44 = 0 ∧
    ((run (.setKey 4 false) 0x200 128 0 0).slot 4).nr = 10 := by decide +kernel

/-- V33. -/
theorem test_set_key_errors : ends (run (.setKey 4 true) 0x200 256 0 0) .keyLen 0 = true ∧
    ends (run (.setKey 4 true) 0x200 100 0 0) .keyLen 0 = true ∧
    ends (run (.setKey 4 true) 0xFFF1 128 0 0) .memRange 0 = true ∧
    ends (run (.setKey 4 true) 0xFFF0 128 0 0) .ok 0 = true := by decide +kernel

theorem test_set_iv : ends (run (.setIv 5 true) 0x300 16 0 0) .ok 0 = true ∧
    blockBytes ((run (.setIv 5 true) 0x300 16 0 0).slot 5).iv = ivc ∧
    blockBytes ((run (.setIv 5 false) 0 0 0 0).slot 5).iv = iv0 := by decide +kernel

/-- V33. -/
theorem test_set_iv_errors : ends (run (.setIv 5 true) 0x200 15 0 0) .ivLen 0 = true ∧
    ends (run (.setIv 5 true) 0x200 17 0 0) .ivLen 0 = true ∧
    ends (run (.setIv 5 true) 0xFFF1 16 0 0) .memRange 0 = true := by decide +kernel

theorem test_poke_iv : ends (run (.pokeIv 5) 0x300 0 0 0) .ok 0 = true ∧
    blockBytes ((run (.pokeIv 5) 0x300 0 0 0).slot 5).iv = ivc ∧
    ends (run (.pokeIv 5) 0xFFF1 0 0 0) .memRange 0 = true := by decide +kernel

/-- V12: one CTR block, and the counter after it. -/
theorem test_encrypt_ctr :
    let t := run (.encrypt 4 false) 0x400 0x500 16 0
    (ends t .ok 16 && mem16 t 0x500 == 0x874d6191b620e3261bef6864990db6ce &&
      be (blockBytes (t.slot 4).iv) == 0xf0f1f2f3f4f5f6f7f8f9fafbfcfdff00 && (t.slot 4).cur == 0) = true := by
  decide +kernel

/-- V23: the errors of the mode layer. -/
theorem test_encrypt_errors : ends (run (.encrypt 7 false) 0x400 0x500 16 0) .badSlot 0 = true ∧
    ends (run (.encrypt 6 false) 0x400 0x500 15 0) .notKeyed 0 = true ∧
    ends (run (.encrypt 1 false) 0x400 0x500 0 0) .direction 0 = true ∧
    ends (run (.encrypt 0 false) 0x400 0x500 15 0) .length 0 = true ∧
    ends (run (.encrypt 0 false) 0xFFF8 0x500 16 0) .memRange 0 = true ∧
    ends (run (.encrypt 0 false) 0x400 0xFFF8 16 0) .memRange 0 = true ∧
    ends (run (.encrypt 0 true) 0x400 0x500 16 0xFFF1) .memRange 0 = true ∧
    ends (run (.encrypt 0 false) 0xFFFFFFFF 0xFFFFFFFF 0 0) .ok 0 = true := by decide +kernel

/-- V11: one CBC block decrypted in place, and the IV after it. -/
theorem test_decrypt_cbc :
    let t := run (.decrypt 3 false) 0x440 0x440 16 0
    (ends t .ok 16 && mem16 t 0x440 == 0x6bc1bee22e409f96e93d7e117393172a &&
      be (blockBytes (t.slot 3).iv) == 0x7649abac8119b246cee98e9b12e9197d) = true := by
  decide +kernel

/-- V22: the direction of an ECB slot. -/
theorem test_decrypt_direction : ends (run (.decrypt 0 false) 0x420 0x500 16 0) .direction 0 = true ∧
    ends (run (.decrypt 1 true) 0x420 0x500 16 0xFFF1) .memRange 0 = true := by decide +kernel

/-- V10: one ECB block. -/
theorem test_ecb_block : blockBytes (slotEnc (keyed .ecb true iv0) (blockOfBytes plain)) =
    beBytes 16 0x3ad77bb40d7a3660a89ecaf32466ef97 := by decide +kernel

/-- V32. -/
theorem test_get_lengths : ends (run (.getBlockLen 4) 0 0 0 0) .ok 16 = true ∧
    ends (run (.getIvLen 4) 0 0 0 0) .ok 16 = true ∧ ends (run (.getKeyLen 6) 0 0 0 0) .ok 192 = true ∧
    ends (run (.getMode 4) 0 0 0 0) .ok 3 = true := by decide +kernel

/-- V32: none of them works on a Free slot. -/
theorem test_get_lengths_free : ends (run (.getBlockLen 7) 0 0 0 0) .badSlot 0 = true ∧
    ends (run (.getIvLen 7) 0 0 0 0) .badSlot 0 = true ∧
    ends (run (.getKeyLen 7) 0 0 0 0) .badSlot 0 = true ∧
    ends (run (.getMode 8) 0 0 0 0) .badSlot 0 = true := by decide +kernel

/-- V32, V33: the name without a terminator, and the last place where it fits. -/
theorem test_get_name : ends (run (.getName 4) 0xFFF5 0 0 0) .ok 11 = true ∧
    readBytes (run (.getName 4) 0xFFF5 0 0 0).mem 0xFFF5 11 = beBytes 11 0x6165732d3132382d637472 ∧
    ends (run (.getName 4) 0xFFF6 0 0 0) .memRange 0 = true := by decide +kernel

theorem test_get_alg_name : ends (run (.getAlgName 4) 0x500 0 0 0) .ok 3 = true ∧
    readBytes (run (.getAlgName 4) 0x500 0 0 0).mem 0x500 3 = beBytes 3 0x616573 ∧
    ends (run (.getAlgName 4) 0xFFFE 0 0 0) .memRange 0 = true := by decide +kernel

theorem test_get_iv : ends (run (.getIv 4) 0x500 0 0 0) .ok 16 = true ∧
    readBytes (run (.getIv 4) 0x500 0 0 0).mem 0x500 16 = ivc ∧
    ends (run (.getIv 4) 0xFFF1 0 0 0) .memRange 0 = true := by decide +kernel

/-- V32: the state words of CTR `enc`, ECB `dec`, Unkeyed and Free slots, and a number that names none. -/
theorem test_get_state : ends (run (.getState 4) 0 0 0 0) .ok 0x00030007 = true ∧
    ends (run (.getState 1) 0 0 0 0) .ok 0x0001000B = true ∧
    ends (run (.getState 6) 0 0 0 0) .ok 0x00030001 = true ∧
    ends (run (.getState 7) 0 0 0 0) .ok 0 = true ∧
    ends (run (.getState 8) 0 0 0 0) .badSlot 0 = true := by decide +kernel

/-! ### The window, reset and the block primitive -/

/-- V35: the window after reset. -/
theorem test_window_at_reset : windowRead State.reset 0x14 = 0 ∧ windowRead State.reset 0x18 = 0 ∧
    windowRead State.reset 0x20 = 0x41455343 ∧ windowRead State.reset 0x24 = 0x04201008 ∧
    windowRead State.reset 0x28 = 0x00010000 := by decide

/-- V35: status words. -/
theorem test_status_words : statusWord ⟨true, false, false, false, .ok⟩ = 0x00000001 ∧
    statusWord ⟨false, true, false, false, .ok⟩ = 0x00000002 ∧
    statusWord ⟨false, true, true, false, .length⟩ = 0x00000806 ∧
    statusWord ⟨false, true, true, true, .length⟩ = 0x0000080E ∧
    statusWord ⟨true, false, false, true, .ok⟩ = 0x00000009 := by decide

/-- V36: field and table values. -/
theorem test_field_values : gmul 0x57 0x83 = 0xc1 ∧ xtime 0x57 = 0xae ∧ ginv 0x53 = 0xca ∧
    sbox 0x53 = 0xed ∧ sbox 0xff = 0x16 ∧ invSbox 0x00 = 0x52 ∧ invSbox 0x0f = 0xfb ∧
    rconByte 9 = 0x1b ∧ rconByte 10 = 0x36 ∧ te0 0x01 = 0xf87c7c84 ∧ td0 0x01 = 0x7e416553 ∧
    imcWord 0xd6aa74fd = 0x8c56dff0 := by decide +kernel

/-- The memory after reset has the canonical form, and so has the small state's. -/
theorem test_memory_form : State.reset.mem.wf ∧ (demo .alloc 0 0 0 0).mem.wf := by decide +kernel

/-! ### Witnesses: the small state meets the invariant -/

/-- Every built-in is a legal descriptor. -/
theorem builtin_legal : ∀ d ∈ builtins, DescriptorLegal d := by
  have h : ∀ d ∈ builtins, (1 ≤ d.name.length ∧ d.name.length ≤ Config.nameMax) ∧
      (1 ≤ d.algName.length ∧ d.algName.length ≤ Config.algNameMax) ∧ (modeOf d).isSome = true ∧
      d.impl = implAes ∧ isKeyBits d.keyBits.toNat = true ∧ d.blockLen = 16 := by decide
  exact fun d hd => ⟨(h d hd).1, (h d hd).2.1, (h d hd).2.2.1, (h d hd).2.2.2.1, (h d hd).2.2.2.2.1,
    (h d hd).2.2.2.2.2⟩

theorem keyed_allocated (m : Mode) (dir : Bool) (iv : List Byte) : SlotAllocated (keyed m dir iv) where
  desc := builtin_legal (builtin 128 m) (by cases m <;> decide)
  unkeyed := fun h => absurd h (by simp [keyed, keyedSlot])
  keyed := fun _ => ⟨key128, by cases m <;> rfl, rfl, rfl⟩
  orientation := fun _ => rfl
  cursor := fun _ => ⟨rfl, rfl⟩

theorem keyed_inv (m : Mode) (dir : Bool) (iv : List Byte) : SlotInv (keyed m dir iv) := by
  unfold SlotInv
  rw [if_pos (show (keyed m dir iv).alloc = true from rfl)]
  exact keyed_allocated m dir iv

theorem unkeyed_inv : SlotInv (freshSlot (builtin 192 .ctr)) := by
  unfold SlotInv
  rw [if_pos (show (freshSlot (builtin 192 .ctr)).alloc = true from rfl)]
  exact ⟨builtin_legal (builtin 192 .ctr) (by decide), fun _ => ⟨⟨rfl, rfl, rfl, rfl⟩, rfl, rfl⟩,
    fun h => absurd h (by decide), fun h => absurd h (by decide), fun _ => ⟨rfl, rfl⟩⟩

/-- The small state meets the invariant, whatever the command and its operands. -/
theorem demo_inv (i : Instr) (a0 a1 a2 a3 : Nat) : Inv (demo i a0 a1 a2 a3) where
  params := (by decide : Params.default.Legal)
  slotCount := rfl
  slots := by
    show ∀ x ∈ demoSlots, SlotInv x
    simp only [demoSlots, List.mem_cons, List.not_mem_nil, or_false]
    rintro x (rfl | rfl | rfl | rfl | rfl | rfl | rfl | rfl)
    any_goals exact keyed_inv _ _ _
    · exact unkeyed_inv
    · simp [SlotInv, Slot.zero]
  registrySize := by show builtins.length ≤ 16; decide
  registryNames := by show builtins.Pairwise _; decide
  registryLegal := builtin_legal
  memForm := by show demoCells.Pairwise _; decide +kernel
  memInside := by show ∀ c ∈ demoCells, c.1 < 65536; decide +kernel
  errFlag := rfl
  busyDone := by rintro ⟨-, h⟩; cases h
  busyQuiet := fun _ => ⟨rfl, rfl⟩
  errorResult := fun h => absurd rfl h
  cmdLatched := rfl
  doneReadIdle := fun h => absurd h Bool.false_ne_true

/-! ### Runs -/

/-- 70_reset_and_hazards.md R321: a program that ends on its `CMD` write is not over, not even when the command
has completed; one that reads `DONE = 1` is. The word is UNREGISTER_ALL. -/
theorem test_run_ends_with_the_wait :
    (∃ t, RunsTo 2 (State.reset.withProgram [.writeWindow 0 32 0x02000200]) t ∧
      t.window.status.done = true ∧ runOver t = false) ∧
    (∃ t, RunsTo 3 (State.reset.withProgram [.writeWindow 0 32 0x02000200, .waitDone]) t ∧
      runOver t = true ∧ getAnswer (.getState 0) t = some ⟨.ok, 0, []⟩ ∧
      getAnswer (.getName 0) t = some ⟨.badSlot, 0, []⟩) :=
  ⟨⟨_, rfl, rfl, rfl⟩, _, rfl, rfl, rfl, rfl⟩

/-- What the GET commands would return for the CTR slot of the small state. -/
theorem test_observed_answers : getAnswer (.getIv 4) (demo .alloc 0 0 0 0) = some ⟨.ok, 16, ivc⟩ ∧
    getAnswer (.getKeyLen 4) (demo .alloc 0 0 0 0) = some ⟨.ok, 128, []⟩ := by decide +kernel

/-- A host program that writes a byte and reads it back, right after power-up. -/
def writeThenRead : State := State.reset.withProgram [.writeMem 0x40 7, .readMem 0x40]

/-- After the write. -/
def afterWrite : State :=
  { writeThenRead with mem := ⟨0, [(0x40, 7)]⟩, host := { writeThenRead.host with index := 1 } }

/-- After the read. -/
def afterRead : State :=
  { afterWrite with host := { afterWrite.host with index := 2, replies := [.byte 7] } }

theorem writeThenRead_runs {k : Nat} {t : State} (h : RunsTo k writeThenRead t) :
    t = writeThenRead ∨ t = afterWrite ∨ t = afterRead := by
  have stay : ∀ k t, RunsTo k afterRead t → t = afterRead := fun k => by
    induction k with
    | zero => intro t h; cases h; rfl
    | succ k ih => exact fun t h => ih t h
  match k, h with
  | 0, h => cases h; exact .inl rfl
  | 1, h => cases h; exact .inr (.inl rfl)
  | k + 2, h => exact .inr (.inr (stay k t h))

/-- The launch premises hold of that program: the byte that it reads is the one that it wrote. -/
theorem writeThenRead_launch : Launch writeThenRead where
  start := ⟨rfl, rfl⟩
  engine := ⟨writeThenRead, 0, writeThenRead,
    ⟨(by decide : Params.default.Legal), List.Pairwise.nil, (by intro c h; cases h), rfl⟩, rfl, rfl⟩
  idle := rfl
  noOverrun := rfl
  given := by
    intro k t a h hr
    obtain ⟨v, hr⟩ := hr
    rcases writeThenRead_runs h with rfl | rfl | rfl
    · refine absurd ⟨rfl, fun x hx => ?_, ?_⟩ hr
      · show memRead (memWrite (memWrite writeThenRead.mem a v) 0x40 7) x = _
        rw [memRead_memWrite, memRead_memWrite_ne _ v (Ne.symm hx), ← memRead_memWrite]
        rfl
      · by_cases ha : (0x40 : Nat) = a
        · subst ha
          exact .inl (memRead_memWrite_self (memWrite writeThenRead.mem 0x40 v) 0x40 7)
        · refine .inr ⟨if_neg ha, ?_⟩
          show lookupCell (insertCell (insertCell [] a v) 0x40 7) a = _
          rw [lookupCell_insertCell, if_neg ha]
          rfl
    · by_cases ha : a = 0x40
      · subst ha
        rfl
      · have hb : memRead (afterWrite.withByte a v).mem 0x40 = 7 :=
          (memRead_memWrite_ne afterWrite.mem v ha).trans rfl
        have e : step (afterWrite.withByte a v) = .next (afterRead.withByte a v) := by
          show Host.Outcome.next _ = _
          simp only [hb]
          rfl
        refine absurd ?_ hr
        rw [SameButByte, e]
        exact ⟨rfl, fun x hx => memRead_memWrite_ne _ v (Ne.symm hx), .inr ⟨rfl, rfl⟩⟩
    · refine absurd ⟨rfl, fun x hx => memRead_memWrite_ne _ v (Ne.symm hx), .inr ⟨rfl, rfl⟩⟩ hr

/-- The read of the written byte depends on it, so premise (4) asks that it has a value. -/
theorem test_step_reads : StepReads afterWrite 0x40 :=
  ⟨8, fun h => absurd (congrArg (fun s => s.host.replies) h.1) (by decide)⟩

/-! ### Witnesses: encoding and the step -/

theorem witness_DecodeEncodeRoundTrip : (Instr.setKey 255 true).WellFormed ∧
    (Instr.allocParts 15).WellFormed := by decide

theorem witness_DecodedWordsEncodeBack : decode 0x13010000 = .ok (.setKey 1 false) := by decide

theorem witness_OpcodeRowsDisjoint : ∃ r ∈ opcodeMap, r.covers 0x12030000 = true :=
  ⟨⟨.free, 0x12000000, 0xFF00FFFF⟩, by decide, by decide⟩

/-- Both ends of every reserved range of opcodes, the two ends of the reserved bits, and a state. -/
theorem witness_ReservedWordsRaiseIllegal :
    (opcField 0x00000000 = 0x00 ∧ opcField 0x04000000 = 0x04 ∧ opcField 0x0F000000 = 0x0F ∧
      opcField 0x16000000 = 0x16 ∧ opcField 0x1F000000 = 0x1F ∧ opcField 0x22000000 = 0x22 ∧
      opcField 0x2F000000 = 0x2F ∧ opcField 0x38000000 = 0x38 ∧ opcField 0xFF000000 = 0xFF) ∧
    (field 0x10000001 0 10 ≠ 0 ∧ field 0x37000200 0 10 ≠ 0) ∧
    (let s := { demo .alloc 0 0 0 0 with latch := { Latch.zero with cmd := 0xFF000000 } }
     s.window.status.busy = true ∧ EngineDue s ∧
       decode s.latch.cmd = .error (.reservedOpcode 0xFF)) := by decide

theorem witness_StepRunsDecodedCommand :
    let s := demo (.free 0) 0 0 0 0
    s.window.status.busy = true ∧ EngineDue s ∧ decode s.latch.cmd = .ok (.free 0) := by decide

theorem witness_FetchedWordRuns : (Instr.getState 255).WellFormed := by decide

/-- A state whose host has one action left, with this much time before the completion. -/
def waiting (act : HostAction) (delay : Nat) : State :=
  { demo .alloc 0x100 11 0 0 with delay := delay, host := ⟨[act], 0, [], false⟩ }

/-- An idle engine, and a command in progress that the host does not wait for. -/
theorem witness_HostActsWhenEngineIsNotDue : State.reset.window.status.busy = false ∧
    State.reset.nextAction = none ∧ ¬ EngineDue (waiting (.readMem 0) 1) ∧
    (waiting (.readMem 0) 1).nextAction = some (.readMem 0) := by decide

/-- A command that ends, and one that comes nearer to its end. -/
theorem witness_CommandsInProgressEnd : (demo (.free 0) 0 0 0 0).window.status.busy = true ∧
    (∃ t, step (demo (.free 0) 0 0 0 0) = .next t) ∧
    (waiting (.writeWindow 0 32 0) 5).window.status.busy = true ∧
    ∃ t, step (waiting (.writeWindow 0 32 0) 5) = .next t ∧ t.delay = 4 :=
  ⟨rfl, ⟨_, rfl⟩, rfl, ⟨_, rfl, rfl⟩⟩

/-! ### Witnesses: the host's moves -/

theorem witness_CmdWriteIsAccepted : State.reset.window.status.busy = false ∧
    (demo .alloc 0 0 0 0).window.status.busy = true := ⟨rfl, rfl⟩

/-- A busy engine, an idle one with `OVR = 1`, a step that keeps `OVR`, and one that clears it. -/
theorem witness_OverrunOnlySetsOvr : (demo .alloc 0 0 0 0).window.status.busy = true ∧
    (let idle := fun act => { State.reset with
        window := { Window.zero with status := { Status.zero with ovr := true } }, host := ⟨[act], 0, [], true⟩ }
     (idle (.readMem 0)).window.status.busy = false ∧ (idle (.readMem 0)).window.status.ovr = true ∧
      (∃ t, step (idle (.readMem 0)) = .next t ∧ t.window.status.ovr = true) ∧
      ∃ t, step (idle (.writeWindow 0x1C 32 2)) = .next t ∧ t.window.status.ovr = false) :=
  ⟨rfl, rfl, rfl, ⟨_, rfl, rfl⟩, _, rfl, rfl⟩

/-- The first and the last reserved offset. -/
theorem witness_WindowReadsGiveTheRegisters : (0x2C : Nat) ≤ 0x2C ∧ 0x2C < 0x40 ∧ 0x2C % 4 = 0 ∧
    0x2C ≤ 0x3C ∧ 0x3C < 0x40 ∧ 0x3C % 4 = 0 := by decide

/-- The smallest, the largest and the default parameters. -/
theorem witness_WindowWordLayouts : (State.resetWith ⟨1, 12, 64, false⟩).params.Legal ∧
    (State.resetWith ⟨256, 255, 2 ^ 32, true⟩).params.Legal ∧ State.reset.params.Legal := by decide

/-- Both bits, each alone, and neither: `SRST` wins. -/
theorem witness_CtrlWritesResetOrClear : (3 : Word).getLsbD 0 = true ∧
    ((2 : Word).getLsbD 0 = false ∧ (2 : Word).getLsbD 1 = true) ∧
    ((4 : Word).getLsbD 0 = false ∧ (4 : Word).getLsbD 1 = false) := by decide

theorem witness_OddWindowAccessesAreRefused : (16 : Nat) ≠ 32 ∧ (2 : Nat) % 4 ≠ 0 ∧
    (0x40 : Nat) ≤ 0x40 := by decide

/-- The last byte of a range and the first byte after it; an idle engine. -/
theorem witness_HostMemMovesAvoidRunningRanges :
    let s := waiting (.readMem 0x10A) 1
    (0x10A < s.params.memSize ∧ s.window.status.busy = true ∧ decode s.latch.cmd = .ok .alloc ∧
      ∃ r ∈ commandRanges .alloc s, r.1 ≤ 0x10A ∧ 0x10A < r.1 + r.2) ∧
    (0x10B < s.params.memSize ∧ ∀ r ∈ commandRanges .alloc s, 0x10B < r.1 ∨ r.1 + r.2 ≤ 0x10B) ∧
    State.reset.window.status.busy = false ∧ 0xFFFF < State.reset.params.memSize := by decide

/-! ### Witnesses: errors -/

theorem witness_ErrorsArePrecise : ∃ t, exec (.free 7) (demo (.free 7) 0 0 0 0) = .next t ∧
    t.window.status.errcode = .badSlot := ⟨_, rfl, by decide⟩

theorem witness_FailedCommandsFailAgain :
    ∃ t, exec (.encrypt 0 false) (demo (.encrypt 0 false) 0x400 0x500 15 0) = .next t ∧
      t.window.status.errcode ≠ .ok := ⟨_, rfl, by decide⟩

/-- Both ends of the modes, and the reserved modes beside them. -/
theorem witness_AllocErrorOrder : ¬ (1 ≤ 0 ∧ 0 ≤ 4) ∧ ¬ (1 ≤ 5 ∧ 5 ≤ 4) ∧ modeOfCode 1 = some .ecb ∧
    modeOfCode 4 = some .cfb := by decide

/-! ### Witnesses: registry and lifecycle -/

/-- The valid record at 0x600, and its name, which is known. -/
theorem witness_RegisterPutsDescriptorLast :
    let s := demo .register 0x600 0 0 0
    let b := fun i => (memRead s.mem (s.arg0 + i)).toNat
    UniqueNames s ∧ s.arg0 + 64 ≤ s.params.memSize ∧ 1 ≤ b 0 ∧ b 0 ≤ 32 ∧ 1 ≤ b 1 ∧ b 1 ≤ 16 ∧
      1 ≤ b 2 ∧ b 2 ≤ 4 ∧ b 3 = 1 ∧ KeyBitsLegal (b 4 + 256 * b 5) ∧ b 6 + 256 * b 7 = 16 ∧
      (∃ e ∈ s.registry, e.name = readBytes s.mem (s.arg0 + 8) (b 0)) ∧
      s.registry.length < s.params.regMax := by decide +kernel

theorem witness_UnregisterRemovesEntries :
    let s := demo .unregister 0x100 11 0 0
    UniqueNames s ∧ NameOperandOk s ∧
      ∃ e ∈ s.registry, e.name = readBytes s.mem s.arg0 s.arg1 := by decide +kernel

theorem witness_ResolveWritesTheRecord :
    let s := demo .resolve 0x100 11 0xFFC0 0
    (UniqueNames s ∧ NameOperandOk s ∧ s.arg2 + 64 ≤ s.params.memSize ∧
      s.registry[5]? = some (builtin 128 .ctr) ∧
      (builtin 128 .ctr).name = readBytes s.mem s.arg0 s.arg1) ∧ DescriptorLegal (builtin 128 .ctr) :=
  ⟨by decide +kernel, builtin_legal _ (by decide)⟩

theorem witness_RecordRoundTrip : DescriptorLegal (builtin 256 .cbc) := builtin_legal _ (by decide)

theorem witness_DecimalFormIsExact : 4294967295 < 2 ^ 32 ∧ (0 : Nat) < 2 ^ 32 := by decide

theorem witness_AllocTakesLowestFreeSlot :
    let s := demo .alloc 0x100 11 0 0
    UniqueNames s ∧ NameOperandOk s ∧ s.registry[5]? = some (builtin 128 .ctr) ∧
      (builtin 128 .ctr).name = readBytes s.mem s.arg0 s.arg1 ∧ 7 < s.slots.length ∧
      (s.slot 7).alloc = false ∧ ∀ j, j < 7 → (s.slot j).alloc = true := by decide +kernel

theorem witness_AllocPartsTakesCanonicalName :
    let s := demo (.allocParts 1) 0x180 3 256 0
    UniqueNames s ∧ modeOfCode 1 = some .ecb ∧ 1 ≤ s.arg1 ∧ s.arg1 ≤ 16 ∧
      s.arg0 + s.arg1 ≤ s.params.memSize ∧ s.registry[9]? = some (builtin 256 .ecb) ∧
      (builtin 256 .ecb).name = readBytes s.mem s.arg0 s.arg1 ++ [0x2d] ++ decimal s.arg2 ++ [0x2d] ++
        modeName .ecb ∧
      (builtin 256 .ecb).name.length ≤ 32 ∧ 7 < s.slots.length ∧ (s.slot 7).alloc = false ∧
      ∀ j, j < 7 → (s.slot j).alloc = true := by decide +kernel

theorem witness_FreeZeroesTheSlot : Live (demo (.free 0) 0 0 0 0) 0 := by decide

/-- A key that ends with `MEM`, for a decryption-oriented and an encryption-oriented schedule. -/
theorem witness_SetKeyStoresTheSchedule :
    let s := demo (.setKey 0 false) 0xFFF0 128 0 0
    Live s 0 ∧ Live s 4 ∧ KeyBitsLegal s.arg1 ∧ s.arg1 = (s.slot 0).desc.keyBits.toNat ∧
      s.arg1 = (s.slot 4).desc.keyBits.toNat ∧ s.arg0 + s.arg1 / 8 ≤ s.params.memSize := by decide

theorem witness_SetIvAndPokeIvWriteTheIv :
    let s := demo (.setIv 5 true) 0xFFF0 16 0 0
    Live s 5 ∧ s.arg1 = 16 ∧ s.arg0 + 16 ≤ s.params.memSize := by decide

/-! ### Witnesses: accessors -/

theorem witness_ValueAccessorsAnswer : Live (demo (.getMode 6) 0 0 0 0) 6 := by decide

/-- The last places where the name, the algorithm name and the IV fit. -/
theorem witness_ByteAccessorsWrite : Live (demo (.getName 4) 0 0 0 0) 4 ∧
    (let s := demo (.getName 4) 0xFFF5 0 0 0; RangeOk s s.arg0 (s.slot 4).desc.name.length) ∧
    (let s := demo (.getAlgName 4) 0xFFFD 0 0 0; RangeOk s s.arg0 (s.slot 4).desc.algName.length) ∧
    (let s := demo (.getIv 4) 0xFFF0 0 0 0; RangeOk s s.arg0 16) := by decide

/-- A Free slot and an allocated one, the last slot among them. -/
theorem witness_GetStateShowsTheSlot :
    let s := demo (.getState 7) 0 0 0 0
    7 < s.params.nslots ∧ (s.slot 7).alloc = false ∧ (s.slot 6).alloc = true := by decide

/-! ### Witnesses: the mode layer -/

theorem crypt_ok (i : Instr) (k : Nat) (ivp w : Bool) (n : Nat)
    (h : k < 6 ∧ (n % 16 = 0 ∨ 4 ≤ k) ∧ n ≤ 32 ∧ ((demoSlots.getD k Slot.zero).sched ≠ w ∨ 4 ≤ k)) :
    CryptOk (demo i 0x400 0x400 n 0x300) k ivp w := by
  obtain ⟨hk, hn, hn', hs⟩ := h
  have e : (toWord n).toNat = n := by simp [toWord]; omega
  have hr : RangeOk (demo i 0x400 0x400 n 0x300) 0x400 n := .inr (by
    show 0x400 + n ≤ 65536
    omega)
  have hk' : k = 0 ∨ k = 1 ∨ k = 2 ∨ k = 3 ∨ k = 4 ∨ k = 5 := by omega
  refine ⟨⟨?_, ?_⟩, ?_, ?_, ?_, ?_, ?_, ?_⟩
  · show k < 8; omega
  · rcases hk' with rfl | rfl | rfl | rfl | rfl | rfl <;> rfl
  · rcases hk' with rfl | rfl | rfl | rfl | rfl | rfl <;> rfl
  · intro hb
    rcases hs with hs | hs
    · exact hs
    · rcases hk' with rfl | rfl | rfl | rfl | rfl | rfl <;> first | omega | (revert hb; exact of_decide_eq_true rfl)
  · intro hb
    show (toWord n).toNat % 16 = 0
    rw [e]
    rcases hn with hn | hn
    · exact hn
    · rcases hk' with rfl | rfl | rfl | rfl | rfl | rfl <;> first | omega | (revert hb; exact of_decide_eq_true rfl)
  · show RangeOk _ _ (toWord n).toNat
    rw [e]; exact hr
  · show RangeOk _ _ (toWord n).toNat
    rw [e]; exact hr
  · intro _; show 0x300 + 16 ≤ 65536; decide

theorem witness_CryptCompletesInItsFrame :
    CryptOk (demo (.encrypt 0 false) 0x400 0x400 16 0x300) 0 false true ∧
    CryptOk (demo (.decrypt 3 false) 0x400 0x400 0 0x300) 3 false false :=
  ⟨crypt_ok _ 0 _ _ 16 (by decide), crypt_ok _ 3 _ _ 0 (by decide)⟩

theorem witness_OverrideIvIsForTheCallOnly :
    CryptOk (demo (.encrypt 2 true) 0x400 0x400 32 0x300) 2 true true ∧
    CryptOk (demo (.decrypt 3 true) 0x400 0x400 32 0x300) 3 true false :=
  ⟨crypt_ok _ 2 _ _ 32 (by decide), crypt_ok _ 3 _ _ 32 (by decide)⟩

/-- In place, with the destination right after the source, and one block that overlaps. -/
theorem witness_PlainAliasing : PlainAliasing (demo (.encrypt 0 false) 0x400 0x400 16 0x300) ∧
    PlainAliasing (demo (.encrypt 0 false) 0x400 0x410 16 0x300) ∧
    (demo (.encrypt 0 false) 0x400 0x408 16 0x300).arg2 = 16 := by decide

theorem witness_EcbTransformsEachBlock :
    (modeOf ((demo (.encrypt 0 false) 0x400 0x400 16 0x300).slot 0).desc = some .ecb ∧
      PlainAliasing (demo (.encrypt 0 false) 0x400 0x400 16 0x300) ∧
      CryptOk (demo (.encrypt 0 false) 0x400 0x400 16 0x300) 0 false true) ∧
    modeOf ((demo (.decrypt 1 false) 0x400 0x400 16 0x300).slot 1).desc = some .ecb ∧
      PlainAliasing (demo (.decrypt 1 false) 0x400 0x400 16 0x300) ∧
      CryptOk (demo (.decrypt 1 false) 0x400 0x400 16 0x300) 1 false false :=
  ⟨⟨by decide, by decide, crypt_ok _ 0 _ _ 16 (by decide)⟩, by decide, by decide,
    crypt_ok _ 1 _ _ 16 (by decide)⟩

theorem witness_CbcChainsBlocks :
    (modeOf ((demo (.encrypt 2 false) 0x400 0x400 32 0x300).slot 2).desc = some .cbc ∧
      PlainAliasing (demo (.encrypt 2 false) 0x400 0x400 32 0x300) ∧
      CryptOk (demo (.encrypt 2 false) 0x400 0x400 32 0x300) 2 false true) ∧
    modeOf ((demo (.decrypt 3 false) 0x400 0x400 32 0x300).slot 3).desc = some .cbc ∧
      PlainAliasing (demo (.decrypt 3 false) 0x400 0x400 32 0x300) ∧
      CryptOk (demo (.decrypt 3 false) 0x400 0x400 32 0x300) 3 false false :=
  ⟨⟨by decide, by decide, crypt_ok _ 2 _ _ 32 (by decide)⟩, by decide, by decide,
    crypt_ok _ 3 _ _ 32 (by decide)⟩

/-- 5 bytes, so that a begun block is left, and an override. -/
theorem witness_CtrXorsTheKeystream :
    let s := demo (.encrypt 4 false) 0x400 0x400 5 0x300
    CryptOk s 4 false true ∧ CryptOk s 4 true true ∧ modeOf (s.slot 4).desc = some .ctr ∧
      PlainAliasing s ∧ (startCur s 4 false + s.arg2) % 16 = 5 :=
  ⟨crypt_ok _ 4 _ _ 5 (by decide), crypt_ok _ 4 _ _ 5 (by decide), by decide, by decide, by decide⟩

/-- 21 bytes: a whole block and a begun one. -/
theorem witness_CfbFeedsBackTheCiphertext :
    let s := demo (.encrypt 5 false) 0x400 0x400 21 0x300
    CryptOk s 5 false true ∧ modeOf (s.slot 5).desc = some .cfb ∧ PlainAliasing s :=
  ⟨crypt_ok _ 5 _ _ 21 (by decide), by decide, by decide⟩

theorem witness_CtrDecryptIsEncrypt :
    modeOf ((demo (.decrypt 4 true) 0 0 0 0).slot 4).desc = some .ctr := by decide

/-- A split of 20 bytes on the CTR and the CFB slot, and of two blocks on a CBC slot. -/
theorem witness_StreamingEquivalence :
    let s := demo (.encrypt 4 false) 0 0 0 0
    s.params.Legal ∧ [5, 0, 15].sum < 2 ^ 32 ∧ [16, 16].sum < 2 ^ 32 ∧
      CryptOk (withArgs s 0x400 0x400 [5, 0, 15].sum 0) 4 false true ∧
      CryptOk (withArgs s 0x400 0x400 [5, 0, 15].sum 0) 5 false false ∧
      CryptOk (withArgs s 0x400 0x400 [16, 16].sum 0) 3 false false ∧ ∀ n ∈ [16, 16], n % 16 = 0 := by
  refine ⟨by decide, by decide, by decide, ?_, ?_, ?_, by decide⟩
  · exact ⟨by decide, rfl, by decide, by decide, by decide, by decide, by decide⟩
  · exact ⟨by decide, rfl, by decide, by decide, by decide, by decide, by decide⟩
  · exact ⟨by decide, rfl, by decide, by decide, by decide, by decide, by decide⟩

/-- CBC slots 2 and 3, one block, to another place and back over the plaintext. -/
theorem witness_DecryptRestoresThePlaintext :
    let s := demo (.encrypt 2 false) 0 0 0 0
    (s.slot 3).desc = (s.slot 2).desc ∧ 8 * key128.length = (s.slot 2).desc.keyBits.toNat ∧
      KeyBitsLegal (s.slot 2).desc.keyBits.toNat ∧ (modeOf (s.slot 2).desc).isSome = true ∧
      Live s 2 ∧ Live s 3 ∧ (s.slot 2).keyed = true ∧ (s.slot 3).keyed = true ∧
      (s.slot 2).nr.val = keyNr key128 ∧ (s.slot 3).nr.val = keyNr key128 ∧ (s.slot 2).sched = false ∧
      (s.slot 2).rk = padWords (encryptSchedule key128) ∧
      (s.slot 3).sched = decide (BlockMode (s.slot 3)) ∧
      (s.slot 3).rk = padWords (if BlockMode (s.slot 3) then decryptSchedule key128
        else encryptSchedule key128) ∧
      (s.slot 2).cur = 0 ∧ (s.slot 3).cur = 0 ∧ (s.slot 3).iv = (s.slot 2).iv ∧
      RangeOk s 0x400 16 ∧ RangeOk s 0xFFF0 16 ∧ PlainAliasing (withArgs s 0x400 0xFFF0 16 0) ∧
      PlainAliasing (withArgs s 0xFFF0 0x400 16 0) := by
  refine ⟨rfl, rfl, by decide, rfl, by decide, by decide, rfl, rfl, rfl, rfl, rfl, rfl, by decide, ?_,
    rfl, rfl, rfl, by decide, by decide, by decide, by decide⟩
  rw [if_pos (by decide)]
  rfl

/-! ### Witnesses: the block primitive -/

theorem witness_SboxFollowsTheField : (0x53 : Byte) ≠ 0 := by decide

/-- Keys of each length. -/
theorem witness_KeySchedulesFollowTheRecurrence : (List.replicate 16 (0 : Byte)).length = 4 * 4 ∧
    (List.replicate 24 (0 : Byte)).length = 4 * 6 ∧ (List.replicate 32 (0 : Byte)).length = 4 * 8 := by
  decide

theorem witness_AesDecInvertsAesEnc : key128.length = 16 := by decide

/-! ### Witnesses: isolation and the whole machine -/

theorem witness_SlotsDoNotInterfere : (Instr.encrypt 0 false).slot? = some 0 ∧ (1 : Nat) ≠ 0 ∧
    1 < (demo (.encrypt 0 false) 0x400 0x500 16 0).slots.length ∧ Instr.alloc.slot? = none ∧
    Slot.zero.alloc = ((demo .alloc 0x100 11 0 0).slot 7).alloc ∧
    7 < (demo .alloc 0x100 11 0 0).slots.length := by decide

theorem witness_KeyMaterialStaysInside : ∀ k ivp, Instr.getIv 4 ≠ .encrypt k ivp ∧
    Instr.getIv 4 ≠ .decrypt k ivp := by simp

/-- A command that changes a byte, and a memory that agrees on its ranges only. -/
theorem witness_CommandsStayInTheirRanges :
    let s := demo (.getIv 4) 0x400 0 0 0
    Inv s ∧ (exec (.getIv 4) s = .next (run (.getIv 4) 0x400 0 0 0) ∧
      memRead (run (.getIv 4) 0x400 0 0 0).mem 0x400 ≠ memRead s.mem 0x400) ∧
    ∀ r ∈ commandRanges (.getIv 4) s, ∀ a, r.1 ≤ a → a < r.1 + r.2 →
      memRead (memWrite s.mem 0x500 0) a = memRead s.mem a := by
  refine ⟨demo_inv _ _ _ _ _, ⟨rfl, by decide +kernel⟩, ?_⟩
  intro r hr a h1 h2
  have hr : r = (0x400, 16) := List.mem_singleton.mp hr
  subst hr
  exact memRead_memWrite_ne _ _ (by simp at h2; omega)

/-- Every clause: an allocation, FREE of a keyed slot, SETKEY of an Unkeyed one, an orientation that
changes, and a slot that stays. -/
theorem witness_SlotsFollowTheirStateMachine :
    (∀ i a0 a1 a2 a3, Inv (demo i a0 a1 a2 a3)) ∧
    ((demo .alloc 0x100 11 0 0).slot 7).alloc = false ∧ ((run .alloc 0x100 11 0 0).slot 7).alloc = true ∧
    ((demo (.free 0) 0 0 0 0).slot 0).alloc = true ∧ ((run (.free 0) 0 0 0 0).slot 0).alloc = false ∧
    ((demo (.setKey 6 true) 0x200 192 0 0).slot 6).keyed = false ∧
    ((run (.setKey 6 true) 0x200 192 0 0).slot 6).keyed = true ∧
    ((demo (.free 0) 0 0 0 0).slot 0).keyed = true ∧ ((run (.free 0) 0 0 0 0).slot 0).keyed = false ∧
    ((run (.setKey 0 false) 0x200 128 0 0).slot 0).sched ≠
      ((demo (.setKey 0 false) 0x200 128 0 0).slot 0).sched ∧
    ((run (.free 1) 0 0 0 0).slot 0).alloc = true :=
  ⟨demo_inv, by decide +kernel⟩

theorem witness_StepKeepsInvariant : Inv (demo (.free 0) 0 0 0 0) ∧
    ∃ t, step (demo (.free 0) 0 0 0 0) = .next t := ⟨demo_inv _ _ _ _ _, _, rfl⟩

theorem witness_ResetStateIsAsGiven : Params.default.Legal := by decide

end Sys2Proof.Tests
end

section
/-! What a command reads of the slots: its own slot, or, without a `SLOT` field, the `ALLOC` bits
(10_state.md R48). -/

namespace Sys2Proof.Machine

/-! ### What does not depend on the slots -/

section operands
variable (s : State) (j : Nat) (x : Slot)

@[simp] theorem setSlot_nameOperand : nameOperand (s.setSlot j x) = nameOperand s := rfl
@[simp] theorem setSlot_keyOperand : keyOperand (s.setSlot j x) = keyOperand s := rfl
@[simp] theorem setSlot_partsName (m : Nat) : partsName (s.setSlot j x) m = partsName s m := rfl
@[simp] theorem setSlot_outOfRange (a n : Nat) :
    outOfRange (s.setSlot j x) a n = outOfRange s a n := rfl
@[simp] theorem setSlot_nameOperandChecks :
    nameOperandChecks (s.setSlot j x) = nameOperandChecks s := rfl

end operands

/-! ### What depends on one slot, or on the `ALLOC` bits -/

section reads
variable {s : State} {j k : Nat} {x : Slot}

theorem slotChecks_setSlot_ne (h : k ≠ j) : slotChecks (s.setSlot j x) k = slotChecks s k := by
  rw [slotChecks, setSlot_slot_ne h]
  rfl

theorem startWork_setSlot_ne (h : k ≠ j) (ivp : Bool) :
    startWork (s.setSlot j x) k ivp = startWork s k ivp := by
  simp [startWork, setSlot_slot_ne h]

theorem cryptChecks_setSlot_ne (h : k ≠ j) (ivp wrongSched : Bool) :
    cryptChecks (s.setSlot j x) k ivp wrongSched = cryptChecks s k ivp wrongSched := by
  simp [cryptChecks, slotChecks_setSlot_ne h, setSlot_slot_ne h]

/-- The `ALLOC` bits are all that the search for a Free slot reads (43_instance.md R231). -/
theorem firstFree_setSlot_of_alloc (hj : j < s.slots.length) (hx : x.alloc = (s.slot j).alloc) :
    (s.setSlot j x).firstFree = s.firstFree := by
  have hbits : (s.slots.set j x).map Slot.alloc = s.slots.map Slot.alloc := by
    rw [List.map_set, hx, slot_getElem hj, ← List.getElem_map Slot.alloc, List.set_getElem_self]
    simpa using hj
  have hfree (l : List Slot) :
      l.findIdx? (fun y => !y.alloc) = (l.map Slot.alloc).findIdx? (fun b => !b) := by
    simp [List.findIdx?_map, Function.comp_def]
  simp only [State.firstFree, setSlot_slots, hfree, hbits]

end reads

/-! ### A slot that a command does not read -/

/-- The command does not read what `x` changes in `slot[j]`: it names another slot, or it names none and its
search for a Free slot, the one way in which it reads slots, comes out the same (10_state.md R48). -/
structure SlotUnread (i : Instr) (s : State) (j : Nat) (x : Slot) : Prop where
  named : ∀ k, i.slot? = some k → k ≠ j
  unnamed : i.slot? = none → (s.setSlot j x).firstFree = s.firstFree

section unread
variable {i : Instr} {s : State} {j k : Nat} {x : Slot}

theorem SlotUnread.of_slot (hi : i.slot? = some k) (hj : j ≠ k) : SlotUnread i s j x where
  named k' hk' := by
    obtain rfl : k = k' := by simpa [hi] using hk'
    exact hj.symm
  unnamed hn := by simp [hi] at hn

theorem SlotUnread.of_alloc (hi : i.slot? = none) (hj : j < s.slots.length)
    (hx : x.alloc = (s.slot j).alloc) : SlotUnread i s j x where
  named k hk := by simp [hi] at hk
  unnamed _ := firstFree_setSlot_of_alloc hj hx

theorem checksOf_setSlot (h : SlotUnread i s j x) : checksOf i (s.setSlot j x) = checksOf i s := by
  obtain ⟨hk, hf⟩ := h
  cases i <;> simp only [Instr.slot?, Option.some.injEq, forall_eq', forall_const, reduceCtorEq] at hk hf
  case free | getBlockLen | getIvLen | getKeyLen | getMode => exact slotChecks_setSlot_ne hk
  case encrypt | decrypt => exact cryptChecks_setSlot_ne hk _ _
  case alloc => simp [checksOf, allocChecks, noFreeSlot, hf]
  case allocParts =>
    simp only [checksOf, allocPartsChecks, noFreeSlot, hf]
    rfl
  case setKey | setIv | pokeIv | getName | getAlgName | getIv =>
    simp [checksOf, setKeyChecks, setIvChecks, pokeIvChecks, slotChecks_setSlot_ne hk, setSlot_slot_ne hk]
  case register | unregister | unregisterAll | resolve | getState => rfl

theorem registryAfter_setSlot : registryAfter i (s.setSlot j x) = registryAfter i s := by
  cases i <;> rfl

theorem memAfter_setSlot (h : SlotUnread i s j x) : memAfter i (s.setSlot j x) = memAfter i s := by
  have hk := h.named
  cases i
  case encrypt | decrypt =>
    simp [memAfter, setSlot_slot_ne (hk _ rfl), startWork_setSlot_ne (hk _ rfl)]
  case getName | getAlgName | getIv => simp [memAfter, setSlot_slot_ne (hk _ rfl)]
  all_goals rfl

theorem slotWritten_setSlot (h : SlotUnread i s j x) :
    slotWritten i (s.setSlot j x) = slotWritten i s := by
  obtain ⟨hk, hf⟩ := h
  cases i
  case alloc | allocParts => simp [slotWritten, freeIndex, hf rfl]
  case encrypt ivp | decrypt ivp =>
    cases ivp
    · simp [slotWritten, setSlot_slot_ne (hk _ rfl), startWork_setSlot_ne (hk _ rfl)]
    · rfl
  case setKey | setIv | pokeIv => simp [slotWritten, setSlot_slot_ne (hk _ rfl)]
  all_goals rfl

theorem valueOf_setSlot (h : SlotUnread i s j x) : valueOf i (s.setSlot j x) = valueOf i s := by
  obtain ⟨hk, hf⟩ := h
  cases i
  case alloc | allocParts => simp [valueOf, freeIndex, hf rfl]
  case getBlockLen | getIvLen | getKeyLen | getName | getAlgName | getMode | getState =>
    simp [valueOf, setSlot_slot_ne (hk _ rfl)]
  all_goals rfl

/-- A command with a `SLOT` field writes the slot that it names and no other. -/
theorem slotWritten_index {p : Nat × Slot} (hi : i.slot? = some k) (hp : slotWritten i s = some p) :
    p.1 = k := by
  cases i
  case encrypt ivp | decrypt ivp =>
    cases ivp
    · cases hi; cases hp; rfl
    · cases hp
  case free | setKey | setIv | pokeIv => cases hi; cases hp; rfl
  case alloc | allocParts => cases hi
  all_goals cases hp

end unread

/-! ### The whole command -/

section whole
variable {i : Instr} {s : State} {j k : Nat} {x : Slot}

theorem finish_setSlot (l : List (Bool × ErrCode)) (eff : State) (v : Word) :
    (s.setSlot j x).finish l (eff.setSlot j x) v = (s.finish l eff v).setSlot j x := by
  cases hf : firstFailure l with
  | none => rw [finish_none _ _ hf, finish_none _ _ hf]; rfl
  | some e => rw [finish_some _ _ hf, finish_some _ _ hf]; rfl

/-- The effect of a command on `slot[k]` and a write of another slot commute. -/
theorem effectOf_setSlot (hi : i.slot? = some k) (hj : j ≠ k) :
    effectOf i (s.setSlot j x) = (effectOf i s).setSlot j x := by
  have hu : SlotUnread i s j x := .of_slot hi hj
  have hslots : slotsAfter i (s.setSlot j x) = (slotsAfter i s).set j x := by
    rw [slotsAfter, slotWritten_setSlot hu, slotsAfter]
    cases hw : slotWritten i s with
    | none => rfl
    | some p =>
      obtain ⟨n, y⟩ := p
      obtain rfl : n = k := slotWritten_index hi hw
      exact List.set_comm x y hj
  rw [effectOf, registryAfter_setSlot, hslots, memAfter_setSlot hu]
  rfl

/-- A command on `slot[k]` does the same whatever another slot holds (10_state.md R48). -/
theorem stateAfter_setSlot (hi : i.slot? = some k) (hj : j ≠ k) :
    stateAfter i (s.setSlot j x) = (stateAfter i s).setSlot j x := by
  have hu : SlotUnread i s j x := .of_slot hi hj
  rw [stateAfter, checksOf_setSlot hu, effectOf_setSlot hi hj, valueOf_setSlot hu, finish_setSlot]
  rfl

/-- A command on `slot[k]` leaves every other slot as it was (10_state.md R48). -/
theorem stateAfter_slot_ne (hi : i.slot? = some k) (hj : j ≠ k) :
    (stateAfter i s).slot j = s.slot j := by
  rcases exec_cases (exec_eq i s) with ⟨e, -, ht⟩ | ⟨-, ht⟩
  · rw [stateAfter, ht, complete_slot]
  · rw [stateAfter, ht, complete_slot, slot_eq_getD, effectOf_slots, slotsAfter_getD]
    cases hw : slotWritten i s with
    | none => rfl
    | some p =>
      obtain rfl : p.1 = k := slotWritten_index hi hw
      exact if_neg fun h => hj h.1.symm

/-- Two runs of a command that differ in a slot it does not read differ at most in that slot. -/
theorem stateAfter_setSlot_others (h : SlotUnread i s j x) :
    (stateAfter i (s.setSlot j x)).window = (stateAfter i s).window ∧
      (stateAfter i (s.setSlot j x)).mem = (stateAfter i s).mem ∧
      (stateAfter i (s.setSlot j x)).registry = (stateAfter i s).registry ∧
      OtherSlotsSame (stateAfter i s) (stateAfter i (s.setSlot j x)) j := by
  rw [stateAfter, checksOf_setSlot h, valueOf_setSlot h, stateAfter]
  cases hf : firstFailure (checksOf i s) with
  | some e =>
    rw [finish_some _ _ hf, finish_some _ _ hf]
    exact ⟨rfl, rfl, rfl, fun n hn => setSlot_slot_ne hn⟩
  | none =>
    rw [finish_none _ _ hf, finish_none _ _ hf]
    refine ⟨rfl, memAfter_setSlot h, registryAfter_setSlot, fun n hn => ?_⟩
    simp only [complete_slot, slot_eq_getD (effectOf _ _), effectOf_slots, slotsAfter_getD,
      slotWritten_setSlot h, setSlot_slots, List.length_set, setSlot_slot_ne hn]

end whole

/-- Settles O54: a command reads of the slots only its own, or the `ALLOC` bits when it names none. -/
theorem slotsDoNotInterfere : Obligations.SlotsDoNotInterfere := by
  refine ⟨fun i k j s x hi hj _ => ?_, fun i j s x hi hx hj => ?_⟩
  · refine ⟨stateAfter i s, exec_eq i s, ?_, stateAfter_slot_ne hi hj⟩
    rw [exec_eq, ← stateAfter_setSlot hi hj, stateAfter]
  · exact ⟨stateAfter i s, stateAfter i (s.setSlot j x), exec_eq i s, exec_eq i _,
      stateAfter_setSlot_others (.of_alloc hi hj hx)⟩

end Sys2Proof.Machine
end

section
/-! The host's port to the register window: what an answered read and write do, and the words that the
window reads as (10_state.md R22 to R30). -/

namespace Sys2Proof.Machine

/-! ### An answered access -/

section access
variable {s : State} {offset : Nat}

/-- An answered read gives the register there and changes nothing but the host's own record. -/
theorem readsAs_windowRead (h : windowAnswers offset 32 = true) :
    ReadsAs s offset (windowRead s offset) := by
  simp only [ReadsAs, hostMove, h, if_true]
  rfl

theorem hostMove_writeWindow (h : windowAnswers offset 32 = true) (v : Word) :
    hostMove (.writeWindow offset 32 v) s = .next (windowWrite s offset v).advance := by
  simp only [hostMove, h, if_true]

theorem ignoresWrites_of_windowWrite (h : windowAnswers offset 32 = true)
    (hw : ∀ v, windowWrite s offset v = s) : IgnoresWrites s offset := by
  intro v
  rw [hostMove_writeWindow h, hw]
  rfl

end access

/-! ### The reserved offsets -/

section reserved
variable {s : State} {offset : Nat}

theorem windowAnswers_of_lt (h : offset < 0x40) (h4 : offset % 4 = 0) :
    windowAnswers offset 32 = true := by simp [windowAnswers, h, h4]

theorem windowRead_reserved (h : 0x2C ≤ offset) : windowRead s offset = 0 := by
  unfold windowRead
  repeat rw [if_neg (by omega)]

theorem windowWrite_reserved (h : 0x2C ≤ offset) (v : Word) : windowWrite s offset v = s := by
  unfold windowWrite
  repeat rw [if_neg (by omega)]

end reserved

/-! ### Writes of `CMD` and `CTRL` -/

section writes
variable {s : State} {v : Word}

theorem writeCmd_idle (h : s.window.status.busy = false) : writeCmd s v =
    { s.accept v with delay := Config.latency s.accepted, accepted := s.accepted + 1 } := by
  simp [writeCmd, h]

theorem writeCmd_busy (h : s.window.status.busy = true) : writeCmd s v =
    { s with window := { s.window with status := statusAtOverrun s.window.status } } := by
  simp [writeCmd, h]

theorem writeCtrl_srst (h : v.getLsbD 0 = true) : writeCtrl s v = s.softReset := if_pos h

theorem writeCtrl_ovrclr (h0 : v.getLsbD 0 = false) (h1 : v.getLsbD 1 = true) : writeCtrl s v =
    { s with window := { s.window with status := statusAtOvrClear s.window.status } } := by
  rw [writeCtrl, h0, h1]
  rfl

theorem writeCtrl_neither (h0 : v.getLsbD 0 = false) (h1 : v.getLsbD 1 = false) :
    writeCtrl s v = s := by
  rw [writeCtrl, h0, h1]
  rfl

end writes

/-! ### The words `PARAMS` and `STATUS` -/

theorem bit_le_one (b : Bool) : bit b ≤ 1 := by cases b <;> decide

theorem errCode_le (e : ErrCode) : errCode e ≤ 12 := by cases e <;> decide

/-- `PARAMS` has no carry between its fields when the parameters are legal (10_state.md R28). -/
theorem paramsWord_toNat {p : Params} (h : p.Legal) : (paramsWord p).toNat =
    p.nslots % 256 + 2 ^ 8 * p.regMax + 2 ^ 16 * 32 + 2 ^ 24 * 4 + 2 ^ 28 * bit p.ctrPreinc := by
  obtain ⟨-, ⟨-, hreg⟩, -⟩ := h
  have hpre : bit p.ctrPreinc ≤ 1 := bit_le_one _
  rw [paramsWord, toWord, BitVec.toNat_ofNat]
  exact Nat.mod_eq_of_lt (by simp only [Config.nameMax, Config.algNameMax]; omega)

theorem statusWord_toNat (st : Status) : (statusWord st).toNat =
    bit st.busy + 2 * bit st.done + 4 * bit st.err + 8 * bit st.ovr + 256 * errCode st.errcode := by
  have hbusy : bit st.busy ≤ 1 := bit_le_one _
  have hdone : bit st.done ≤ 1 := bit_le_one _
  have herr : bit st.err ≤ 1 := bit_le_one _
  have hovr : bit st.ovr ≤ 1 := bit_le_one _
  have hcode : errCode st.errcode ≤ 12 := errCode_le _
  rw [statusWord, toWord, BitVec.toNat_ofNat]
  exact Nat.mod_eq_of_lt (by omega)

theorem paramsWord_fields {p : Params} (h : p.Legal) :
    field (paramsWord p) 0 8 = p.nslots % 256 ∧ field (paramsWord p) 8 8 = p.regMax ∧
      field (paramsWord p) 16 8 = 32 ∧ field (paramsWord p) 24 4 = 4 ∧
      field (paramsWord p) 28 1 = bit p.ctrPreinc ∧ field (paramsWord p) 29 3 = 0 := by
  have hpre : bit p.ctrPreinc ≤ 1 := bit_le_one _
  simp only [field, paramsWord_toNat h]
  obtain ⟨-, ⟨-, hreg⟩, -⟩ := h
  omega

theorem statusWord_fields (st : Status) :
    field (statusWord st) 0 1 = bit st.busy ∧ field (statusWord st) 1 1 = bit st.done ∧
      field (statusWord st) 2 1 = bit st.err ∧ field (statusWord st) 3 1 = bit st.ovr ∧
      field (statusWord st) 4 4 = 0 ∧ field (statusWord st) 8 8 = errCode st.errcode ∧
      field (statusWord st) 16 16 = 0 := by
  have hbusy : bit st.busy ≤ 1 := bit_le_one _
  have hdone : bit st.done ≤ 1 := bit_le_one _
  have herr : bit st.err ≤ 1 := bit_le_one _
  have hovr : bit st.ovr ≤ 1 := bit_le_one _
  have hcode : errCode st.errcode ≤ 12 := errCode_le _
  simp only [field, statusWord_toNat]
  omega

/-! ### The obligations -/

/-- Settles O10: a read gives the register, and a write is accepted or an overrun, as `BUSY` says. -/
theorem cmdWriteIsAccepted : Obligations.CmdWriteIsAccepted := by
  intro s v
  have hwrite : hostMove (.writeWindow 0x00 32 v) s = .next (writeCmd s v).advance :=
    hostMove_writeWindow rfl v
  refine ⟨readsAs_windowRead rfl, fun hidle => ?_, fun hbusy => ?_⟩
  · rw [writeCmd_idle hidle] at hwrite
    exact ⟨_, hwrite, rfl, rfl, rfl, rfl, rfl, rfl⟩
  · rw [hwrite, writeCmd_busy hbusy]
    rfl

/-- Settles O12, offset by offset. -/
theorem windowReadsGiveTheRegisters : Obligations.WindowReadsGiveTheRegisters := by
  intro s
  have hread (offset : Nat) (h : windowAnswers offset 32 = true) :
      ReadsAs s offset (windowRead s offset) := readsAs_windowRead h
  refine ⟨hread 0x00 rfl, hread 0x04 rfl, hread 0x08 rfl, hread 0x0C rfl, hread 0x10 rfl,
    hread 0x14 rfl, hread 0x18 rfl, hread 0x1C rfl, hread 0x20 rfl, hread 0x24 rfl, hread 0x28 rfl,
    fun offset hmem => ?_, fun offset hlow hhigh h4 => ?_⟩
  · simp only [List.mem_cons, List.not_mem_nil, or_false] at hmem
    rcases hmem with rfl | rfl | rfl | rfl | rfl <;> exact ignoresWrites_of_windowWrite rfl fun _ => rfl
  · have hans : windowAnswers offset 32 = true := windowAnswers_of_lt hhigh h4
    exact ⟨windowRead_reserved (s := s) hlow ▸ hread offset hans,
      ignoresWrites_of_windowWrite hans (windowWrite_reserved hlow)⟩

/-- Settles O13: the two words are sums of fields that do not overlap. -/
theorem windowWordLayouts : Obligations.WindowWordLayouts := fun s hlegal =>
  ⟨⟨paramsWord s.params, readsAs_windowRead rfl, ignoresWrites_of_windowWrite rfl fun _ => rfl,
      paramsWord_fields hlegal⟩,
    ⟨statusWord s.window.status, readsAs_windowRead rfl, ignoresWrites_of_windowWrite rfl fun _ => rfl,
      statusWord_fields _⟩⟩

/-- Settles O15: `SRST` wins over `OVRCLR`, and without either nothing changes. -/
theorem ctrlWritesResetOrClear : Obligations.CtrlWritesResetOrClear := by
  intro s v
  refine ⟨readsAs_windowRead rfl, (writeCtrl s v).advance, hostMove_writeWindow rfl v,
    fun h0 => ?_, fun h0 h1 => ?_, fun h0 h1 => ?_⟩
  · rw [writeCtrl_srst h0]
    exact ⟨rfl, rfl, rfl, rfl, rfl, rfl⟩
  · rw [writeCtrl_ovrclr h0 h1]
    rfl
  · rw [writeCtrl_neither h0 h1]
    rfl

end Sys2Proof.Machine
end

section
/-! The accesses that the register window does not answer (20_memory.md R70). -/

namespace Sys2Proof.Machine

section refusal
variable {s : State} {offset width : Nat}

theorem windowAnswers_eq_false_iff :
    windowAnswers offset width = false ↔ width ≠ 32 ∨ offset % 4 ≠ 0 ∨ 0x40 ≤ offset := by
  simp [windowAnswers, imp_iff_not_or, or_assoc]

theorem hostMove_readWindow_refused (h : windowAnswers offset width = false) :
    hostMove (.readWindow offset width) s = .refused (.windowAccessWithoutMove offset width) :=
  if_neg (by simp [h])

theorem hostMove_writeWindow_refused (h : windowAnswers offset width = false) (v : Word) :
    hostMove (.writeWindow offset width v) s = .refused (.windowAccessWithoutMove offset width) :=
  if_neg (by simp [h])

end refusal

/-- Settles O16: each of the three oddities alone keeps the window from answering. -/
theorem oddWindowAccessesAreRefused : Obligations.OddWindowAccessesAreRefused := by
  intro s offset width v hodd
  have hans : windowAnswers offset width = false := windowAnswers_eq_false_iff.mpr hodd
  exact ⟨hostMove_readWindow_refused hans, hostMove_writeWindow_refused hans v⟩

end Sys2Proof.Machine
end

section
/-! Multiplication in GF(2^8) is linear in each factor and associative (40_block_primitive.md R121, R122). -/

namespace Sys2Proof.Machine

/-! ### Additive maps of bytes -/

/-- The low `n` bits of a byte, as a sum of powers of `x`. -/
def bitSum (b : Byte) : Nat → Byte
  | 0 => 0
  | n + 1 => (if b.getLsbD n then BitVec.twoPow 8 n else 0) ^^^ bitSum b n

theorem bitSum_eq : ∀ b, bitSum b 8 = b := byte_all (by decide +kernel)

/-- Additive maps that agree on the powers of `x` are equal. -/
theorem additive_ext {f g : Byte → Byte} (hf : ∀ a b, f (a ^^^ b) = f a ^^^ f b)
    (hg : ∀ a b, g (a ^^^ b) = g a ^^^ g b)
    (hpow : ∀ i < 8, f (BitVec.twoPow 8 i) = g (BitVec.twoPow 8 i)) (b : Byte) : f b = g b := by
  have hf0 : f 0 = 0 := by simpa using hf 0 0
  have hg0 : g 0 = 0 := by simpa using hg 0 0
  have hsum (n : Nat) (hn : n ≤ 8) : f (bitSum b n) = g (bitSum b n) := by
    induction n with
    | zero => rw [bitSum, hf0, hg0]
    | succ n ih =>
      rw [bitSum, hf, hg, ih (by omega)]
      split
      · rw [hpow n hn]
      · rw [hf0, hg0]
  simpa only [bitSum_eq] using hsum 8 le_rfl

/-! ### Linearity and associativity -/

theorem xtime_xor (a b : Byte) : xtime (a ^^^ b) = xtime a ^^^ xtime b := by
  have hreduce : (if a.msb ^^ b.msb then 0x1B else 0x00 : Byte) =
      (if a.msb then 0x1B else 0x00) ^^^ (if b.msb then 0x1B else 0x00) := by
    cases a.msb <;> cases b.msb <;> rfl
  rw [xtime, BitVec.msb_xor, BitVec.shiftLeft_xor_distrib, hreduce, xtime, xtime]
  ac_rfl

theorem gmulLoop_xor_left (k : Nat) (a a' b r r' : Byte) :
    gmulLoop k (a ^^^ a') b (r ^^^ r') = gmulLoop k a b r ^^^ gmulLoop k a' b r' := by
  induction k generalizing a a' b r r' with
  | zero => rfl
  | succ k ih =>
    simp only [gmulLoop]
    rw [xtime_xor, ← ih]
    congr 1
    split
    · ac_rfl
    · rfl

theorem gmul_xor_left (a a' b : Byte) : gmul (a ^^^ a') b = gmul a b ^^^ gmul a' b := by
  unfold gmul
  rw [← gmulLoop_xor_left]
  simp

theorem gmul_xtime (a b : Byte) : gmul a (xtime b) = xtime (gmul a b) := by
  have hpow : ∀ i < 8, ∀ j < 8, gmul (BitVec.twoPow 8 j) (xtime (BitVec.twoPow 8 i)) =
      xtime (gmul (BitVec.twoPow 8 j) (BitVec.twoPow 8 i)) := by decide +kernel
  refine additive_ext (f := fun b => gmul a (xtime b)) (g := fun b => xtime (gmul a b))
    (by simp [gmul_xor, xtime_xor]) (by simp [gmul_xor, xtime_xor]) (fun i hi => ?_) b
  exact additive_ext (f := fun a => gmul a (xtime (BitVec.twoPow 8 i)))
    (g := fun a => xtime (gmul a (BitVec.twoPow 8 i))) (by simp [gmul_xor_left])
    (by simp [gmul_xor_left, xtime_xor]) (hpow i hi) a

theorem gmulLoop_gmul (k : Nat) (a b c r : Byte) :
    gmulLoop k (gmul a b) c (gmul a r) = gmul a (gmulLoop k b c r) := by
  induction k generalizing b c r with
  | zero => rfl
  | succ k ih =>
    simp only [gmulLoop]
    rw [← ih, gmul_xtime]
    split
    · rw [gmul_xor]
    · rfl

@[simp] theorem gmul_zero (a : Byte) : gmul a 0 = 0 := by simpa using gmul_xor a 0 0

@[simp] theorem one_gmul (b : Byte) : gmul 1 b = b :=
  additive_ext (g := id) (gmul_xor 1) (fun _ _ => rfl) (by decide +kernel) b

theorem gmul_assoc (a b c : Byte) : gmul (gmul a b) c = gmul a (gmul b c) := by
  have h : gmulLoop 8 (gmul a b) c (gmul a 0) = gmul a (gmul b c) := gmulLoop_gmul 8 a b c 0
  rwa [gmul_zero] at h

end Sys2Proof.Machine
end

section
/-! The inverse in GF(2^8), and the S-box as the affine map of it (40_block_primitive.md R123, R124).
The inverse of each byte is read back from the printed table. -/

namespace Sys2Proof.Machine

/-- The inverse of the affine map `A`. -/
def invAffine (y : Byte) : Byte := y.rotateLeft 1 ^^^ y.rotateLeft 3 ^^^ y.rotateLeft 6 ^^^ 0x05

theorem affine_invAffine : ∀ y, affine (invAffine y) = y := byte_all (by decide +kernel)

/-- The byte whose affine image the printed table lists at `x`. -/
def sboxInv (x : Byte) : Byte := invAffine (sbox x)

theorem sboxInv_inverse : ∀ x, x ≠ 0 → gmul x (sboxInv x) = 1 ∧ gmul (sboxInv x) x = 1 :=
  byte_all (by decide +kernel)

/-- A byte that is not zero has one inverse: multiply by what the table gives. -/
theorem gmul_eq_one_iff {x b : Byte} (hx : x ≠ 0) : gmul x b = 1 ↔ b = sboxInv x := by
  obtain ⟨hright, hleft⟩ := sboxInv_inverse x hx
  refine ⟨fun h => ?_, fun h => h ▸ hright⟩
  calc b = gmul (gmul (sboxInv x) x) b := by rw [hleft, one_gmul]
    _ = gmul (sboxInv x) (gmul x b) := gmul_assoc _ _ _
    _ = gmul (gmul (sboxInv x) x) (sboxInv x) := by rw [h, ← hright, gmul_assoc]
    _ = sboxInv x := by rw [hleft, one_gmul]

theorem mem_allBytes (b : Byte) : b ∈ allBytes :=
  List.mem_map.mpr ⟨b.toNat, List.mem_range.mpr b.isLt, by simp⟩

theorem ginv_zero : ginv 0 = 0 := by decide +kernel

/-- The search for the inverse finds the byte that the printed table gives. -/
theorem ginv_eq_sboxInv (x : Byte) : ginv x = sboxInv x := by
  by_cases hx : x = 0
  · subst hx
    rw [ginv_zero]
    decide
  · cases hfind : allBytes.find? (fun b => gmul x b == 0x01) with
    | none =>
      simpa [sboxInv_inverse x hx] using List.find?_eq_none.mp hfind _ (mem_allBytes (sboxInv x))
    | some b =>
      have hb : gmul x b = 1 := by simpa using List.find?_some hfind
      rw [ginv, hfind, Option.getD_some, (gmul_eq_one_iff hx).mp hb]

/-- The printed table is the S-box of the definition. -/
theorem sbox_eq_sboxByField (x : Byte) : sbox x = sboxByField x := by
  rw [sboxByField, ginv_eq_sboxInv, sboxInv, affine_invAffine]

/-- Settles O49: what the printed table is the affine image of is the inverse, and the only one. -/
theorem sboxFollowsTheField : Obligations.SboxFollowsTheField := by
  refine ⟨ginv_zero, fun x b hx => ?_, sbox_eq_sboxByField⟩
  rw [ginv_eq_sboxInv, gmul_eq_one_iff hx]

end Sys2Proof.Machine
end

section
/-! The words of the two key schedules (40_block_primitive.md R136, R142). -/

namespace Sys2Proof.Machine

/-! ### The key expansion -/

section expansion
variable {nk count i : Nat} {w : List Word}

theorem expandWords_length : (expandWords nk count w).length = w.length + count := by
  induction count generalizing w with
  | zero => rfl
  | succ count ih =>
    rw [expandWords, ih, List.length_append, List.length_singleton]
    omega

theorem keyWord_append_of_lt (w' : List Word) (h : i < w.length) :
    keyWord (w ++ w') i = keyWord w i := List.getD_append _ _ _ _ h

theorem keyWord_concat_length (v : Word) : keyWord (w ++ [v]) w.length = v := by
  simp [keyWord]

/-- Further expansion leaves the words there are. -/
theorem keyWord_expandWords_of_lt (h : i < w.length) :
    keyWord (expandWords nk count w) i = keyWord w i := by
  induction count generalizing w with
  | zero => rfl
  | succ count ih =>
    rw [expandWords, ih (by rw [List.length_append]; omega), keyWord_append_of_lt _ h]

/-- Every added word follows the recurrence of R136. -/
theorem keyWord_expandWords (hnk : 0 < nk) (hw : nk ≤ w.length) (hi : w.length ≤ i)
    (hlt : i < w.length + count) :
    keyWord (expandWords nk count w) i = keyWord (expandWords nk count w) (i - nk) ^^^
      expansionTerm nk i (keyWord (expandWords nk count w) (i - 1)) := by
  induction count generalizing w with
  | zero => omega
  | succ count ih =>
    have hlen : (w ++ [nextKeyWord nk w]).length = w.length + 1 := by simp
    rcases Nat.eq_or_lt_of_le hi with rfl | hi
    · rw [keyWord_expandWords_of_lt (show w.length - nk < w.length by omega),
        keyWord_expandWords_of_lt (show w.length - 1 < w.length by omega), expandWords,
        keyWord_expandWords_of_lt (by omega), keyWord_concat_length, nextKeyWord]
    · exact ih (by omega) (by omega) (by omega)

end expansion

@[simp] theorem keyWords_length (nk : Nat) (key : List Byte) : (keyWords nk key).length = nk := by
  simp [keyWords]

theorem keyWord_map_range {n i : Nat} (f : Nat → Word) (h : i < n) :
    keyWord ((List.range n).map f) i = f i := by
  simp [keyWord, h]

/-! ### The two schedules of a key -/

section schedules
variable {key : List Byte} {nk i j c : Nat}

theorem keyNk_eq (h : key.length = 4 * nk) : keyNk key = nk := by rw [keyNk]; omega

theorem keyNr_eq (h : key.length = 4 * nk) : keyNr key = nk + 6 := by rw [keyNr, keyNk_eq h]

theorem encryptSchedule_eq (h : key.length = 4 * nk) :
    encryptSchedule key = expandWords nk (4 * (nk + 7) - nk) (keyWords nk key) := by
  rw [encryptSchedule, keyNr_eq h, keyNk_eq h]

theorem encryptSchedule_length (h : key.length = 4 * nk) :
    (encryptSchedule key).length = 4 * (nk + 7) := by
  rw [encryptSchedule_eq h, expandWords_length, keyWords_length]
  omega

theorem encryptSchedule_key (h : key.length = 4 * nk) (hi : i < nk) :
    keyWord (encryptSchedule key) i = wordOfCol (colAt key (4 * i)) := by
  rw [encryptSchedule_eq h, keyWord_expandWords_of_lt (by simpa using hi)]
  exact keyWord_map_range _ hi

theorem encryptSchedule_recurrence (h : key.length = 4 * nk) (hnk : 0 < nk) (hi : nk ≤ i)
    (hlt : i < 4 * (nk + 7)) :
    keyWord (encryptSchedule key) i = keyWord (encryptSchedule key) (i - nk) ^^^
      expansionTerm nk i (keyWord (encryptSchedule key) (i - 1)) := by
  rw [encryptSchedule_eq h]
  refine keyWord_expandWords hnk ?_ ?_ ?_ <;> rw [keyWords_length] <;> omega

theorem decryptSchedule_length (h : key.length = 4 * nk) :
    (decryptSchedule key).length = 4 * (nk + 7) := by
  rw [decryptSchedule, List.length_map, List.length_range, keyNr_eq h]

/-- Group `j` of the decryption-oriented schedule comes from group `Nr - j` of the other. -/
theorem decryptSchedule_group (h : key.length = 4 * nk) (hj : j ≤ nk + 6) (hc : c < 4) :
    keyWord (decryptSchedule key) (4 * j + c) =
      if j = 0 ∨ j = nk + 6 then keyWord (encryptSchedule key) (4 * (nk + 6 - j) + c)
      else imcWord (keyWord (encryptSchedule key) (4 * (nk + 6 - j) + c)) := by
  have hgroup : (4 * j + c) / 4 = j := by omega
  have hword : (4 * j + c) % 4 = c := by omega
  rw [decryptSchedule, keyNr_eq h, keyWord_map_range _ (by omega), decryptKeyWord, hgroup, hword]

end schedules

/-- Settles O51: the recurrence of the expansion, and the groups reversed and mixed. -/
theorem keySchedulesFollowTheRecurrence : Obligations.KeySchedulesFollowTheRecurrence := by
  intro key nk hnk hlen
  have hpos : 0 < nk := by omega
  exact ⟨keyNr_eq hlen, encryptSchedule_length hlen, decryptSchedule_length hlen,
    fun i hi => encryptSchedule_key hlen hi,
    fun i hi hlt => encryptSchedule_recurrence hlen hpos hi hlt,
    fun j c hj hc => decryptSchedule_group hlen hj hc⟩

end Sys2Proof.Machine
end

section
/-! The counter of the CTR mode as a big-endian number, and CTR decryption (41_mode_layer.md R186, R187). -/

namespace Sys2Proof.Machine

/-! ### Big-endian byte strings -/

@[simp] theorem beBytes_length (n v : Nat) : (beBytes n v).length = n := by
  induction n with
  | zero => rfl
  | succ n ih => rw [beBytes, List.length_cons, ih]

/-- Reading the digits of `v` after those of `acc`. -/
theorem foldl_beBytes (n v acc : Nat) :
    (beBytes n v).foldl (fun acc x => acc * 256 + x.toNat) acc = acc * 256 ^ n + v % 256 ^ n := by
  induction n generalizing acc with
  | zero => simp [beBytes, Nat.mod_one]
  | succ n ih =>
    rw [beBytes, List.foldl_cons, ih, BitVec.toNat_ofNat, pow_succ 256 n, Nat.mod_mul]
    ring

theorem be_beBytes (n v : Nat) : be (beBytes n v) = v % 256 ^ n := by
  rw [be, foldl_beBytes, Nat.zero_mul, Nat.zero_add]

/-- Settles O45: the 16 bytes hold every value below 2^128. -/
theorem counterIncrementsBigEndian : Obligations.CounterIncrementsBigEndian := by
  intro b
  rw [inc128, blockBytes_blockOfBytes (beBytes_length 16 _), be_beBytes,
    show 256 ^ 16 = 2 ^ 128 by norm_num, Nat.mod_mod]

/-! ### CTR decryption -/

section ctr
variable {s : State} {k : Nat}

theorem isBlockMode_of_ctr {d : Descriptor} (h : modeOf d = some .ctr) : isBlockMode d = false := by
  rw [isBlockMode, h]
  rfl

/-- A CTR slot has no direction, so that both commands have the same checks (41_mode_layer.md R173). -/
theorem cryptChecks_of_ctr (h : modeOf (s.slot k).desc = some .ctr) (ivp w w' : Bool) :
    cryptChecks s k ivp w = cryptChecks s k ivp w' := by
  simp only [cryptChecks, isBlockMode_of_ctr h, Bool.false_and]

theorem decryptWork_of_ctr {x : Slot} (h : modeOf x.desc = some .ctr) (p : Params) (n src dst : Nat)
    (w : Work) : decryptWork p x n src dst w = encryptWork p x n src dst w := by
  simp only [decryptWork, encryptWork, h]

end ctr

/-- Settles O46: on a CTR slot the two commands have the same checks and the same units. -/
theorem ctrDecryptIsEncrypt : Obligations.CtrDecryptIsEncrypt := by
  intro s k ivp h
  change execDecrypt k ivp s = execEncrypt k ivp s
  rw [execDecrypt, execEncrypt, cryptChecks_of_ctr h ivp false true, decryptWork_of_ctr h]

end Sys2Proof.Machine
end

section
/-! ENCRYPT and DECRYPT as one command with a direction: the run of a call whose checks pass, and its units
(41_mode_layer.md R171 to R176). -/

namespace Sys2Proof.Machine

/-! ### The command of a direction and its units -/

/-- ENCRYPT, or DECRYPT for `dec = true`, with the IV of the slot. -/
def cryptInstr (dec : Bool) (k : Nat) : Instr :=
  match dec with
  | false => .encrypt k false
  | true => .decrypt k false

/-- All units of the command. -/
def cryptWork (dec : Bool) (p : Params) (x : Slot) (n src dst : Nat) (w : Work) : Work :=
  match dec with
  | false => encryptWork p x n src dst w
  | true => decryptWork p x n src dst w

/-- The number of bytes of a unit (41_mode_layer.md R175). -/
def unitSize : Mode → Nat
  | .ecb => 16
  | .cbc => 16
  | .ctr => 1
  | .cfb => 1

/-- One unit of the command (41_mode_layer.md R178 to R191). -/
def cryptUnit (dec : Bool) (p : Params) (x : Slot) (m : Mode) : Nat → Nat → Work → Work :=
  match m, dec with
  | .ecb, false => ecbUnit (slotEnc x)
  | .ecb, true => ecbUnit (slotDec x)
  | .cbc, false => cbcEncUnit (slotEnc x)
  | .cbc, true => cbcDecUnit (slotDec x)
  | .ctr, _ => ctrUnit p.ctrPreinc (slotEnc x)
  | .cfb, false => cfbEncUnit (slotEnc x)
  | .cfb, true => cfbDecUnit (slotEnc x)

section work
variable {dec : Bool} {p : Params} {x : Slot} {m : Mode} {a b n src dst : Nat} {w : Work}

theorem cryptWork_eq_units (h : modeOf x.desc = some m) : cryptWork dec p x n src dst w =
    units (cryptUnit dec p x m) (unitSize m) (n / unitSize m) src dst w := by
  cases dec <;> cases m <;>
    simp only [cryptWork, encryptWork, decryptWork, h, cryptUnit, unitSize, Nat.div_one]

theorem cryptWork_of_noMode (h : modeOf x.desc = none) : cryptWork dec p x n src dst w = w := by
  cases dec <;> simp only [cryptWork, encryptWork, decryptWork, h]

theorem cryptUnit_writesOnly : WritesOnly (cryptUnit dec p x m) (unitSize m) := by
  cases m with
  | ecb => cases dec <;> exact ecbUnit_writesOnly _
  | cbc =>
    cases dec
    · exact cbcEncUnit_writesOnly _
    · exact cbcDecUnit_writesOnly _
  | ctr => exact ctrUnit_writesOnly _ _
  | cfb =>
    cases dec
    · exact cfbEncUnit_writesOnly _
    · exact cfbDecUnit_writesOnly _

/-- Data of whole blocks in the block modes is data of whole units in every mode. -/
theorem unitSize_dvd (h : modeOf x.desc = some m) (hn : BlockMode x → n % 16 = 0) : unitSize m ∣ n := by
  cases m with
  | ecb => exact Nat.dvd_of_mod_eq_zero (hn (.inl h))
  | cbc => exact Nat.dvd_of_mod_eq_zero (hn (.inr h))
  | ctr => exact one_dvd n
  | cfb => exact one_dvd n

@[simp] theorem cryptWork_zero : cryptWork dec p x 0 src dst w = w := by
  cases h : modeOf x.desc with
  | none => exact cryptWork_of_noMode h
  | some m => rw [cryptWork_eq_units h, Nat.zero_div, units]

/-- The units of a byte string are those of a first piece and then those of the rest. -/
theorem cryptWork_add (ha : BlockMode x → a % 16 = 0) : cryptWork dec p x (a + b) src dst w =
    cryptWork dec p x b (src + a) (dst + a) (cryptWork dec p x a src dst w) := by
  cases h : modeOf x.desc with
  | none => rw [cryptWork_of_noMode h, cryptWork_of_noMode h, cryptWork_of_noMode h]
  | some m =>
    have hdvd : unitSize m ∣ a := unitSize_dvd h ha
    rw [cryptWork_eq_units h, cryptWork_eq_units h, cryptWork_eq_units h,
      Nat.add_div_of_dvd_right hdvd, units_add, Nat.mul_div_cancel' hdvd]

/-- What a call commits to the slot is nothing that its units are made of. -/
theorem cryptWork_commitSlot (v : Work) :
    cryptWork dec p (commitSlot x v) n src dst w = cryptWork dec p x n src dst w := by
  cases dec <;> rfl

end work

/-! ### The run of a call -/

section run
variable {dec : Bool} {s t : State} {k n src dst : Nat} {w : Work}

/-- What a call leaves: `MEM` and the slot hold the working state `w`, and the code is `OK`
(41_mode_layer.md R176). -/
structure CryptRan (s t : State) (k : Nat) (w : Work) : Prop where
  errcode : t.window.status.errcode = .ok
  params : t.params = s.params
  mem : t.mem = w.mem
  slots : t.slots = s.slots.set k (commitSlot (s.slot k) w)

theorem isBlockMode_iff {x : Slot} : isBlockMode x.desc = true ↔ BlockMode x := by
  simp [isBlockMode]

theorem cryptChecks_none {ivp wrong : Bool} (h : CryptOk s k ivp wrong) :
    firstFailure (cryptChecks s k ivp wrong) = none := by
  obtain ⟨⟨hk, halloc⟩, hkeyed, hdir, hlen, hsrc, hdst, hiv⟩ := h
  rw [cryptChecks, firstFailure_append, slotChecks_none_iff.mpr ⟨hk, halloc⟩, Option.none_or,
    firstFailure_eq_none]
  simpa [hkeyed, isBlockMode_iff, outOfRange_false_iff, -not_or] using
    ⟨hdir, hlen, ⟨hsrc, hdst⟩, hiv⟩

/-- A call whose checks pass runs its units on the working state that it finds. -/
theorem exec_cryptInstr (h : CryptOk s k false (!dec)) : ∃ t, exec (cryptInstr dec k) s = .next t ∧
    CryptRan s t k
      (cryptWork dec s.params (s.slot k) s.arg2 s.arg0 s.arg1 (startWork s k false)) := by
  cases dec <;> exact ⟨_, exec_ok (cryptChecks_none h), rfl, rfl, rfl, rfl⟩

theorem CryptRan.of_withArgs {a0 a1 a2 a3 : Nat} (h : CryptRan (withArgs s a0 a1 a2 a3) t k w) :
    CryptRan s t k w := ⟨h.errcode, h.params, h.mem, h.slots⟩

/-- The slot passes the checks that do not depend on the operands. -/
structure CryptReady (s : State) (k : Nat) (dec : Bool) : Prop where
  live : Live s k
  keyed : (s.slot k).keyed = true
  direction : BlockMode (s.slot k) → (s.slot k).sched ≠ !dec

/-- The operands pass the others; the addresses of an empty range are free. -/
structure CryptData (s : State) (k src dst n : Nat) : Prop where
  size : n < 2 ^ 32
  addresses : n = 0 ∨ src < 2 ^ 32 ∧ dst < 2 ^ 32
  length : BlockMode (s.slot k) → n % 16 = 0
  source : RangeOk s src n
  destination : RangeOk s dst n

theorem toWord_toNat {v : Nat} (h : v < 2 ^ 32) : (toWord v).toNat = v := by
  rw [toWord, BitVec.toNat_ofNat, Nat.mod_eq_of_lt h]

/-- A call with given operands runs its units on them. -/
theorem exec_cryptInstr_withArgs (hr : CryptReady s k dec) (hd : CryptData s k src dst n) :
    ∃ t, exec (cryptInstr dec k) (withArgs s src dst n 0) = .next t ∧
      CryptRan s t k (cryptWork dec s.params (s.slot k) n src dst (startWork s k false)) := by
  obtain ⟨hlive, hkeyed, hdir⟩ := hr
  obtain ⟨hn, haddr, hlen, hsrc, hdst⟩ := hd
  have h2 : (withArgs s src dst n 0).arg2 = n := toWord_toNat hn
  have hok (hs : RangeOk s (withArgs s src dst n 0).arg0 n)
      (hd : RangeOk s (withArgs s src dst n 0).arg1 n) :
      CryptOk (withArgs s src dst n 0) k false (!dec) :=
    ⟨hlive, hkeyed, hdir, by rwa [h2], by rwa [h2], by rwa [h2], nofun⟩
  rcases haddr with rfl | ⟨hsrc32, hdst32⟩
  · obtain ⟨t, ht, hran⟩ := exec_cryptInstr (hok (.inl rfl) (.inl rfl))
    rw [h2, cryptWork_zero] at hran
    exact ⟨t, ht, by rw [cryptWork_zero]; exact hran.of_withArgs⟩
  · have h0 : (withArgs s src dst n 0).arg0 = src := toWord_toNat hsrc32
    have h1 : (withArgs s src dst n 0).arg1 = dst := toWord_toNat hdst32
    obtain ⟨t, ht, hran⟩ := exec_cryptInstr (hok (by rwa [h0]) (by rwa [h1]))
    rw [h0, h1, h2] at hran
    exact ⟨t, ht, hran.of_withArgs⟩

end run
end Sys2Proof.Machine
end

section
/-! Streaming equivalence: one call over a byte string and calls over its pieces (41_mode_layer.md R195). -/

namespace Sys2Proof.Machine

section streaming
variable {dec : Bool} {s t : State} {k n src dst : Nat} {w : Work}

/-! ### What a call leaves for the next -/

theorem CryptRan.slot (h : CryptRan s t k w) (hk : k < s.slots.length) :
    t.slot k = commitSlot (s.slot k) w := by
  rw [slot_eq_getD, h.slots]
  exact setSlot_slot_self hk

/-- The next call takes up the working state where this one left it (41_mode_layer.md R174, R176). -/
theorem CryptRan.startWork (h : CryptRan s t k w) (hk : k < s.slots.length) :
    startWork t k false = w := by
  rw [Machine.startWork, h.slot hk, h.mem]
  rfl

theorem CryptRan.ready (h : CryptRan s t k w) (hr : CryptReady s k dec) : CryptReady t k dec := by
  have hslot := h.slot (lt_slots_of_alloc hr.live.2)
  obtain ⟨⟨hk, halloc⟩, hkeyed, hdir⟩ := hr
  exact ⟨⟨by rwa [h.params], by rwa [hslot]⟩, by rwa [hslot], by rwa [hslot]⟩

/-! ### The pieces -/

/-- The calls over the pieces, in order, leave what the units of the whole leave. -/
theorem runPieces_cryptInstr {ns : List Nat} (hmem : s.params.memSize ≤ 2 ^ 32)
    (hr : CryptReady s k dec) (hlen : BlockMode (s.slot k) → ∀ n ∈ ns, n % 16 = 0)
    (hsum : ns.sum < 2 ^ 32) (hsrc : RangeOk s src ns.sum) (hdst : RangeOk s dst ns.sum) :
    ∃ u, runPieces (cryptInstr dec k) s src dst ns = .next u ∧
      u.mem = (cryptWork dec s.params (s.slot k) ns.sum src dst (startWork s k false)).mem ∧
      u.slots = s.slots.set k (commitSlot (s.slot k)
        (cryptWork dec s.params (s.slot k) ns.sum src dst (startWork s k false))) := by
  have hk : k < s.slots.length := lt_slots_of_alloc hr.live.2
  induction ns generalizing s src dst with
  | nil =>
    refine ⟨s, rfl, by simp, ?_⟩
    have hsame : commitSlot (s.slot k) (startWork s k false) = s.slots[k] := slot_getElem hk
    rw [List.sum_nil, cryptWork_zero, hsame, List.set_getElem_self]
  | cons n ns ih =>
    rw [List.sum_cons] at hsum hsrc hdst ⊢
    have hfirst (hb : BlockMode (s.slot k)) : n % 16 = 0 := hlen hb n List.mem_cons_self
    obtain ⟨t, ht, hran⟩ := exec_cryptInstr_withArgs hr (src := src) (dst := dst) (n := n)
      ⟨by omega, by omega, hfirst, by omega, by omega⟩
    have hslot := hran.slot hk
    have hparams := hran.params
    obtain ⟨u, hu, humem, huslots⟩ := ih (s := t) (src := src + n) (dst := dst + n)
      (by rwa [hparams]) (hran.ready hr)
      (by rw [hslot]; exact fun hb m hm => hlen hb m (List.mem_cons_of_mem _ hm))
      (by omega) (by rw [RangeOk, hparams]; omega) (by rw [RangeOk, hparams]; omega)
      (by rw [hran.slots, List.length_set]; exact hk)
    rw [hran.startWork hk, hslot, hparams, cryptWork_commitSlot, ← cryptWork_add hfirst] at humem huslots
    refine ⟨u, ?_, humem, ?_⟩
    · rw [runPieces, ht]
      exact hu
    · rw [huslots, hran.slots, List.set_set]
      rfl

/-- A call over the whole and calls over the pieces leave the same `MEM` and the same slots. -/
theorem exec_cryptInstr_eq_runPieces {ns : List Nat} (hmem : s.params.memSize ≤ 2 ^ 32)
    (hsum : ns.sum < 2 ^ 32) (hsrc : src < 2 ^ 32) (hdst : dst < 2 ^ 32)
    (hlen : BlockMode (s.slot k) → ∀ n ∈ ns, n % 16 = 0)
    (h : CryptOk (withArgs s src dst ns.sum 0) k false (!dec)) :
    ∃ t u, exec (cryptInstr dec k) (withArgs s src dst ns.sum 0) = .next t ∧
      runPieces (cryptInstr dec k) s src dst ns = .next u ∧ u.mem = t.mem ∧ u.slots = t.slots := by
  have h0 : (withArgs s src dst ns.sum 0).arg0 = src := toWord_toNat hsrc
  have h1 : (withArgs s src dst ns.sum 0).arg1 = dst := toWord_toNat hdst
  have h2 : (withArgs s src dst ns.sum 0).arg2 = ns.sum := toWord_toNat hsum
  obtain ⟨t, ht, hran⟩ := exec_cryptInstr h
  obtain ⟨hlive, hkeyed, hdir, -, hs, hd, -⟩ := h
  rw [h0, h2] at hs
  rw [h1, h2] at hd
  rw [h0, h1, h2] at hran
  obtain ⟨u, hu, humem, huslots⟩ := runPieces_cryptInstr hmem ⟨hlive, hkeyed, hdir⟩ hlen hsum hs hd
  exact ⟨t, u, ht, hu, humem.trans hran.mem.symm, huslots.trans hran.slots.symm⟩

end streaming

/-- Settles O47: the units of the whole are those of its pieces, and each call takes up where the one before
it left. -/
theorem streamingEquivalence : Obligations.StreamingEquivalence := by
  intro s k src dst ns hlegal hsum hsrc hdst hlen
  obtain ⟨-, -, -, hmem⟩ := hlegal
  exact ⟨exec_cryptInstr_eq_runPieces (dec := false) hmem hsum hsrc hdst hlen,
    exec_cryptInstr_eq_runPieces (dec := true) hmem hsum hsrc hdst hlen⟩

end Sys2Proof.Machine
end

section
/-! `AES_Dec` with the decryption-oriented schedule undoes `AES_Enc` with the other: the equivalent inverse
cipher (40_block_primitive.md R125 to R156). -/

namespace Sys2Proof.Machine

/-! ### The transforms of a round -/

@[simp] theorem invSbox_sbox : ∀ x, invSbox (sbox x) = x := byte_all (by decide +kernel)

/-- What a round does before it mixes the columns. -/
def subShift (s : Block) : Block := shiftRows (subBytes s)

@[simp] theorem invShiftRows_invSubBytes_subShift (s : Block) :
    invShiftRows (invSubBytes (subShift s)) = s := by
  simp [subShift, subBytes, shiftRows, invSubBytes, invShiftRows, quadMap]

theorem xorCol_xorCol_cancel (a b : Col) : xorCol (xorCol a b) b = a := by
  simp [xorCol, quadZip]

theorem xorBlock_xorBlock_cancel (a b : Block) : xorBlock (xorBlock a b) b = a := by
  simp [xorBlock, quadZip, xorCol_xorCol_cancel]

@[simp] theorem zero_gmul (x : Byte) : gmul 0 x = 0 := by simpa using gmul_xor_left 0 0 x

/-- A row of coefficients times the matrix of `MixColumns`. -/
theorem gmul_mixCol (e0 e1 e2 e3 : Byte) (a : Col) :
    gmul e0 (mixCol a).q0 ^^^ gmul e1 (mixCol a).q1 ^^^ gmul e2 (mixCol a).q2 ^^^
        gmul e3 (mixCol a).q3 =
      gmul (gmul e0 2 ^^^ gmul e1 1 ^^^ gmul e2 1 ^^^ gmul e3 3) a.q0 ^^^
        gmul (gmul e0 3 ^^^ gmul e1 2 ^^^ gmul e2 1 ^^^ gmul e3 1) a.q1 ^^^
        gmul (gmul e0 1 ^^^ gmul e1 3 ^^^ gmul e2 2 ^^^ gmul e3 1) a.q2 ^^^
        gmul (gmul e0 1 ^^^ gmul e1 1 ^^^ gmul e2 3 ^^^ gmul e3 2) a.q3 := by
  simp only [mixCol, gmul_xor, gmul_xor_left, gmul_assoc]
  ac_rfl

/-- The matrix of `InvMixColumns` times that of `MixColumns` is the identity. -/
@[simp] theorem invMixCol_mixCol (a : Col) : invMixCol (mixCol a) = a := by
  have hproduct : invMixCol (mixCol a) =
      ⟨gmul 1 a.q0 ^^^ gmul 0 a.q1 ^^^ gmul 0 a.q2 ^^^ gmul 0 a.q3,
       gmul 0 a.q0 ^^^ gmul 1 a.q1 ^^^ gmul 0 a.q2 ^^^ gmul 0 a.q3,
       gmul 0 a.q0 ^^^ gmul 0 a.q1 ^^^ gmul 1 a.q2 ^^^ gmul 0 a.q3,
       gmul 0 a.q0 ^^^ gmul 0 a.q1 ^^^ gmul 0 a.q2 ^^^ gmul 1 a.q3⟩ := by
    simp only [invMixCol, gmul_mixCol]
    rfl
  rw [hproduct]
  simp only [one_gmul, zero_gmul]
  simp

@[simp] theorem invMixColumns_mixColumns (s : Block) : invMixColumns (mixColumns s) = s := by
  simp [invMixColumns, mixColumns, quadMap]

theorem invMixColumns_xorBlock (a b : Block) :
    invMixColumns (xorBlock a b) = xorBlock (invMixColumns a) (invMixColumns b) := by
  simp [invMixColumns, xorBlock, quadMap, quadZip, invMixCol_xor]

/-! ### The rounds -/

theorem rounds_succ_last (f : Nat → Block → Block) (n j : Nat) (s : Block) :
    rounds f (n + 1) j s = f (j + n) (rounds f n j s) := by
  induction n generalizing j s with
  | zero => rfl
  | succ n ih =>
    rw [rounds, ih, show j + 1 + n = j + (n + 1) by omega]
    rfl

/-- Inverse rounds that take back, through `c`, the last forward round each. -/
theorem rounds_undo {f g : Nat → Block → Block} {c : Block → Block} {n : Nat} {s : Block}
    (h : ∀ i, i < n → ∀ v, g (1 + i) (c (f (n - i) v)) = c v) {i : Nat} (hi : i ≤ n) :
    rounds g i 1 (c (rounds f n 1 s)) = c (rounds f (n - i) 1 s) := by
  induction i with
  | zero => rfl
  | succ i ih =>
    obtain ⟨m, hm⟩ : ∃ m, n - i = m + 1 := ⟨n - i - 1, by omega⟩
    have hundo := h i hi (rounds f m 1 s)
    rw [hm] at hundo
    rw [rounds_succ_last, ih (by omega), hm, rounds_succ_last, Nat.add_comm 1 m, hundo,
      show n - (i + 1) = m by omega]

/-- An inverse round whose key is the mixed key of a round takes the round back. -/
theorem decRound_encRound {dk ek : List Word} {i j : Nat}
    (h : roundKey dk i = invMixColumns (roundKey ek j)) (s : Block) :
    decRound dk i (subShift (encRound ek j s)) = subShift s := by
  rw [decRound, invShiftRows_invSubBytes_subShift, encRound, addRoundKey, addRoundKey,
    invMixColumns_xorBlock, invMixColumns_mixColumns, h, xorBlock_xorBlock_cancel, subShift]

/-! ### The cipher -/

/-- The two transforms undo each other under round keys in reverse order, mixed but for the outer two
(40_block_primitive.md R142, R156). -/
theorem aesDec_aesEnc_of_roundKeys {dk ek : List Word} {nr : Nat}
    (hfirst : roundKey dk 0 = roundKey ek nr) (hlast : roundKey dk nr = roundKey ek 0)
    (hmid : ∀ j, 0 < j → j < nr → roundKey dk j = invMixColumns (roundKey ek (nr - j))) (b : Block) :
    aesDec dk nr (aesEnc ek nr b) = b := by
  have hrounds : rounds (decRound dk) (nr - 1) 1
      (subShift (rounds (encRound ek) (nr - 1) 1 (addRoundKey b ek 0))) =
        subShift (addRoundKey b ek 0) := by
    have hundo := rounds_undo (f := encRound ek) (g := decRound dk) (c := subShift) (n := nr - 1)
      (s := addRoundKey b ek 0) (fun i hi => decRound_encRound (by
        rw [hmid (1 + i) (by omega) (by omega), Nat.sub_sub])) le_rfl
    rwa [Nat.sub_self, rounds] at hundo
  rw [aesDec, aesEnc, ← subShift]
  simp only [addRoundKey] at hrounds ⊢
  rw [hfirst, xorBlock_xorBlock_cancel, hrounds, invShiftRows_invSubBytes_subShift, hlast,
    xorBlock_xorBlock_cancel]

section schedule
variable {key : List Byte} {nk j : Nat}

@[simp] theorem colOfWord_imcWord (w : Word) : colOfWord (imcWord w) = invMixCol (colOfWord w) := by
  rw [imcWord, colOfWord_wordOfCol]

/-- Round key `j` of the decryption-oriented schedule. -/
theorem roundKey_decryptSchedule (h : key.length = 4 * nk) (hj : j ≤ nk + 6) :
    roundKey (decryptSchedule key) j =
      if j = 0 ∨ j = nk + 6 then roundKey (encryptSchedule key) (nk + 6 - j)
      else invMixColumns (roundKey (encryptSchedule key) (nk + 6 - j)) := by
  have hword0 := decryptSchedule_group h hj (c := 0) (by decide)
  rw [Nat.add_zero, Nat.add_zero] at hword0
  rw [roundKey, hword0, decryptSchedule_group h hj (by decide), decryptSchedule_group h hj (by decide),
    decryptSchedule_group h hj (by decide)]
  split
  · rfl
  · simp [invMixColumns, roundKey, quadMap]

/-- Decryption inverts encryption under every key of whole words (40_block_primitive.md R156). -/
theorem aesDec_aesEnc (h : key.length = 4 * nk) (b : Block) :
    aesDec (decryptSchedule key) (keyNr key) (aesEnc (encryptSchedule key) (keyNr key) b) = b := by
  rw [keyNr_eq h]
  refine aesDec_aesEnc_of_roundKeys ?_ ?_ (fun j hpos hlt => ?_) b
  · rw [roundKey_decryptSchedule h (Nat.zero_le _), if_pos (.inl rfl), Nat.sub_zero]
  · rw [roundKey_decryptSchedule h le_rfl, if_pos (.inr rfl), Nat.sub_self]
  · rw [roundKey_decryptSchedule h hlt.le, if_neg (by omega)]

end schedule

/-! ### Schedules with zero words after them -/

section padding
variable (k : List Word) (nr j : Nat) (b : Block)

theorem roundKey_padWords : roundKey (padWords k) j = roundKey k j := by
  simp only [roundKey, keyWord_padWords]

theorem addRoundKey_padWords : addRoundKey b (padWords k) j = addRoundKey b k j := by
  rw [addRoundKey, roundKey_padWords, addRoundKey]

theorem aesEnc_padWords : aesEnc (padWords k) nr b = aesEnc k nr b := by
  have hround : encRound (padWords k) = encRound k := by
    funext j s
    exact addRoundKey_padWords k j _
  simp only [aesEnc, hround, addRoundKey_padWords]

theorem aesDec_padWords : aesDec (padWords k) nr b = aesDec k nr b := by
  have hround : decRound (padWords k) = decRound k := by
    funext j s
    exact addRoundKey_padWords k j _
  simp only [aesDec, hround, addRoundKey_padWords]

end padding

end Sys2Proof.Machine
end

section
/-! The round trip: the units of DECRYPT on the output of the units of ENCRYPT give the source bytes
(41_mode_layer.md R197). One unit is the inverse of the other while both calls are in step; plain aliasing
(20_memory.md R72) keeps the bytes that a call has yet to read. -/

namespace Sys2Proof.Machine

/-! ### Byte strings under units that write only their own bytes -/

@[simp] theorem blockBytes_readBlock (m : Memory) (a : Nat) :
    blockBytes (readBlock m a) = readBytes m a 16 := blockBytes_blockOfBytes (readBytes_length m a 16)

@[simp] theorem readBytes_one (m : Memory) (a : Nat) : readBytes m a 1 = [memRead m a] := rfl

section frame
variable {f : Nat → Nat → Work → Work} {size j count a n src dst : Nat} {w : Work}

theorem readBytes_unit_outside (hf : WritesOnly f size) (h : a + n ≤ dst ∨ dst + size ≤ a) :
    readBytes (f src dst w).mem a n = readBytes w.mem a n :=
  readBytes_congr fun _ _ => hf _ _ _ _ (by omega)

theorem readBytes_units_outside (hf : WritesOnly f size) (h : a + n ≤ dst ∨ dst + size * count ≤ a) :
    readBytes (units f size count src dst w).mem a n = readBytes w.mem a n :=
  readBytes_congr fun _ _ => units_writesOnly hf (by omega)

/-- Unit `j` finds its source bytes as they were at the start. -/
theorem readBytes_units_source (hf : WritesOnly f size) (hj : j < count)
    (h : src = dst ∨ src + size * count ≤ dst ∨ dst + size * count ≤ src) :
    readBytes (units f size j src dst w).mem (src + size * j) size =
      readBytes w.mem (src + size * j) size := by
  have hle : size * (j + 1) ≤ size * count := Nat.mul_le_mul_left size hj
  rw [Nat.mul_succ] at hle
  exact readBytes_units_outside hf (by omega)

/-- What unit `j` has written stays to the end. -/
theorem readBytes_units_destination (hf : WritesOnly f size) (hj : j < count) :
    readBytes (units f size count src dst w).mem (dst + size * j) size =
      readBytes (units f size (j + 1) src dst w).mem (dst + size * j) size := by
  obtain ⟨r, rfl⟩ : ∃ r, count = j + 1 + r := ⟨count - (j + 1), by omega⟩
  rw [units_add]
  exact readBytes_units_outside hf (.inl (by rw [Nat.mul_succ]; omega))

end frame

/-! ### Calls in step -/

/-- Two working states in step: the same IV, cursor and, when some is held, keystream. -/
structure InStep (v v' : Work) : Prop where
  iv : v'.iv = v.iv
  cur : v'.cur = v.cur
  ks : v.cur ≠ 0 → v'.ks = v.ks

/-- Unit `g` undoes unit `f`: in step with it and on its output, `g` gives its source bytes and stays in
step. -/
def Undoes (f g : Nat → Nat → Work → Work) (size : Nat) : Prop :=
  ∀ src dst out v v', InStep v v' →
    readBytes v'.mem dst size = readBytes (f src dst v).mem dst size →
    InStep (f src dst v) (g dst out v') ∧
      readBytes (g dst out v').mem out size = readBytes v.mem src size

/-- After as many units each, the calls are in step and the source bytes so far are given. -/
theorem units_undo {f g : Nat → Nat → Work → Work} {size count j src dst out : Nat} {w w' : Work}
    (hundo : Undoes f g size) (hf : WritesOnly f size) (hg : WritesOnly g size) (hstep : InStep w w')
    (hmem : w'.mem = (units f size count src dst w).mem)
    (hfalias : src = dst ∨ src + size * count ≤ dst ∨ dst + size * count ≤ src)
    (hgalias : dst = out ∨ dst + size * count ≤ out ∨ out + size * count ≤ dst) (hj : j ≤ count) :
    InStep (units f size j src dst w) (units g size j dst out w') ∧
      readBytes (units g size j dst out w').mem out (size * j) = readBytes w.mem src (size * j) := by
  induction j with
  | zero => exact ⟨hstep, rfl⟩
  | succ j ih =>
    obtain ⟨hstep, hbytes⟩ := ih (by omega)
    have hinput : readBytes (units g size j dst out w').mem (dst + size * j) size =
        readBytes (f (src + size * j) (dst + size * j) (units f size j src dst w)).mem
          (dst + size * j) size := by
      rw [readBytes_units_source hg hj hgalias, hmem, readBytes_units_destination hf hj,
        units_succ_last]
    obtain ⟨hstep, hunit⟩ := hundo _ _ (out + size * j) _ _ hstep hinput
    rw [readBytes_units_source hf hj hfalias] at hunit
    rw [units_succ_last, units_succ_last]
    refine ⟨hstep, ?_⟩
    rw [Nat.mul_succ, readBytes_append, readBytes_append, hunit, readBytes_unit_outside hg (.inl le_rfl),
      hbytes]

/-! ### The units of each mode -/

section modes
variable {e d : Block → Block} {preinc : Bool} {v v' : Work}

@[simp] theorem readBytes_writeBlock (m : Memory) (a : Nat) (b : Block) :
    readBytes (writeBlock m a b) a 16 = blockBytes b := by
  rw [← blockBytes_readBlock, readBlock_writeBlock]

theorem readBlock_eq_of_readBytes {m m' : Memory} {a : Nat} (h : readBytes m a 16 = readBytes m' a 16) :
    readBlock m a = readBlock m' a := congrArg blockOfBytes h

theorem ecbUnit_undoes (hd : ∀ b, d (e b) = b) : Undoes (ecbUnit e) (ecbUnit d) 16 := by
  intro src dst out v v' ⟨hiv, hcur, hks⟩ hm
  have hblock : readBlock v'.mem dst = e (readBlock v.mem src) := by
    rw [readBlock_eq_of_readBytes hm, ecbUnit_mem, readBlock_writeBlock]
  refine ⟨⟨by simpa, by simpa, by simpa⟩, ?_⟩
  rw [ecbUnit_mem, readBytes_writeBlock, hblock, hd, blockBytes_readBlock]

/-- Both calls take the ciphertext block as the next IV (41_mode_layer.md R180, R181). -/
theorem cbcUnit_undoes (hd : ∀ b, d (e b) = b) : Undoes (cbcEncUnit e) (cbcDecUnit d) 16 := by
  intro src dst out v v' ⟨hiv, hcur, hks⟩ hm
  have hblock : readBlock v'.mem dst = e (xorBlock (readBlock v.mem src) v.iv) := by
    rw [readBlock_eq_of_readBytes hm, cbcEncUnit_mem, readBlock_writeBlock]
  refine ⟨⟨by simpa, by simpa, by simpa⟩, ?_⟩
  rw [cbcDecUnit_mem, readBytes_writeBlock, hblock, hd, hiv, xorBlock_xorBlock_cancel,
    blockBytes_readBlock]

/-- Calls in step hold the same keystream and the same counter once they hold some. -/
theorem ctrRefill_inStep (h : InStep v v') :
    (ctrRefill preinc e v').ks = (ctrRefill preinc e v).ks ∧
      (ctrRefill preinc e v').iv = (ctrRefill preinc e v).iv := by
  obtain ⟨hiv, hcur, hks⟩ := h
  by_cases h0 : v.cur = 0
  · cases preinc <;> simp [ctrRefill, h0, hcur, hiv]
  · simp [ctrRefill, h0, hcur, hiv, hks h0]

theorem ctrUnit_undoes : Undoes (ctrUnit preinc e) (ctrUnit preinc e) 1 := by
  intro src dst out v v' h hm
  obtain ⟨hks, hiv⟩ := ctrRefill_inStep (preinc := preinc) (e := e) h
  have hbyte : memRead v'.mem dst =
      memRead v.mem src ^^^ blockByte (ctrRefill preinc e v).ks v.cur.val := by
    simpa [ctrUnit_mem] using hm
  refine ⟨⟨hiv, by simp [h.cur], fun _ => hks⟩, ?_⟩
  rw [readBytes_one, readBytes_one, ctrUnit_mem, memRead_memWrite_self, hbyte, hks, h.cur,
    BitVec.xor_assoc, BitVec.xor_self, BitVec.xor_zero]

theorem cfbRefill_inStep (h : InStep v v') :
    (cfbRefill e v').ks = (cfbRefill e v).ks ∧ (cfbRefill e v').iv = (cfbRefill e v).iv := by
  obtain ⟨hiv, hcur, hks⟩ := h
  by_cases h0 : v.cur = 0
  · simp [cfbRefill, h0, hcur, hiv]
  · simp [cfbRefill, h0, hcur, hiv, hks h0]

/-- The same ciphertext byte keeps calls in step that hold the same keystream. -/
theorem cfbFeed_inStep (c : Byte) (hks : v'.ks = v.ks) (hiv : v'.iv = v.iv) (hcur : v'.cur = v.cur) :
    InStep (cfbFeed c v) (cfbFeed c v') := by
  refine ⟨?_, by simp [hcur], fun _ => ?_⟩
  · by_cases h15 : v.cur = 15 <;> simp [cfbFeed, h15, hcur, hks, hiv]
  · by_cases h15 : v.cur = 15 <;> simp [cfbFeed, h15, hcur, hks]

/-- The ciphertext byte that one call feeds back is the one that the other reads
(41_mode_layer.md R190, R191). -/
theorem cfbUnit_undoes : Undoes (cfbEncUnit e) (cfbDecUnit e) 1 := by
  intro src dst out v v' h hm
  obtain ⟨hks, hiv⟩ := cfbRefill_inStep (e := e) h
  have hbyte : memRead v'.mem dst =
      memRead v.mem src ^^^ blockByte (cfbRefill e v).ks v.cur.val := by
    simpa [cfbEncUnit_mem] using hm
  refine ⟨?_, ?_⟩
  · rw [cfbEncUnit, cfbEncEmit, cfbDecUnit, cfbDecEmit, cfbRefill_mem, cfbRefill_mem, cfbRefill_cur,
      ← hbyte]
    exact cfbFeed_inStep _ hks hiv (by simp [h.cur])
  · rw [readBytes_one, readBytes_one, cfbDecUnit_mem, memRead_memWrite_self, hbyte, hks, h.cur,
      BitVec.xor_assoc, BitVec.xor_self, BitVec.xor_zero]

end modes

end Sys2Proof.Machine
end

section
/-! The round trip of two calls: DECRYPT on one slot undoes ENCRYPT on another of the same descriptor, key and
IV (41_mode_layer.md R197). -/

namespace Sys2Proof.Machine

/-! ### The two slots -/

section slots
variable {x y : Slot} {key : List Byte} {m : Mode} {p : Params} {n src dst out : Nat} {w w' : Work}

theorem slotEnc_eq (hrk : x.rk = padWords (encryptSchedule key)) (hnr : x.nr.val = keyNr key) :
    slotEnc x = aesEnc (encryptSchedule key) (keyNr key) := by
  funext b
  rw [slotEnc, hrk, hnr, aesEnc_padWords]

theorem slotDec_eq (hrk : x.rk = padWords (decryptSchedule key)) (hnr : x.nr.val = keyNr key) :
    slotDec x = aesDec (decryptSchedule key) (keyNr key) := by
  funext b
  rw [slotDec, hrk, hnr, aesDec_padWords]

/-- Slot `x` encrypts and slot `y` decrypts, of one descriptor and under one key: `y` holds the
decryption-oriented schedule in a block mode only (43_instance.md R237). -/
structure KeyedPair (x y : Slot) (key : List Byte) : Prop where
  desc : y.desc = x.desc
  words : ∃ nk, key.length = 4 * nk
  encRk : x.rk = padWords (encryptSchedule key)
  decRk : y.rk = padWords (if BlockMode y then decryptSchedule key else encryptSchedule key)
  encNr : x.nr.val = keyNr key
  decNr : y.nr.val = keyNr key

theorem KeyedPair.slotDec_slotEnc (h : KeyedPair x y key) (hb : BlockMode x) (b : Block) :
    slotDec y (slotEnc x b) = b := by
  obtain ⟨hdesc, ⟨nk, hlen⟩, hencRk, hdecRk, hencNr, hdecNr⟩ := h
  rw [if_pos (by rwa [BlockMode, hdesc])] at hdecRk
  rw [slotEnc_eq hencRk hencNr, slotDec_eq hdecRk hdecNr, aesDec_aesEnc hlen]

theorem KeyedPair.slotEnc_eq (h : KeyedPair x y key) (hb : ¬ BlockMode x) : slotEnc y = slotEnc x := by
  obtain ⟨hdesc, -, hencRk, hdecRk, hencNr, hdecNr⟩ := h
  rw [if_neg (by rwa [BlockMode, hdesc])] at hdecRk
  rw [Machine.slotEnc_eq hencRk hencNr, Machine.slotEnc_eq hdecRk hdecNr]

theorem KeyedPair.cryptUnit_undoes (h : KeyedPair x y key) (hm : modeOf x.desc = some m) :
    Undoes (cryptUnit false p x m) (cryptUnit true p y m) (unitSize m) := by
  cases m with
  | ecb => exact ecbUnit_undoes (h.slotDec_slotEnc (.inl hm))
  | cbc => exact cbcUnit_undoes (h.slotDec_slotEnc (.inr hm))
  | ctr =>
    rw [cryptUnit, cryptUnit, h.slotEnc_eq (by simp [BlockMode, hm])]
    exact ctrUnit_undoes
  | cfb =>
    rw [cryptUnit, cryptUnit, h.slotEnc_eq (by simp [BlockMode, hm])]
    exact cfbUnit_undoes

/-- All units of a decryption, on the output of the encryption, give the source bytes. -/
theorem KeyedPair.cryptWork_undo (h : KeyedPair x y key) (hm : modeOf x.desc = some m)
    (hn : BlockMode x → n % 16 = 0) (hstep : InStep w w')
    (hmem : w'.mem = (cryptWork false p x n src dst w).mem)
    (hsrc : src = dst ∨ src + n ≤ dst ∨ dst + n ≤ src)
    (hout : dst = out ∨ dst + n ≤ out ∨ out + n ≤ dst) :
    readBytes (cryptWork true p y n dst out w').mem out n = readBytes w.mem src n := by
  have hunits : unitSize m * (n / unitSize m) = n := Nat.mul_div_cancel' (unitSize_dvd hm hn)
  rw [cryptWork_eq_units hm] at hmem
  rw [cryptWork_eq_units (h.desc ▸ hm)]
  have hundo := units_undo (h.cryptUnit_undoes hm) cryptUnit_writesOnly cryptUnit_writesOnly hstep hmem
    (by rwa [hunits]) (by rwa [hunits]) le_rfl
  rw [hunits] at hundo
  exact hundo.2

end slots

/-! ### The two calls -/

theorem plainAliasing_withArgs {s : State} {src dst n : Nat} (hsrc : src < 2 ^ 32) (hdst : dst < 2 ^ 32)
    (hn : n < 2 ^ 32) :
    PlainAliasing (withArgs s src dst n 0) ↔ src = dst ∨ src + n ≤ dst ∨ dst + n ≤ src := by
  have h0 : (withArgs s src dst n 0).arg0 = src := toWord_toNat hsrc
  have h1 : (withArgs s src dst n 0).arg1 = dst := toWord_toNat hdst
  have h2 : (withArgs s src dst n 0).arg2 = n := toWord_toNat hn
  rw [PlainAliasing, h0, h1, h2]

theorem CryptRan.slot_ne {s t : State} {k j : Nat} {w : Work} (h : CryptRan s t k w) (hj : j ≠ k) :
    t.slot j = s.slot j := by
  rw [slot_eq_getD, h.slots]
  exact setSlot_slot_ne hj

/-- Settles O48: the two calls stay in step, and each unit of the second undoes the unit of the first. -/
theorem decryptRestoresThePlaintext : Obligations.DecryptRestoresThePlaintext := by
  intro s a b src dst out n key hab hdesc hlen hbits hmode hlivea hliveb hkeyeda hkeyedb hnra hnrb
    hscheda hrka hschedb hrkb hcura hcurb hiv hn hsrc hdst hout hblock hsrcOk hdstOk houtOk halias halias'
  obtain ⟨m, hm⟩ := Option.isSome_iff_exists.mp hmode
  have hpair : KeyedPair (s.slot a) (s.slot b) key :=
    ⟨hdesc, ⟨key.length / 4, by omega⟩, hrka, hrkb, hnra, hnrb⟩
  obtain ⟨t, ht, hrant⟩ := exec_cryptInstr_withArgs (dec := false) (s := s) (k := a) (src := src)
    (dst := dst) (n := n) ⟨hlivea, hkeyeda, fun _ => by simp [hscheda]⟩
    ⟨hn, .inr ⟨hsrc, hdst⟩, hblock, hsrcOk, hdstOk⟩
  have hslot : t.slot b = s.slot b := hrant.slot_ne hab.symm
  obtain ⟨u, hu, hranu⟩ := exec_cryptInstr_withArgs (dec := true) (s := t) (k := b) (src := dst)
    (dst := out) (n := n)
    ⟨by rwa [Live, hrant.params, hslot], by rwa [hslot], by
      rw [hslot]; exact fun hb => by simp [hschedb, hb]⟩
    ⟨hn, .inr ⟨hdst, hout⟩, by rwa [hslot, BlockMode, hdesc], by rwa [RangeOk, hrant.params],
      by rwa [RangeOk, hrant.params]⟩
  rw [hrant.params, hslot] at hranu
  have hstep : InStep (startWork s a false) (startWork t b false) := by
    refine ⟨?_, ?_, fun hne => absurd hcura hne⟩
    · exact (congrArg Slot.iv hslot).trans hiv
    · exact (congrArg Slot.cur hslot).trans (hcurb.trans hcura.symm)
  refine ⟨t, u, ht, hu, hrant.errcode, hranu.errcode, ?_⟩
  rw [hranu.mem, ← startWork_mem s a false]
  exact hpair.cryptWork_undo hm hblock hstep ((startWork_mem t b false).trans hrant.mem)
    ((plainAliasing_withArgs hsrc hdst hn).mp halias)
    ((plainAliasing_withArgs hdst hout hn).mp halias')

end Sys2Proof.Machine
end

section
/-! What a completion leaves in the window, for every command and for a word that is none
(60_exceptions.md R271). -/

namespace Sys2Proof.Machine

section completion
variable {s t eff : State} {i : Instr}

/-- A completion after an effect that kept the window, the latch, the parameters and the host. -/
theorem completed_complete (hwindow : eff.window = s.window) (hlatch : eff.latch = s.latch)
    (hparams : eff.params = s.params) (hhost : eff.host = s.host) (e : ErrCode) (v : Word) :
    Completed s (eff.complete e v) e (if e = .ok then v else 0) where
  busy := rfl
  done := rfl
  err := rfl
  errcode := rfl
  ovr := by simp [hwindow]
  result := rfl
  cmd := by simp [hwindow]
  args := by simp [hwindow]
  latch := hlatch
  params := hparams
  host := hhost

theorem completed_raiseError (s : State) (e : ErrCode) : Completed s (s.raiseError e) e 0 := by
  simpa [raiseError_eq] using completed_complete rfl rfl rfl rfl e 0

theorem completed_effectOf (i : Instr) (s : State) (v : Word) :
    Completed s ((effectOf i s).complete .ok v) .ok v := by
  simpa using completed_complete (s := s) (eff := effectOf i s) rfl rfl rfl rfl .ok v

/-- A command ends in one completion: with the first failing check's code, or with its value. -/
theorem exec_completed (h : exec i s = .next t) :
    ∃ e v, Completed s t e v ∧ (e ≠ .ok → v = 0) := by
  rcases exec_cases h with ⟨e, -, rfl⟩ | ⟨-, rfl⟩
  · exact ⟨e, 0, completed_raiseError s e, fun _ => rfl⟩
  · exact ⟨.ok, valueOf i s, completed_effectOf i s _, fun herr => absurd rfl herr⟩

theorem exec_completes (i : Instr) (s : State) :
    ∃ t e v, exec i s = .next t ∧ Completed s t e v ∧ (e ≠ .ok → v = 0) := by
  obtain ⟨e, v, hcompleted⟩ := exec_completed (exec_eq i s)
  exact ⟨_, e, v, exec_eq i s, hcompleted⟩

theorem engineStep_ok (h : decode s.latch.cmd = .ok i) : engineStep s = exec i s := by
  simp only [engineStep, h]

theorem engineStep_error {r : Undecodable} (h : decode s.latch.cmd = .error r) :
    engineStep s = .next (s.raiseError .illegal) := by
  simp only [engineStep, h]

theorem engineStep_completes (s : State) :
    ∃ t e v, engineStep s = .next t ∧ Completed s t e v ∧ (e ≠ .ok → v = 0) := by
  cases hdecode : decode s.latch.cmd with
  | ok i => rw [engineStep_ok hdecode]; exact exec_completes i s
  | error r =>
    exact ⟨_, .illegal, 0, engineStep_error hdecode, completed_raiseError s .illegal, fun _ => rfl⟩

end completion

/-- Settles O18: the step on a word is `exec` of its command or `ERR_ILLEGAL`, and each is one completion. -/
theorem everyCommandCompletes : Obligations.EveryCommandCompletes :=
  ⟨exec_completes, engineStep_completes⟩

end Sys2Proof.Machine
end

section
/-! `OVR` is sticky: what each step does to it (60_exceptions.md R276). -/

namespace Sys2Proof.Machine

section sticky
variable {s t : State} {v : Word}

theorem writeCmd_keeps_ovr (hovr : s.window.status.ovr = true) (v : Word) :
    (writeCmd s v).window.status.ovr = true := by
  cases hbusy : s.window.status.busy with
  | true => rw [writeCmd_busy hbusy]; rfl
  | false => rw [writeCmd_idle hbusy]; exact hovr

/-- Of all window writes only one of `CTRL` with `SRST` or `OVRCLR` can clear `OVR`. -/
theorem windowWrite_keeps_ovr (hovr : s.window.status.ovr = true) (offset : Nat) (v : Word) :
    (windowWrite s offset v).window.status.ovr = true ∨
      offset = 0x1C ∧ (v.getLsbD 0 = true ∨ v.getLsbD 1 = true) := by
  unfold windowWrite
  split_ifs with hcmd h0 h1 h2 h3 hctrl
  · exact .inl (writeCmd_keeps_ovr hovr v)
  · exact .inl hovr
  · exact .inl hovr
  · exact .inl hovr
  · exact .inl hovr
  · by_cases hbits : v.getLsbD 0 = true ∨ v.getLsbD 1 = true
    · exact .inr ⟨hctrl, hbits⟩
    · simp only [not_or, Bool.not_eq_true] at hbits
      obtain ⟨hsrst, hovrclr⟩ := hbits
      exact .inl (by rwa [writeCtrl_neither hsrst hovrclr])
  · exact .inl hovr

theorem width_of_windowAnswers {offset width : Nat} (h : windowAnswers offset width = true) :
    width = 32 := by
  by_contra hwidth
  simp [windowAnswers, hwidth] at h

/-- The host's moves that can change the window are its writes there and a power-up. -/
theorem hostMove_window {act : HostAction} (h : hostMove act s = .next t) :
    t.window = s.window ∨ act = .powerUp ∨
      ∃ offset v, act = .writeWindow offset 32 v ∧ t.window = (windowWrite s offset v).window := by
  cases act with
  | readWindow offset width =>
    cases hans : windowAnswers offset width with
    | false => rw [hostMove_readWindow_refused hans] at h; cases h
    | true =>
      simp only [hostMove, hans, if_true] at h
      cases h
      exact .inl rfl
  | writeWindow offset width v =>
    cases hans : windowAnswers offset width with
    | false => rw [hostMove_writeWindow_refused hans] at h; cases h
    | true =>
      obtain rfl : width = 32 := width_of_windowAnswers hans
      rw [hostMove_writeWindow hans] at h
      cases h
      exact .inr (.inr ⟨offset, v, rfl, rfl⟩)
  | readMem a => exact .inl (by rw [(hostMemAccess_next h).1]; rfl)
  | writeMem a b => exact .inl (by rw [(hostMemAccess_next h).1]; rfl)
  | waitDone =>
    simp only [hostMove] at h
    split at h <;> cases h <;> exact .inl rfl
  | powerUp => exact .inr (.inl rfl)

/-- A move of the host that clears `OVR` is a power-up or a `CTRL` write of `SRST` or `OVRCLR`. -/
theorem hostMove_keeps_ovr {act : HostAction} (hovr : s.window.status.ovr = true)
    (h : hostMove act s = .next t) : t.window.status.ovr = true ∨ act = .powerUp ∨
      ∃ v, act = .writeWindow 0x1C 32 v ∧ (v.getLsbD 0 = true ∨ v.getLsbD 1 = true) := by
  rcases hostMove_window h with hsame | rfl | ⟨offset, v, rfl, hwrite⟩
  · exact .inl (by rwa [hsame])
  · exact .inr (.inl rfl)
  · rw [hwrite]
    rcases windowWrite_keeps_ovr hovr offset v with hkept | ⟨rfl, hbits⟩
    · exact .inl hkept
    · exact .inr (.inr ⟨v, rfl, hbits⟩)

/-- No completion touches `OVR`, so only a move of the host can clear it. -/
theorem step_keeps_ovr (hovr : s.window.status.ovr = true) (h : step s = .next t) :
    t.window.status.ovr = true ∨ s.nextAction = some .powerUp ∨
      ∃ v, s.nextAction = some (.writeWindow 0x1C 32 v) ∧
        (v.getLsbD 0 = true ∨ v.getLsbD 1 = true) := by
  rcases step_cases h with
    ⟨-, ⟨i, -, hexec⟩ | ⟨r, -, rfl⟩⟩ | ⟨-, ⟨act, hact, hmove⟩ | ⟨-, rfl⟩⟩
  · obtain ⟨e, v, hcompleted, -⟩ := exec_completed hexec
    exact .inl (hcompleted.ovr.trans hovr)
  · exact .inl ((completed_raiseError s .illegal).ovr.trans hovr)
  · simpa [hact] using hostMove_keeps_ovr (s := { s with delay := s.delay - 1 }) hovr hmove
  · exact .inl hovr

end sticky

/-- Settles O11: a `CMD` write is an overrun or accepted, as `BUSY` alone says, and `OVR` stays in between. -/
theorem overrunOnlySetsOvr : Obligations.OverrunOnlySetsOvr := by
  refine ⟨fun s v hbusy => ?_, fun s t => step_keeps_ovr, fun s v hidle _ => ?_⟩
  · obtain ⟨-, -, hoverrun⟩ := cmdWriteIsAccepted s v
    exact hoverrun hbusy
  · obtain ⟨-, haccept, -⟩ := cmdWriteIsAccepted s v
    obtain ⟨t, ht, hlatch, hwindow, -⟩ := haccept hidle
    exact ⟨t, ht, by rw [hwindow], by rw [hlatch]⟩

end Sys2Proof.Machine
end

section
/-! The command word: the opcode map, decoding and encoding (30_encoding.md R91 to R99). -/

namespace Sys2Proof

/-! ### The rows of the opcode map -/

/-- Two rows that cover one word agree where both masks look, and the map has no two such rows. -/
theorem opcodeMap_disjoint : ∀ r ∈ opcodeMap, ∀ r' ∈ opcodeMap,
    r.bits &&& r'.mask = r'.bits &&& r.mask → r = r' := by decide

theorem Row.covers_iff {r : Row} {w : Word} : r.covers w = true ↔ w &&& r.mask = r.bits := by
  simp [Row.covers]

/-- Settles O4: what a row fixes of the word, no other row fixes otherwise. -/
theorem opcodeRowsDisjoint : Obligations.OpcodeRowsDisjoint := by
  intro w r hr r' hr' hcovers hcovers'
  rw [Row.covers_iff] at hcovers hcovers'
  refine opcodeMap_disjoint r hr r' hr' ?_
  rw [← hcovers, ← hcovers', BitVec.and_assoc, BitVec.and_assoc, BitVec.and_comm r.mask]

/-- Settles O1. -/
theorem decodeOfWrittenWords : Obligations.DecodeOfWrittenWords := by
  refine ⟨?_, ?_, ?_, ?_, ?_, ?_, ?_, ?_⟩ <;> decide

/-- A word decodes to what the row that covers it builds. -/
theorem decode_of_covers {r : Row} {w : Word} (hr : r ∈ opcodeMap) (h : r.covers w = true) :
    decode w = .ok (r.op.build w) := by
  have hfind : opcodeMap.find? (fun r => r.covers w) = some r := by
    cases hf : opcodeMap.find? (fun r => r.covers w) with
    | none => exact absurd h (List.find?_eq_none.mp hf r hr)
    | some r' =>
      have hcovers : r'.covers w = true := List.find?_some (p := fun r => Row.covers r w) hf
      rw [opcodeRowsDisjoint w r' (List.mem_of_find?_eq_some hf) r hr hcovers h]
  simp only [decode, hfind]

/-- A word that decodes is covered by a row, which builds the command. -/
theorem covers_of_decode {w : Word} {i : Instr} (h : decode w = .ok i) :
    ∃ r ∈ opcodeMap, r.covers w = true ∧ r.op.build w = i := by
  unfold decode at h
  split at h
  · rename_i r hf
    cases h
    have hcovers : r.covers w = true := List.find?_some (p := fun r => Row.covers r w) hf
    exact ⟨r, List.mem_of_find?_eq_some hf, hcovers, rfl⟩
  · split at h <;> cases h

theorem decode_error {w : Word} (h : ∀ r ∈ opcodeMap, r.covers w = false) :
    ∃ u, decode w = .error u := by
  cases hd : decode w with
  | error u => exact ⟨u, rfl⟩
  | ok i =>
    obtain ⟨r, hr, hcovers, -⟩ := covers_of_decode hd
    simp [h r hr] at hcovers

/-! ### Decoding an encoded command -/

/-- Every command has a row that its word matches (30_encoding.md R94). -/
theorem rowMatch (i : Instr) : Laws.RowMatch.Statement i := by
  cases i with
  | register => exact Laws.RowMatch.register
  | unregister => exact Laws.RowMatch.unregister
  | unregisterAll => exact Laws.RowMatch.unregisterAll
  | resolve => exact Laws.RowMatch.resolve
  | alloc => exact Laws.RowMatch.alloc
  | allocParts m => exact Laws.RowMatch.allocParts m
  | free k => exact Laws.RowMatch.free k
  | setKey k dir => exact Laws.RowMatch.setKey k dir
  | setIv k ivp => exact Laws.RowMatch.setIv k ivp
  | pokeIv k => exact Laws.RowMatch.pokeIv k
  | encrypt k ivp => exact Laws.RowMatch.encrypt k ivp
  | decrypt k ivp => exact Laws.RowMatch.decrypt k ivp
  | getBlockLen k => exact Laws.RowMatch.getBlockLen k
  | getIvLen k => exact Laws.RowMatch.getIvLen k
  | getKeyLen k => exact Laws.RowMatch.getKeyLen k
  | getName k => exact Laws.RowMatch.getName k
  | getAlgName k => exact Laws.RowMatch.getAlgName k
  | getMode k => exact Laws.RowMatch.getMode k
  | getIv k => exact Laws.RowMatch.getIv k
  | getState k => exact Laws.RowMatch.getState k

/-- Settles O2: the row that the word matches builds the command, and no other row matches. -/
theorem decodeEncodeRoundTrip : Obligations.DecodeEncodeRoundTrip := by
  intro i hw
  obtain ⟨r, hr, hcovers, hbuild⟩ := rowMatch i hw
  rw [decode_of_covers hr hcovers, hbuild]

/-! ### Encoding a decoded word -/

section fields
variable {w mask bits : Word}

/-- A field put back at its place is what the word holds there. -/
theorem place_field (w : Word) (lo width : Nat) :
    place (field w lo width) lo = w &&& BitVec.ofNat 32 ((2 ^ width - 1) * 2 ^ lo) := by
  apply BitVec.eq_of_getLsbD_eq
  intro j hj
  simp only [place, field, BitVec.getLsbD_and, BitVec.getLsbD_ofNat, hj, decide_true, Bool.true_and,
    Nat.testBit_mul_two_pow, Nat.testBit_mod_two_pow, Nat.testBit_div_two_pow,
    Nat.testBit_two_pow_sub_one]
  by_cases hlo : lo ≤ j
  · rw [Nat.sub_add_cancel hlo, ← BitVec.getLsbD, Bool.and_comm (w.getLsbD j), Bool.and_assoc]
  · simp [hlo]

theorem placeBit_field (w : Word) (lo : Nat) :
    placeBit (field w lo 1 == 1) lo = w &&& BitVec.ofNat 32 ((2 ^ 1 - 1) * 2 ^ lo) := by
  rw [← place_field, placeBit]
  congr 1
  have : field w lo 1 < 2 := Nat.mod_lt _ (by decide)
  generalize field w lo 1 = v at *
  interval_cases v <;> rfl

theorem place_slotField (w : Word) : place (slotField w) 16 = w &&& 0x00FF0000 :=
  place_field w _ _

theorem place_modeField (w : Word) : place (modeField w) 12 = w &&& 0x0000F000 :=
  place_field w _ _

theorem placeBit_dirField (w : Word) : placeBit (dirField w) 11 = w &&& 0x00000800 :=
  placeBit_field w _

theorem placeBit_ivpField (w : Word) : placeBit (ivpField w) 10 = w &&& 0x00000400 :=
  placeBit_field w _

/-- A word is what a row fixes of it and the fields that the row leaves free. -/
theorem bits_or_free (h : w &&& mask = bits) : bits ||| w &&& ~~~mask = w := by
  rw [← h, ← BitVec.and_or_distrib_left, BitVec.or_not_self, BitVec.and_allOnes]

end fields

theorem slotField_lt (w : Word) : slotField w < 256 := Nat.mod_lt _ (by decide)

theorem modeField_lt (w : Word) : modeField w < 16 := Nat.mod_lt _ (by decide)

theorem build_wellFormed (op : Op) (w : Word) : (op.build w).WellFormed := by
  cases op <;> simp [Op.build, Instr.WellFormed, Instr.slot?, Instr.mode?, slotField_lt, modeField_lt]

/-- The command that a row builds from a word it covers has that word: the bits that the row leaves
free are just the fields of the command (30_encoding.md R93). -/
theorem encode_build {r : Row} {w : Word} (hr : r ∈ opcodeMap) (h : r.covers w = true) :
    encode (r.op.build w) = w := by
  have hfree : r.bits ||| w &&& ~~~r.mask = w := bits_or_free (Row.covers_iff.mp h)
  have hslot : w &&& ~~~0xFF00FFFF = place (slotField w) 16 := (place_slotField w).symm
  have hmode : w &&& ~~~0xFFFF0FFF = place (modeField w) 12 := (place_modeField w).symm
  have hdir : w &&& ~~~0xFF00F7FF = place (slotField w) 16 ||| placeBit (dirField w) 11 := by
    rw [place_slotField, placeBit_dirField, ← BitVec.and_or_distrib_left]
    rfl
  have hivp : w &&& ~~~0xFF00FBFF = place (slotField w) 16 ||| placeBit (ivpField w) 10 := by
    rw [place_slotField, placeBit_ivpField, ← BitVec.and_or_distrib_left]
    rfl
  have hnone : w &&& ~~~0xFFFFFFFF = 0 := BitVec.and_zero
  simp only [opcodeMap, List.cons_append, List.nil_append, List.mem_cons, List.not_mem_nil,
    or_false] at hr
  rcases hr with rfl | rfl | rfl | rfl | rfl | rfl | rfl | rfl | rfl | rfl | rfl | rfl | rfl | rfl |
    rfl | rfl | rfl | rfl | rfl | rfl <;>
    simp only [hslot, hmode, hdir, hivp, hnone, ← BitVec.or_assoc] at hfree <;> exact hfree

/-- Settles O3: the fields taken from a word, put back at their places, are all that its row leaves free. -/
theorem decodedWordsEncodeBack : Obligations.DecodedWordsEncodeBack := by
  intro w i h
  obtain ⟨r, hr, hcovers, rfl⟩ := covers_of_decode h
  exact ⟨encode_build hr hcovers, build_wellFormed r.op w⟩

/-! ### Words that do not decode -/

/-- Bits that a row fixes are the row's own in every word it covers. -/
theorem field_eq_of_covers {r : Row} {w : Word} {lo width : Nat} (h : r.covers w = true)
    (hmask : r.mask.extractLsb' lo width = BitVec.allOnes width) :
    field w lo width = field r.bits lo width := by
  have hfield (v : Word) : field v lo width = (v.extractLsb' lo width).toNat := by
    simp [field, Nat.shiftRight_eq_div_pow]
  rw [hfield, hfield, ← Row.covers_iff.mp h, BitVec.extractLsb'_and, hmask, BitVec.and_allOnes]

/-- The opcodes of the map (30_encoding.md R98). -/
theorem opcField_of_covers {r : Row} {w : Word} (hr : r ∈ opcodeMap) (h : r.covers w = true) :
    opcField w = opcField r.bits := by
  have hmasks : ∀ r ∈ opcodeMap, r.mask.extractLsb' 24 8 = BitVec.allOnes 8 := by decide
  exact field_eq_of_covers h (hmasks r hr)

/-- Bits 9 to 0 of a word that a row covers are 0, or the row is UNREGISTER_ALL (30_encoding.md R91). -/
theorem reserved_of_covers {r : Row} {w : Word} (hr : r ∈ opcodeMap) (h : r.covers w = true) :
    field w 0 10 = 0 ∨ w = 0x02000200 := by
  have hmasks : ∀ r ∈ opcodeMap, r.mask.extractLsb' 0 10 = BitVec.allOnes 10 ∧
      (field r.bits 0 10 = 0 ∨ r.mask = BitVec.allOnes 32 ∧ r.bits = 0x02000200) := by decide
  obtain ⟨hlow, hzero | ⟨hall, hbits⟩⟩ := hmasks r hr
  · exact .inl ((field_eq_of_covers h hlow).trans hzero)
  · exact .inr (by rw [← hbits, ← Row.covers_iff.mp h, hall, BitVec.and_allOnes])

theorem decode_reserved_opcode {w : Word} (h : opcField w = 0x00 ∨
    (0x04 ≤ opcField w ∧ opcField w ≤ 0x0F) ∨
    (0x16 ≤ opcField w ∧ opcField w ≤ 0x1F) ∨ (0x22 ≤ opcField w ∧ opcField w ≤ 0x2F) ∨
    0x38 ≤ opcField w) : ∃ u, decode w = .error u := by
  have hmap : ∀ r ∈ opcodeMap, ¬ (opcField r.bits = 0x00 ∨
      (0x04 ≤ opcField r.bits ∧ opcField r.bits ≤ 0x0F) ∨
      (0x16 ≤ opcField r.bits ∧ opcField r.bits ≤ 0x1F) ∨
      (0x22 ≤ opcField r.bits ∧ opcField r.bits ≤ 0x2F) ∨ 0x38 ≤ opcField r.bits) := by decide
  refine decode_error fun r hr => ?_
  by_contra hcovers
  rw [Bool.not_eq_false] at hcovers
  exact hmap r hr (by rwa [← opcField_of_covers hr hcovers])

theorem decode_reserved_bits {w : Word} (h : field w 0 10 ≠ 0) (hw : w ≠ 0x02000200) :
    ∃ u, decode w = .error u := by
  refine decode_error fun r hr => ?_
  by_contra hcovers
  rw [Bool.not_eq_false] at hcovers
  exact (reserved_of_covers hr hcovers).elim h hw

end Sys2Proof
end

section
/-! The turn of the engine and the turn of the host (10_state.md R20, 70_reset_and_hazards.md R320). -/

namespace Sys2Proof.Machine

section turn
variable {s t : State} {i : Instr}

theorem engineTurn_iff : s.engineTurn = true ↔ s.window.status.busy = true ∧ EngineDue s := by
  simp [State.engineTurn, EngineDue, or_assoc]

theorem step_of_due (hbusy : s.window.status.busy = true) (hdue : EngineDue s) :
    step s = engineStep s := if_pos (engineTurn_iff.mpr ⟨hbusy, hdue⟩)

theorem step_of_not_due (h : s.window.status.busy = false ∨ ¬ EngineDue s) : step s = hostStep s := by
  refine if_neg fun hturn => ?_
  obtain ⟨hbusy, hdue⟩ := engineTurn_iff.mp hturn
  rcases h with hidle | hnot
  · rw [hbusy] at hidle
    cases hidle
  · exact hnot hdue

end turn

/-- Settles O5: no row covers such a word, and a word that no row covers raises `ERR_ILLEGAL`. -/
theorem reservedWordsRaiseIllegal : Obligations.ReservedWordsRaiseIllegal :=
  ⟨fun _ => decode_reserved_opcode, fun _ => decode_reserved_bits, fun s _ hbusy hdue hdecode =>
    ⟨s.raiseError .illegal, by rw [step_of_due hbusy hdue, engineStep_error hdecode],
      completed_raiseError s .illegal, rfl, rfl, rfl⟩⟩

/-- Settles O6. -/
theorem stepRunsDecodedCommand : Obligations.StepRunsDecodedCommand := by
  intro s i hbusy hdue hdecode
  rw [step_of_due hbusy hdue, engineStep_ok hdecode]

theorem tableWord_toNat (w : Word) : tableWord 32 w.toNat = w := by
  rw [tableWord, Nat.mod_eq_of_lt w.isLt, BitVec.ofNat_toNat, BitVec.setWidth_eq]

/-- Settles O7: the placed command is in progress and due, and its word decodes to it. -/
theorem fetchedWordRuns : Obligations.FetchedWordRuns := by
  intro s i hw f
  have hlatch : f.latch = ⟨encode i, s.window.arg0, s.window.arg1, s.window.arg2, s.window.arg3⟩ := by
    simp only [f, State.withFetchWord, tableWord_toNat, accept_latch]
  have hwindow : f.window = ⟨encode i, s.window.arg0, s.window.arg1, s.window.arg2, s.window.arg3,
      statusAtAcceptance s.window.status, 0⟩ := by
    simp only [f, State.withFetchWord, tableWord_toNat, accept_window]
  have hdecode : decode f.latch.cmd = .ok i := by
    rw [hlatch]
    exact decodeEncodeRoundTrip i hw
  exact ⟨stepRunsDecodedCommand f i rfl (.inr (.inr rfl)) hdecode, hlatch, hwindow, rfl, rfl, rfl, rfl⟩

/-- Settles O8. -/
theorem hostActsWhenEngineIsNotDue : Obligations.HostActsWhenEngineIsNotDue := by
  intro s h
  rw [step_of_not_due h]
  exact ⟨fun act hact => by simp only [hostStep, hact], fun hnone => by simp only [hostStep, hnone]⟩

/-! ### A command in progress -/

section progress
variable {s t : State} {act : HostAction}

theorem windowWrite_busy (hbusy : s.window.status.busy = true) (offset : Nat) (v : Word) :
    (windowWrite s offset v).window.status.busy = false ∨
      (windowWrite s offset v).window.status.busy = true ∧ (windowWrite s offset v).latch = s.latch ∧
        (windowWrite s offset v).delay = s.delay := by
  unfold windowWrite
  split_ifs with hcmd h0 h1 h2 h3 hctrl
  · rw [writeCmd_busy hbusy]
    exact .inr ⟨hbusy, rfl, rfl⟩
  · exact .inr ⟨hbusy, rfl, rfl⟩
  · exact .inr ⟨hbusy, rfl, rfl⟩
  · exact .inr ⟨hbusy, rfl, rfl⟩
  · exact .inr ⟨hbusy, rfl, rfl⟩
  · unfold writeCtrl
    split_ifs
    · exact .inl rfl
    · exact .inr ⟨hbusy, rfl, rfl⟩
    · exact .inr ⟨hbusy, rfl, rfl⟩
  · exact .inr ⟨hbusy, rfl, rfl⟩

/-- A move of the host leaves the command in progress alone, or a reset discards it
(70_reset_and_hazards.md R302). -/
theorem hostMove_busy (hbusy : s.window.status.busy = true) (h : hostMove act s = .next t) :
    t.window.status.busy = false ∨
      t.window.status.busy = true ∧ t.latch = s.latch ∧ t.delay = s.delay := by
  cases act with
  | readWindow offset width =>
    simp only [hostMove] at h
    split at h <;> cases h
    exact .inr ⟨hbusy, rfl, rfl⟩
  | writeWindow offset width v =>
    simp only [hostMove] at h
    split at h <;> cases h
    exact windowWrite_busy hbusy offset v
  | readMem a =>
    rw [(hostMemAccess_next h).1]
    exact .inr ⟨hbusy, rfl, rfl⟩
  | writeMem a v =>
    rw [(hostMemAccess_next h).1]
    exact .inr ⟨hbusy, rfl, rfl⟩
  | waitDone =>
    simp only [hostMove] at h
    split at h <;> cases h <;> exact .inr ⟨hbusy, rfl, rfl⟩
  | powerUp =>
    cases h
    exact .inl rfl

end progress

/-- Settles O9: the engine's turn completes the command, and a host action takes one off the time left. -/
theorem commandsInProgressEnd : Obligations.CommandsInProgressEnd := by
  intro s t hbusy h
  rcases step_cases h with
    ⟨-, ⟨i, -, hexec⟩ | ⟨r, -, rfl⟩⟩ | ⟨hturn, ⟨act, hact, hmove⟩ | ⟨hnone, rfl⟩⟩
  · obtain ⟨e, v, hcompleted, -⟩ := exec_completed hexec
    exact .inl hcompleted.busy
  · exact .inl rfl
  · have hdelay : s.delay ≠ 0 := fun h0 => by
      simp [engineTurn_iff.mpr ⟨hbusy, .inr (.inr h0)⟩] at hturn
    refine (hostMove_busy (s := { s with delay := s.delay - 1 }) hbusy hmove).imp_right
      fun ⟨hstill, hlatch, htime⟩ => ⟨hstill, hlatch, ?_⟩
    rw [htime]
    exact Nat.sub_one_lt hdelay
  · simp [engineTurn_iff.mpr ⟨hbusy, .inr (.inl hnone)⟩] at hturn

/-! ### The host's port to `MEM` -/

/-- Settles O14. -/
theorem windowWritesStoreOperandsOnly : Obligations.WindowWritesStoreOperandsOnly :=
  fun _ _ => ⟨rfl, rfl, rfl, rfl⟩

section port
variable {s : State} {a : Nat}

theorem inRunningRange_iff :
    inRunningRange s a = true ↔ ∃ r ∈ runningRanges s, r.1 ≤ a ∧ a < r.1 + r.2 := by
  simp [inRunningRange]

theorem runningRanges_of_decode {i : Instr} (hbusy : s.window.status.busy = true)
    (hdecode : decode s.latch.cmd = .ok i) : runningRanges s = commandRanges i s := by
  simp only [runningRanges, hbusy, if_true, hdecode]

/-- A range of the engine is one of the decoded command in progress. -/
theorem mem_runningRanges {r : Nat × Nat} (h : r ∈ runningRanges s) : s.window.status.busy = true ∧
    ∃ i, decode s.latch.cmd = .ok i ∧ r ∈ commandRanges i s := by
  unfold runningRanges at h
  split at h
  · split at h
    · exact ⟨‹_›, _, ‹_›, h⟩
    · cases h
  · cases h

theorem hostMemAccess_refused (s' : State) (ha : a < s.params.memSize)
    (h : inRunningRange s a = true) :
    hostMemAccess s a s' = .refused (.memAccessInRunningRange a) := by
  rw [hostMemAccess, if_neg (by omega), if_pos h]

theorem hostMemAccess_free (s' : State) (ha : a < s.params.memSize)
    (h : inRunningRange s a = false) : hostMemAccess s a s' = .next s' := by
  rw [hostMemAccess, if_neg (by omega), h]
  rfl

end port

/-- Settles O17: a byte of `MEM` lies in a range of the command in progress or it does not. -/
theorem hostMemMovesAvoidRunningRanges : Obligations.HostMemMovesAvoidRunningRanges := by
  intro s a v ha
  refine ⟨fun i hbusy hdecode hr => ?_, fun hfree => ?_⟩
  · have hin : inRunningRange s a = true := by
      rw [inRunningRange_iff, runningRanges_of_decode hbusy hdecode]
      exact hr
    exact ⟨hostMemAccess_refused _ ha hin, hostMemAccess_refused _ ha hin⟩
  · have hout : inRunningRange s a = false := by
      rw [← Bool.not_eq_true, inRunningRange_iff]
      rintro ⟨r, hr, hlow, hhigh⟩
      obtain ⟨hbusy, i, hdecode, hr⟩ := mem_runningRanges hr
      rcases hfree with hidle | hfree
      · rw [hbusy] at hidle
        cases hidle
      · have := hfree i hdecode r hr
        omega
    exact ⟨hostMemAccess_free _ ha hout, _, hostMemAccess_free _ ha hout, rfl, rfl, rfl, rfl,
      memRead_memWrite_self _ _ _, fun x hx => memRead_memWrite_ne _ _ hx.symm⟩

end Sys2Proof.Machine
end

section
/-! Errors: what a failed command leaves, and which check of a command fails first
(60_exceptions.md R272, R273, R277). -/

namespace Sys2Proof.Machine

/-! ### A failed command -/

/-- The completion fields are nothing that a check reads. -/
theorem checksOf_complete (i : Instr) (s : State) (e : ErrCode) (v : Word) :
    checksOf i (s.complete e v) = checksOf i s := by cases i <;> rfl

/-- A command that ended with an error changed nothing but the completion fields. -/
theorem exec_failed {i : Instr} {s t : State} (h : exec i s = .next t)
    (herr : t.window.status.errcode ≠ .ok) :
    ∃ e, firstFailure (checksOf i s) = some e ∧ t = s.complete e 0 := by
  rcases exec_cases h with hfail | ⟨-, rfl⟩
  · exact hfail
  · exact absurd rfl herr

/-- Settles O19. -/
theorem errorsArePrecise : Obligations.ErrorsArePrecise := by
  rintro i s t e h rfl herr
  obtain ⟨e, -, rfl⟩ := exec_failed h herr
  exact ⟨completed_raiseError s e, rfl, rfl, rfl⟩

/-- Settles O20: the checks read nothing that a completion writes. -/
theorem failedCommandsFailAgain : Obligations.FailedCommandsFailAgain := by
  intro i s t h herr
  obtain ⟨e, hfail, rfl⟩ := exec_failed h herr
  rw [← checksOf_complete i s e 0] at hfail
  rw [exec_error hfail, complete_complete]

/-! ### The code of a list of checks -/

/-- The code of a command with these checks. -/
def codeOf (l : List (Bool × ErrCode)) : ErrCode := (firstFailure l).getD .ok

@[simp] theorem codeOf_nil : codeOf [] = .ok := rfl

theorem codeOf_cons (bad : Bool) (e : ErrCode) (rest : List (Bool × ErrCode)) :
    codeOf ((bad, e) :: rest) = if bad = true then e else codeOf rest := by
  cases bad <;> rfl

theorem endsWith_codeOf (i : Instr) (s : State) : EndsWith i s (codeOf (checksOf i s)) := by
  cases hf : firstFailure (checksOf i s) with
  | none => exact ⟨_, exec_ok hf, by simp [codeOf, hf]⟩
  | some e => exact ⟨_, exec_error hf, by simp [codeOf, hf]⟩

/-- A command whose checks are these ends with this code. -/
theorem endsWith_of_codeOf {i : Instr} {s : State} {e : ErrCode} (h : codeOf (checksOf i s) = e) :
    EndsWith i s e := h ▸ endsWith_codeOf i s

/-- A command whose code is `OK` passes its checks. -/
theorem firstFailure_none_of_codeOf {i : Instr} {s : State} (h : codeOf (checksOf i s) = .ok) :
    firstFailure (checksOf i s) = none := by
  cases hf : firstFailure (checksOf i s) with
  | none => rfl
  | some e => exact absurd (by rwa [codeOf, hf] at h) (checksOf_ne_ok hf)

section checks
variable {s : State} {k a n : Nat} {rest : List (Bool × ErrCode)}

theorem outOfRange_iff : outOfRange s a n = true ↔ ¬ RangeOk s a n := by
  rw [← Bool.not_eq_false, outOfRange_false_iff]

theorem codeOf_slotChecks : codeOf (slotChecks s k ++ rest) =
    if ¬ Live s k then .badSlot else codeOf rest := by
  simp only [slotChecks, List.cons_append, List.nil_append, codeOf_cons]
  by_cases hk : k < s.params.nslots
  · simp [Live, hk, Nat.not_le.mpr hk]
  · simp [Live, hk, Nat.le_of_not_lt hk]

theorem codeOf_slotChecks_alone : codeOf (slotChecks s k) = if ¬ Live s k then .badSlot else .ok := by
  rw [← List.append_nil (slotChecks s k), codeOf_slotChecks, codeOf_nil]

theorem codeOf_rangeCheck : codeOf ((outOfRange s a n, .memRange) :: rest) =
    if ¬ RangeOk s a n then .memRange else codeOf rest := by
  rw [codeOf_cons]
  exact if_congr outOfRange_iff rfl rfl

theorem badNameLength_iff {limit : Nat} : badNameLength n limit = true ↔ ¬ (1 ≤ n ∧ n ≤ limit) := by
  simp [badNameLength]
  omega

end checks

/-! ### The slot commands -/

/-- The code of ENCRYPT and DECRYPT (41_mode_layer.md R173). -/
theorem codeOf_cryptChecks (s : State) (k : Nat) (ivp wrong : Bool) :
    codeOf (cryptChecks s k ivp wrong) =
      if ¬ Live s k then ErrCode.badSlot
      else if (s.slot k).keyed = false then .notKeyed
      else if BlockMode (s.slot k) ∧ (s.slot k).sched = wrong then .direction
      else if BlockMode (s.slot k) ∧ s.arg2 % 16 ≠ 0 then .length
      else if ¬ RangeOk s s.arg0 s.arg2 ∨ ¬ RangeOk s s.arg1 s.arg2 then .memRange
      else if ivp = true ∧ ¬ RangeOk s s.arg3 16 then .memRange
      else .ok := by
  rw [cryptChecks, codeOf_slotChecks]
  simp only [codeOf_cons, codeOf_nil]
  refine if_congr Iff.rfl rfl (if_congr ?_ rfl (if_congr ?_ rfl (if_congr ?_ rfl
    (if_congr ?_ rfl (if_congr ?_ rfl rfl)))))
  · simp
  · simp [isBlockMode_iff]
  · simp [isBlockMode_iff]
  · simp only [Bool.or_eq_true, outOfRange_iff]
  · simp only [Bool.and_eq_true, outOfRange_iff]

/-- Settles O21. -/
theorem cryptErrorOrder : Obligations.CryptErrorOrder := fun s k ivp =>
  ⟨endsWith_of_codeOf (codeOf_cryptChecks s k ivp true),
    endsWith_of_codeOf (codeOf_cryptChecks s k ivp false)⟩

theorem isKeyBits_iff {n : Nat} : isKeyBits n = true ↔ KeyBitsLegal n := by
  simp [isKeyBits, KeyBitsLegal, or_assoc]

/-- Settles O22. -/
theorem keyAndIvErrorOrder : Obligations.KeyAndIvErrorOrder := by
  intro s k dir ivp
  refine ⟨endsWith_of_codeOf ?_, endsWith_of_codeOf ?_, endsWith_of_codeOf ?_⟩
  · rw [checksOf, setKeyChecks, codeOf_slotChecks, codeOf_cons, codeOf_rangeCheck, codeOf_nil]
    refine if_congr Iff.rfl rfl (if_congr ?_ rfl rfl)
    simp [← isKeyBits_iff]
  · rw [checksOf, setIvChecks, codeOf_slotChecks, codeOf_cons, codeOf_cons, codeOf_nil]
    refine if_congr Iff.rfl rfl (if_congr ?_ rfl (if_congr ?_ rfl rfl))
    · simp
    · rw [Bool.and_eq_true, outOfRange_iff]
  · rw [checksOf, pokeIvChecks, codeOf_slotChecks, codeOf_rangeCheck, codeOf_nil]

/-- Settles O23. -/
theorem slotCommandErrorOrder : Obligations.SlotCommandErrorOrder := by
  intro s k
  have hslot {i : Instr} (h : checksOf i s = slotChecks s k) :
      EndsWith i s (if ¬ Live s k then .badSlot else .ok) :=
    endsWith_of_codeOf (by rw [h, codeOf_slotChecks_alone])
  have hbytes {i : Instr} {n : Nat}
      (h : checksOf i s = slotChecks s k ++ [(outOfRange s s.arg0 n, .memRange)]) : EndsWith i s
      (if ¬ Live s k then .badSlot else if ¬ RangeOk s s.arg0 n then .memRange else .ok) :=
    endsWith_of_codeOf (by rw [h, codeOf_slotChecks, codeOf_rangeCheck, codeOf_nil])
  refine ⟨fun i hi => ?_, hbytes rfl, hbytes rfl, hbytes rfl, endsWith_of_codeOf ?_⟩
  · simp only [List.mem_cons, List.not_mem_nil, or_false] at hi
    rcases hi with rfl | rfl | rfl | rfl | rfl <;> exact hslot rfl
  · rw [checksOf, codeOf_cons, codeOf_nil]
    exact if_congr decide_eq_true_iff rfl rfl

/-! ### The commands that look a name up -/

section names
variable {s : State} {rest : List (Bool × ErrCode)}

theorem findName_isNone_iff {reg : List Descriptor} {x : List Byte} :
    (findName reg x).isNone = true ↔ reg.any (fun e => e.name == x) = false := by
  rw [findName_isNone, Bool.not_eq_true']

theorem codeOf_nameOperandChecks : codeOf (nameOperandChecks s ++ rest) =
    if ¬ (1 ≤ s.arg1 ∧ s.arg1 ≤ 32) then .name
    else if ¬ RangeOk s s.arg0 s.arg1 then .memRange else codeOf rest := by
  simp only [nameOperandChecks, List.cons_append, List.nil_append, codeOf_cons]
  exact if_congr badNameLength_iff rfl (if_congr outOfRange_iff rfl rfl)

theorem noFreeSlot_iff : noFreeSlot s = true ↔ s.slots.all (fun x => x.alloc) = true := by
  simp [noFreeSlot, State.firstFree]

/-- Settles O25. -/
theorem allocErrorOrder : Obligations.AllocErrorOrder := by
  intro s mode known full
  refine ⟨endsWith_of_codeOf ?_, fun hmode => endsWith_of_codeOf ?_, fun m hm => endsWith_of_codeOf ?_⟩
  · rw [checksOf, allocChecks, codeOf_nameOperandChecks, codeOf_cons, codeOf_cons, codeOf_nil]
    exact if_congr Iff.rfl rfl (if_congr Iff.rfl rfl (if_congr findName_isNone_iff rfl
      (if_congr noFreeSlot_iff rfl rfl)))
  · rw [checksOf, allocPartsChecks, codeOf_cons, modeOfCode_isNone, decide_eq_false hmode]
    rfl
  · have hparts : partsName s mode = canonicalName (readBytes s.mem s.arg0 s.arg1) s.arg2 m := by
      simp only [partsName, hm]
    simp only [checksOf, allocPartsChecks, codeOf_cons, codeOf_nil, hm, hparts, Option.isNone_some,
      Bool.false_eq_true, if_false]
    exact if_congr badNameLength_iff rfl (if_congr outOfRange_iff rfl (if_congr decide_eq_true_iff rfl
      (if_congr findName_isNone_iff rfl (if_congr noFreeSlot_iff rfl rfl))))

/-! ### REGISTER -/

theorem readBytes_take (m : Memory) (a : Nat) {n k : Nat} (h : k ≤ n) :
    (readBytes m a n).take k = readBytes m a k := by
  obtain ⟨r, rfl⟩ := Nat.exists_eq_add_of_le h
  rw [readBytes_append, List.take_left' (readBytes_length m a k)]

theorem readBytes_drop (m : Memory) (a n k : Nat) :
    (readBytes m a (k + n)).drop k = readBytes m (a + k) n := by
  rw [readBytes_append, List.drop_left' (readBytes_length m a k)]

/-- Byte `i` of the record at `ARG0`, as a number. -/
def recordNat (s : State) (i : Nat) : Nat := (memRead s.mem (s.arg0 + i)).toNat

/-- Byte `i` of the record that REGISTER reads. -/
theorem recByte_recordOperand (s : State) {i : Nat} (h : i < 64) :
    recByte (recordOperand s) i = memRead s.mem (s.arg0 + i) := readBytes_getD _ _ h 0

theorem descriptorOfRecord_name (h : recordNat s 0 ≤ 32) :
    (descriptorOfRecord (recordOperand s)).name = readBytes s.mem (s.arg0 + 8) (recordNat s 0) := by
  simp only [descriptorOfRecord, recByte_recordOperand s (show 0 < 64 by decide)]
  rw [recordOperand, readBytes_drop _ _ 56 8]
  exact readBytes_take _ _ (h.trans (by decide))

theorem descriptorOfRecord_algName (h : recordNat s 1 ≤ 16) :
    (descriptorOfRecord (recordOperand s)).algName =
      readBytes s.mem (s.arg0 + 40) (recordNat s 1) := by
  simp only [descriptorOfRecord, recByte_recordOperand s (show 1 < 64 by decide)]
  rw [recordOperand, readBytes_drop _ _ 24 40]
  exact readBytes_take _ _ (h.trans (by decide))

theorem recKeyBits_recordOperand (s : State) :
    recKeyBits (recordOperand s) = recordNat s 4 + 256 * recordNat s 5 := by
  rw [recKeyBits, recByte_recordOperand s (by decide), recByte_recordOperand s (by decide), le16,
    recordNat, recordNat]

theorem recBlockLen_recordOperand (s : State) :
    recBlockLen (recordOperand s) = recordNat s 6 + 256 * recordNat s 7 := by
  rw [recBlockLen, recByte_recordOperand s (by decide), recByte_recordOperand s (by decide), le16,
    recordNat, recordNat]

theorem byte_ne_iff {x : Byte} {n : Nat} (h : n < 256) : x ≠ BitVec.ofNat 8 n ↔ x.toNat ≠ n := by
  rw [ne_eq, ← BitVec.toNat_inj, BitVec.toNat_ofNat, Nat.mod_eq_of_lt h]

/-- The code of REGISTER (42_registry.md R210, R212). A record's name is compared only after its length has
passed its check. -/
theorem codeOf_registerChecks (s : State) : codeOf (registerChecks s) =
    if ¬ RangeOk s s.arg0 64 then .memRange
    else if ¬ ((1 ≤ recordNat s 0 ∧ recordNat s 0 ≤ 32) ∧ 1 ≤ recordNat s 1 ∧ recordNat s 1 ≤ 16) then .name
    else if ¬ (1 ≤ recordNat s 2 ∧ recordNat s 2 ≤ 4) then .unsupported
    else if recordNat s 3 ≠ 1 then .unsupported
    else if ¬ KeyBitsLegal (recordNat s 4 + 256 * recordNat s 5) then .unsupported
    else if recordNat s 6 + 256 * recordNat s 7 ≠ 16 then .unsupported
    else if s.registry.any (fun e => e.name == readBytes s.mem (s.arg0 + 8) (recordNat s 0)) = false ∧
      s.registry.length = s.params.regMax then .noResource
    else .ok := by
  simp only [registerChecks, recordChecks, List.cons_append, List.nil_append, codeOf_cons, codeOf_nil,
    recByte_recordOperand s (show 0 < 64 by decide), recByte_recordOperand s (show 1 < 64 by decide),
    recByte_recordOperand s (show 2 < 64 by decide), recByte_recordOperand s (show 3 < 64 by decide),
    recKeyBits_recordOperand, recBlockLen_recordOperand]
  refine if_congr outOfRange_iff rfl (ite_congr (propext ?_) (fun _ => rfl) fun hname =>
    if_congr ?_ rfl (if_congr ?_ rfl (if_congr ?_ rfl (if_congr ?_ rfl (if_congr ?_ rfl rfl)))))
  · rw [Bool.or_eq_true, badNameLength_iff, badNameLength_iff, ← not_and_or]
    rfl
  · rw [modeOfCode_isNone, Bool.not_eq_true', decide_eq_false_iff_not]
    rfl
  · rw [bne_iff_ne]
    exact byte_ne_iff (by decide)
  · rw [Bool.not_eq_true', ← Bool.not_eq_true, isKeyBits_iff]
  · rw [bne_iff_ne]
  · rw [not_not] at hname
    obtain ⟨⟨-, hlength⟩, -⟩ := hname
    rw [Bool.and_eq_true, findName_isNone_iff, descriptorOfRecord_name hlength, beq_iff_eq]

end names

/-- Settles O24. -/
theorem registryErrorOrder : Obligations.RegistryErrorOrder := by
  intro s b known
  refine ⟨endsWith_of_codeOf (codeOf_registerChecks s), endsWith_of_codeOf ?_, endsWith_of_codeOf rfl,
    endsWith_of_codeOf ?_⟩
  · rw [checksOf, unregisterChecks, codeOf_nameOperandChecks, codeOf_cons, codeOf_nil]
    exact if_congr Iff.rfl rfl (if_congr Iff.rfl rfl (if_congr findName_isNone_iff rfl rfl))
  · rw [checksOf, resolveChecks, codeOf_nameOperandChecks, codeOf_rangeCheck, codeOf_cons, codeOf_nil]
    exact if_congr Iff.rfl rfl (if_congr Iff.rfl rfl (if_congr Iff.rfl rfl
      (if_congr findName_isNone_iff rfl rfl)))

end Sys2Proof.Machine
end

section
/-! The commands that succeed: the registry commands (42_registry.md), the lifecycle and the accessors
(43_instance.md). -/

namespace Sys2Proof.Machine

/-! ### Checks that pass -/

section passes
variable {s : State} {k : Nat} {reg : List Descriptor} {x : List Byte}

theorem slotChecks_none (h : Live s k) : firstFailure (slotChecks s k) = none := slotChecks_none_iff.mpr h

theorem outOfRange_of_rangeOk {a n : Nat} (h : RangeOk s a n) : outOfRange s a n = false :=
  outOfRange_false_iff.mpr h

theorem badNameLength_of_le {n limit : Nat} (h1 : 1 ≤ n) (h : n ≤ limit) :
    badNameLength n limit = false := by
  rw [← Bool.not_eq_true, badNameLength_iff, not_not]
  exact ⟨h1, h⟩

theorem nameOperandChecks_none (h : NameOperandOk s) : firstFailure (nameOperandChecks s) = none := by
  obtain ⟨h1, h32, hrange⟩ := h
  have hlength : badNameLength s.arg1 Config.nameMax = false := badNameLength_of_le h1 h32
  have hin : outOfRange s s.arg0 s.arg1 = false := outOfRange_of_rangeOk (.inr hrange)
  simp [nameOperandChecks, firstFailure, hlength, hin]

theorem findName_isSome (h : ∃ e ∈ reg, e.name = x) : (findName reg x).isNone = false := by
  rw [← Bool.not_eq_true, findName_isNone_iff, Bool.not_eq_false, List.any_eq_true]
  obtain ⟨e, he, rfl⟩ := h
  exact ⟨e, he, beq_self_eq_true _⟩

end passes

/-! ### The registry -/

section registry
variable {reg : List Descriptor} {x : List Byte}

/-- With unique names, removing what `find` gives removes just the entries of the name
(42_registry.md R213, R214). -/
theorem removeFound_findName (hu : reg.Pairwise (fun d e => d.name ≠ e.name)) :
    removeFound reg (findName reg x) = reg.filter (fun e => e.name != x) := by
  induction reg with
  | nil => rfl
  | cons d reg ih =>
    obtain ⟨hd, hu⟩ := List.pairwise_cons.mp hu
    by_cases hx : d.name = x
    · have hfind : findName (d :: reg) x = some 0 := by simp [findName, List.findIdx?_cons, hx]
      have hrest : reg.filter (fun e => e.name != x) = reg :=
        List.filter_eq_self.mpr fun e he => by simpa [← hx] using (hd e he).symm
      rw [hfind, List.filter_cons_of_neg (by simp [hx]), hrest]
      rfl
    · rw [List.filter_cons_of_pos (by simp [hx]), ← ih hu, findName, List.findIdx?_cons]
      simp only [beq_iff_eq, hx, if_false]
      rw [findName]
      cases reg.findIdx? (fun d => d.name == x) <;> rfl

theorem removeFound_length (h : ∃ e ∈ reg, e.name = x) :
    (removeFound reg (findName reg x)).length + 1 = reg.length := by
  cases hfind : findName reg x with
  | none => simpa [hfind] using findName_isSome h
  | some i =>
    obtain ⟨hi, -⟩ := findName_some hfind
    rw [removeFound, List.length_eraseIdx_of_lt hi]
    omega

end registry

/-- A valid record passes, when its name is known or there is room (42_registry.md R210, R212). -/
theorem registerChecks_none {s : State} (hrange : RangeOk s s.arg0 64)
    (hlengths : (1 ≤ recordNat s 0 ∧ recordNat s 0 ≤ 32) ∧ 1 ≤ recordNat s 1 ∧ recordNat s 1 ≤ 16)
    (hmode : 1 ≤ recordNat s 2 ∧ recordNat s 2 ≤ 4) (himpl : recordNat s 3 = 1)
    (hkey : KeyBitsLegal (recordNat s 4 + 256 * recordNat s 5))
    (hblock : recordNat s 6 + 256 * recordNat s 7 = 16)
    (hroom : ¬ (s.registry.any (fun e => e.name == readBytes s.mem (s.arg0 + 8) (recordNat s 0)) = false ∧
      s.registry.length = s.params.regMax)) : firstFailure (checksOf .register s) = none := by
  refine firstFailure_none_of_codeOf ((codeOf_registerChecks s).trans ?_)
  rw [if_neg (not_not.mpr hrange), if_neg (not_not.mpr hlengths), if_neg (not_not.mpr hmode),
    if_neg (fun h : recordNat s 3 ≠ 1 => h himpl), if_neg (not_not.mpr hkey),
    if_neg (fun h : recordNat s 6 + 256 * recordNat s 7 ≠ 16 => h hblock), if_neg hroom]

/-- Settles O26: removing the entry that `find` gives is removing the entries of the name. -/
theorem registerPutsDescriptorLast : Obligations.RegisterPutsDescriptorLast := by
  intro s b name hunique hrange h0 h0' h1 h1' h2 h2' h3 hkey hblock hroom
  have hname : (descriptorOfRecord (recordOperand s)).name = name := descriptorOfRecord_name h0'
  have hreg : registryAfter .register s =
      s.registry.filter (fun e => e.name != name) ++ [descriptorOfRecord (recordOperand s)] := by
    rw [registryAfter, registered, hname, removeFound_findName hunique]
  have hmode : (recByte (recordOperand s) 2).toNat = b 2 :=
    congrArg BitVec.toNat (recByte_recordOperand s (by decide))
  have hbits : recKeyBits (recordOperand s) = b 4 + 256 * b 5 := recKeyBits_recordOperand s
  have hbits' : recKeyBits (recordOperand s) < 2 ^ 16 := by
    rw [hbits]
    rcases hkey with h | h | h <;> omega
  have hok : firstFailure (checksOf .register s) = none := by
    refine registerChecks_none (.inr hrange) ⟨⟨h0, h0'⟩, h1, h1'⟩ ⟨h2, h2'⟩ h3 hkey hblock ?_
    rintro ⟨hunknown, hfull⟩
    rcases hroom with hknown | hroom
    · exact nomatch (findName_isNone_iff.mpr hunknown).symm.trans (findName_isSome hknown)
    · omega
  refine ⟨_, descriptorOfRecord (recordOperand s), exec_ok hok, hname, descriptorOfRecord_algName h1',
    ?_, rfl, ?_, rfl, hreg, completed_effectOf _ _ _, rfl, fun _ => rfl⟩
  · simp only [descriptorOfRecord, hmode, BitVec.toNat_ofNat]
    exact Nat.mod_eq_of_lt (by omega)
  · rw [← hbits]
    exact Nat.mod_eq_of_lt hbits'

/-- Settles O27. -/
theorem unregisterRemovesEntries : Obligations.UnregisterRemovesEntries := by
  intro s
  refine ⟨fun hunique hname hknown => ?_, _, exec_ok rfl, completed_effectOf _ _ _, rfl, rfl, fun _ => rfl⟩
  have hok : firstFailure (checksOf .unregister s) = none := by
    rw [checksOf, unregisterChecks, firstFailure_append, nameOperandChecks_none hname, nameOperand,
      findName_isSome hknown]
    rfl
  exact ⟨_, exec_ok hok, completed_effectOf _ _ _, removeFound_findName hunique,
    removeFound_length hknown, rfl, fun _ => rfl⟩

/-! ### The record of a descriptor -/

section record
variable {d : Descriptor}

theorem padTo_length {n : Nat} {l : List Byte} (h : l.length ≤ n) : (padTo n l).length = n := by
  rw [padTo, List.length_append, List.length_replicate]
  omega

theorem recordBytes_length (hname : d.name.length ≤ 32) (halg : d.algName.length ≤ 16) :
    (recordBytes d).length = 64 := by
  simp [recordBytes, le16Bytes, padTo_length hname, padTo_length halg]

theorem modeOf_toNat (h : (modeOf d).isSome = true) : 1 ≤ d.mode.toNat ∧ d.mode.toNat ≤ 4 := by
  have hsome : (modeOfCode d.mode.toNat).isNone = false := by
    rw [← Option.not_isSome, ← modeOf, h]
    rfl
  rwa [modeOfCode_isNone, Bool.not_eq_false', decide_eq_true_iff] at hsome

/-- A 16-bit field read back from its two bytes (20_memory.md R65 (c)). -/
theorem le16_le16Bytes (v : BitVec 16) :
    le16 (BitVec.ofNat 8 v.toNat) (BitVec.ofNat 8 (v.toNat / 256)) = v.toNat := by
  have := v.isLt
  simp only [le16, BitVec.toNat_ofNat]
  omega

theorem recordBytes_drop_name :
    (recordBytes d).drop 8 = padTo 32 d.name ++ (padTo 16 d.algName ++ List.replicate 8 0) := by
  simp [recordBytes, le16Bytes]

theorem recordBytes_drop_algName (hname : d.name.length ≤ 32) :
    (recordBytes d).drop 40 = padTo 16 d.algName ++ List.replicate 8 0 := by
  rw [show 40 = 8 + 32 by rfl, ← List.drop_drop, recordBytes_drop_name,
    List.drop_left' (padTo_length hname)]

theorem recordBytes_drop_reserved (hname : d.name.length ≤ 32) (halg : d.algName.length ≤ 16) :
    (recordBytes d).drop 56 = List.replicate 8 0 := by
  rw [show 56 = 40 + 16 by rfl, ← List.drop_drop, recordBytes_drop_algName hname,
    List.drop_left' (padTo_length halg)]

theorem take_padTo_append {n : Nat} (l m : List Byte) : (padTo n l ++ m).take l.length = l := by
  rw [padTo, List.append_assoc, List.take_left]

/-- The numbers in the first eight bytes of a record (42_registry.md R211). -/
structure RecordNumbers (rec : List Byte) (d : Descriptor) : Prop where
  name : (recByte rec 0).toNat = d.name.length
  algName : (recByte rec 1).toNat = d.algName.length
  mode : (recByte rec 2).toNat = d.mode.toNat
  impl : recByte rec 3 = d.impl
  keyBits : recKeyBits rec = d.keyBits.toNat
  blockLen : recBlockLen rec = d.blockLen.toNat

theorem recordBytes_numbers (hname : d.name.length ≤ 32) (halg : d.algName.length ≤ 16) :
    RecordNumbers (recordBytes d) d where
  name := Nat.mod_eq_of_lt (by omega)
  algName := Nat.mod_eq_of_lt (by omega)
  mode := Nat.mod_eq_of_lt (by omega)
  impl := rfl
  keyBits := le16_le16Bytes d.keyBits
  blockLen := le16_le16Bytes d.blockLen

end record

/-- Settles O29, field by field. -/
theorem recordRoundTrip : Obligations.RecordRoundTrip := by
  rintro d ⟨⟨-, hname⟩, ⟨-, halg⟩, -, himpl, -, hblock⟩
  obtain ⟨hnumName, hnumAlg, hnumMode, -, hnumKey, -⟩ := recordBytes_numbers hname halg
  refine ⟨recordBytes_length hname halg, ?_⟩
  rw [descriptorOfRecord, hnumName, hnumAlg, hnumMode, hnumKey, recordBytes_drop_name, take_padTo_append,
    recordBytes_drop_algName hname, take_padTo_append, BitVec.ofNat_toNat, BitVec.ofNat_toNat, ← himpl,
    ← hblock]
  rfl

/-- Settles O28: the 64 bytes at `ARG2` are the record, and its bytes are those of the descriptor. -/
theorem resolveWritesTheRecord : Obligations.ResolveWritesTheRecord := by
  rintro s i d hunique hoperand hrange hi hname ⟨⟨-, hlen⟩, ⟨-, halg⟩, -⟩
  have hfind : findName s.registry (nameOperand s) = some i := by
    rw [nameOperand, ← hname]
    exact findName_unique hunique hi
  have hok : firstFailure (checksOf .resolve s) = none := by
    rw [checksOf, resolveChecks, firstFailure_append, nameOperandChecks_none hoperand, hfind,
      outOfRange_of_rangeOk (.inr hrange)]
    rfl
  have hindex : resolveIndex s = i := by rw [resolveIndex, hfind]; rfl
  have hentry : s.entry i = d := by
    rw [State.entry, List.getD_eq_getElem?_getD, hi]
    rfl
  have hmem : memAfter .resolve s = writeBytes s.mem s.arg2 (recordBytes d) := by
    rw [memAfter, hindex, hentry]
  have hlength : (recordBytes d).length = 64 := recordBytes_length hlen halg
  have hread : readBytes (memAfter .resolve s) s.arg2 64 = recordBytes d := by
    rw [hmem, ← hlength, readBytes_writeBytes]
  have hbyte (j : Nat) (hj : j < 64) :
      memRead (memAfter .resolve s) (s.arg2 + j) = recByte (recordBytes d) j := by
    rw [← hread]
    exact (readBytes_getD _ _ hj 0).symm
  have hdrop (a n : Nat) (h : a + n ≤ 64) :
      readBytes (memAfter .resolve s) (s.arg2 + a) n = ((recordBytes d).drop a).take n := by
    rw [← hread, show 64 = a + (64 - a) by omega, readBytes_drop, readBytes_take _ _ (by omega)]
  obtain ⟨hnumName, hnumAlg, hnumMode, hnumImpl, hnumKey, hnumBlock⟩ := recordBytes_numbers hlen halg
  refine ⟨_, exec_ok hok, ?_, rfl, rfl, ?_, ?_⟩
  · rw [← hindex]
    exact completed_effectOf _ _ _
  · intro x hx
    rw [complete_mem, effectOf_mem, hmem]
    exact memRead_writeBytes_outside _ (by rwa [hlength])
  · simp only [complete_mem, effectOf_mem]
    rw [hbyte 1 (by decide), hbyte 2 (by decide), hbyte 3 (by decide), hbyte 4 (by decide),
      hbyte 5 (by decide), hbyte 6 (by decide), hbyte 7 (by decide), hdrop 8 32 (by decide),
      hdrop 40 16 (by decide), hdrop 56 8 (by decide), recordBytes_drop_name,
      recordBytes_drop_algName hlen, recordBytes_drop_reserved hlen halg,
      List.take_left' (padTo_length (n := 32) hlen), List.take_left' (padTo_length (n := 16) halg)]
    exact ⟨(congrArg BitVec.toNat (hbyte 0 (by decide))).trans hnumName, hnumAlg, hnumMode, hnumImpl,
      hnumKey, hnumBlock, rfl, rfl, rfl⟩

/-! ### Decimal form -/

section decimal
variable {fuel v : Nat}

theorem digit_toNat (h : v < 10) : (BitVec.ofNat 8 (0x30 + v)).toNat = 0x30 + v :=
  Nat.mod_eq_of_lt (by omega)

theorem decimalDigits_of_lt (h : v < 10) : decimalDigits (fuel + 1) v = [BitVec.ofNat 8 (0x30 + v)] :=
  if_pos h

theorem decimalDigits_of_ge (h : 10 ≤ v) : decimalDigits (fuel + 1) v =
    decimalDigits fuel (v / 10) ++ [BitVec.ofNat 8 (0x30 + v % 10)] := if_neg (by omega)

theorem decimalDigits_ascii : ∀ b ∈ decimalDigits fuel v, 0x30 ≤ b.toNat ∧ b.toNat ≤ 0x39 := by
  induction fuel generalizing v with
  | zero => simp [decimalDigits]
  | succ fuel ih =>
    rcases Nat.lt_or_ge v 10 with hv | hv
    · rw [decimalDigits_of_lt hv]
      simp only [List.mem_singleton, forall_eq, digit_toNat hv]
      omega
    · rw [decimalDigits_of_ge hv]
      intro b hb
      rcases List.mem_append.mp hb with hb | hb
      · exact ih b hb
      · rw [List.mem_singleton.mp hb, digit_toNat (Nat.mod_lt v (by decide))]
        omega

theorem decimalDigits_value (h : v < 10 ^ fuel) :
    (decimalDigits fuel v).foldl (fun n b => 10 * n + (b.toNat - 0x30)) 0 = v := by
  induction fuel generalizing v with
  | zero => simp at h; simp [h, decimalDigits]
  | succ fuel ih =>
    rcases Nat.lt_or_ge v 10 with hv | hv
    · rw [decimalDigits_of_lt hv, List.foldl_cons, List.foldl_nil, digit_toNat hv]
      omega
    · rw [pow_succ] at h
      rw [decimalDigits_of_ge hv, List.foldl_append, ih (by omega), List.foldl_cons, List.foldl_nil,
        digit_toNat (Nat.mod_lt v (by decide))]
      omega

/-- A value that is not zero has no leading zero. -/
theorem decimalDigits_head (h : v < 10 ^ fuel) (hv : v ≠ 0) :
    ∃ b rest, decimalDigits fuel v = b :: rest ∧ b ≠ 0x30 := by
  induction fuel generalizing v with
  | zero => simp at h; exact absurd h hv
  | succ fuel ih =>
    rcases Nat.lt_or_ge v 10 with hlt | hge
    · refine ⟨_, [], decimalDigits_of_lt hlt, fun hb => hv ?_⟩
      have := congrArg BitVec.toNat hb
      rw [digit_toNat hlt] at this
      simpa using this
    · rw [pow_succ] at h
      obtain ⟨b, rest, hrest, hb⟩ := ih (v := v / 10) (by omega) (by omega)
      exact ⟨b, _, by rw [decimalDigits_of_ge hge, hrest, List.cons_append], hb⟩

end decimal

/-- Settles O30: ten digits hold every 32-bit value. -/
theorem decimalFormIsExact : Obligations.DecimalFormIsExact := by
  intro v hv
  have h10 : v < 10 ^ 10 := hv.trans (by norm_num)
  exact ⟨decimalDigits_ascii, decimalDigits_value h10, fun h0 => by rw [h0]; rfl, decimalDigits_head h10⟩

end Sys2Proof.Machine
end

section
/-! The lifecycle commands and the accessors: each writes one slot, or the bytes at `ARG0`, or nothing
(43_instance.md). -/

namespace Sys2Proof.Machine

/-! ### A command that writes one slot -/

section writes
variable {i : Instr} {s : State} {k : Nat} {x : Slot}

/-- A slot after the effect of a command that writes `slot[k]`. -/
theorem effectOf_slot_of_some (hw : slotWritten i s = some (k, x)) (j : Nat) :
    (effectOf i s).slot j = if k = j ∧ j < s.slots.length then x else s.slot j := by
  rw [slot_eq_getD, effectOf_slots, slotsAfter_getD, hw]

theorem effectOf_slot_of_none (hw : slotWritten i s = none) (j : Nat) :
    (effectOf i s).slot j = s.slot j := by
  rw [slot_eq_getD, effectOf_slots, slotsAfter_getD, hw]

/-- A command that writes `slot[k]` and nothing else but the completion fields. -/
theorem exec_writes_slot (hok : firstFailure (checksOf i s) = none) (hw : slotWritten i s = some (k, x))
    (hk : k < s.slots.length) (hreg : registryAfter i s = s.registry) (hmem : memAfter i s = s.mem) :
    ∃ t, exec i s = .next t ∧ Completed s t .ok (valueOf i s) ∧ t.slot k = x ∧ OtherSlotsSame s t k ∧
      t.registry = s.registry ∧ SameMem s t := by
  refine ⟨_, exec_ok hok, completed_effectOf _ _ _, ?_, fun j hj => ?_, hreg, fun a => ?_⟩
  · rw [complete_slot, effectOf_slot_of_some hw, if_pos ⟨rfl, hk⟩]
  · rw [complete_slot, effectOf_slot_of_some hw, if_neg fun h => hj h.1.symm]
  · simp [hmem]

theorem freeIndex_eq (hk : k < s.slots.length) (h : (s.slot k).alloc = false)
    (hj : ∀ j, j < k → (s.slot j).alloc = true) : s.firstFree = some k ∧ freeIndex s = k := by
  have hfirst : s.firstFree = some k := firstFree_eq_some hk h hj
  exact ⟨hfirst, by rw [freeIndex, hfirst]; rfl⟩

theorem entry_eq {i : Nat} {d : Descriptor} (h : s.registry[i]? = some d) : s.entry i = d := by
  rw [State.entry, List.getD_eq_getElem?_getD, h]
  rfl

end writes

/-- Settles O31. -/
theorem allocTakesLowestFreeSlot : Obligations.AllocTakesLowestFreeSlot := by
  intro s i k d hunique hoperand hi hname hk hfree hlower
  obtain ⟨hfirst, hindex⟩ := freeIndex_eq hk hfree hlower
  have hfind : findName s.registry (nameOperand s) = some i := by
    rw [nameOperand, ← hname]
    exact findName_unique hunique hi
  have hok : firstFailure (checksOf .alloc s) = none := by
    rw [checksOf, allocChecks, firstFailure_append, nameOperandChecks_none hoperand, hfind, noFreeSlot,
      hfirst]
    rfl
  have hw : slotWritten .alloc s = some (k, freshSlot d) := by
    rw [slotWritten, hindex, hfind, indexOr0, Option.getD_some, entry_eq hi]
  rw [← hindex] at hw hk ⊢
  exact exec_writes_slot hok hw hk rfl rfl

/-- Settles O32: the name looked up is the canonical name of the parts. -/
theorem allocPartsTakesCanonicalName : Obligations.AllocPartsTakesCanonicalName := by
  intro s mode i k m d hunique hmode h1 h16 hrange hi hname hlen hk hfree hlower
  obtain ⟨hfirst, hindex⟩ := freeIndex_eq hk hfree hlower
  have hparts : partsName s mode = d.name := by
    simp only [partsName, hmode, canonicalName, hname, dash]
  have hfind : findName s.registry (partsName s mode) = some i := by
    rw [hparts]
    exact findName_unique hunique hi
  have hok : firstFailure (checksOf (.allocParts mode) s) = none := by
    have hlength : badNameLength s.arg1 Config.algNameMax = false := badNameLength_of_le h1 h16
    have hin : outOfRange s s.arg0 s.arg1 = false := outOfRange_of_rangeOk (.inr hrange)
    have hname : decide (Config.nameMax < d.name.length) = false := decide_eq_false (Nat.not_lt.mpr hlen)
    rw [checksOf, allocPartsChecks, hfind, hparts, hmode, hlength, hin, hname, noFreeSlot, hfirst]
    rfl
  have hw : slotWritten (.allocParts mode) s = some (k, freshSlot d) := by
    rw [slotWritten, hindex, hfind, indexOr0, Option.getD_some, entry_eq hi]
  rw [← hindex] at hw hk ⊢
  exact exec_writes_slot hok hw hk rfl rfl

/-- Settles O33. -/
theorem freeZeroesTheSlot : Obligations.FreeZeroesTheSlot := fun _ _ hlive =>
  exec_writes_slot (slotChecks_none hlive) rfl (lt_slots_of_alloc hlive.2) rfl rfl

/-! ### SETKEY, SETIV and POKEIV -/

section keying
variable {s : State} {k : Nat}

/-- The checks of a slot command pass when the slot is live and the others pass. -/
theorem firstFailure_slotChecks_append (h : Live s k) (l : List (Bool × ErrCode)) :
    firstFailure (slotChecks s k ++ l) = firstFailure l := by
  rw [firstFailure_append, slotChecks_none h, Option.none_or]

theorem scheduleOf_length {key : List Byte} {nk : Nat} (h : key.length = 4 * nk) (dec : Bool) :
    (scheduleOf dec key).length = 4 * (nk + 7) := by
  cases dec
  · exact encryptSchedule_length h
  · exact decryptSchedule_length h

theorem padWords_length {w : List Word} (h : w.length ≤ 60) : (padWords w).length = 60 := by
  rw [padWords, List.length_append, List.length_replicate]
  omega

theorem keyWord_of_length_le {w : List Word} {i : Nat} (h : w.length ≤ i) : keyWord w i = 0 :=
  List.getD_eq_default _ _ h

theorem derivesDecrypt_eq (x : Slot) (dir : Bool) :
    derivesDecrypt x.desc dir = decide (BlockMode x ∧ dir = false) := by
  rw [Bool.eq_iff_iff, derivesDecrypt, Bool.and_eq_true, isBlockMode_iff, decide_eq_true_iff,
    Bool.not_eq_true']

end keying

/-- Settles O34: the schedule has `4 (Nr + 1)` words, of at most 60. -/
theorem setKeyStoresTheSchedule : Obligations.SetKeyStoresTheSchedule := by
  intro s k dir hlive hbits hdesc hrange key dec
  have hok : firstFailure (checksOf (.setKey k dir) s) = none := by
    have hkey : isKeyBits s.arg1 = true := isKeyBits_iff.mpr hbits
    have hin : outOfRange s s.arg0 (s.arg1 / 8) = false := outOfRange_of_rangeOk (.inr hrange)
    rw [checksOf, setKeyChecks, firstFailure_slotChecks_append hlive, hkey, hin, ← hdesc]
    simp [firstFailure]
  have hlength : key.length = 4 * (s.arg1 / 32) := by
    rw [readBytes_length]
    rcases hbits with h | h | h <;> rw [h]
  have hnk : s.arg1 / 32 ≤ 8 := by rcases hbits with h | h | h <;> rw [h] <;> decide
  have hdec : derivesDecrypt (s.slot k).desc dir = dec := derivesDecrypt_eq _ _
  have hschedule : (scheduleOf dec key).length = 4 * (s.arg1 / 32 + 7) := scheduleOf_length hlength dec
  obtain ⟨t, ht, hcompleted, hslot, hothers, hreg, hmem⟩ :=
    exec_writes_slot hok (x := keyedSlot (s.slot k) dir key) rfl (lt_slots_of_alloc hlive.2) rfl rfl
  refine ⟨t, ht, hcompleted, ?_, ?_, ?_, fun i _ => ?_, fun i hi => ?_, hothers, hreg, hmem⟩
  · rw [hslot, keyedSlot, hdec]
  · rw [hslot, keyedSlot, hdec]
    exact padWords_length (by omega)
  · rw [hslot, keyedSlot, keyNr_eq hlength]
    exact Nat.mod_eq_of_lt (by omega)
  · rw [hslot, keyedSlot, hdec, keyWord_padWords, scheduleOf]
  · rw [hslot, keyedSlot, hdec, keyWord_padWords]
    exact keyWord_of_length_le (by omega)

/-- Settles O35. -/
theorem setIvAndPokeIvWriteTheIv : Obligations.SetIvAndPokeIvWriteTheIv := by
  intro s k hlive
  have hk : k < s.slots.length := lt_slots_of_alloc hlive.2
  refine ⟨fun h16 hrange => ?_, ?_, fun hrange => ?_⟩
  · have hin : outOfRange s s.arg0 16 = false := outOfRange_of_rangeOk (.inr hrange)
    refine exec_writes_slot (i := .setIv k true) ?_ rfl hk rfl rfl
    rw [checksOf, setIvChecks, firstFailure_slotChecks_append hlive, h16, hin]
    rfl
  · refine exec_writes_slot (i := .setIv k false) ?_ rfl hk rfl rfl
    rw [checksOf, setIvChecks, firstFailure_slotChecks_append hlive]
    rfl
  · have hin : outOfRange s s.arg0 16 = false := outOfRange_of_rangeOk (.inr hrange)
    refine exec_writes_slot (i := .pokeIv k) ?_ rfl hk rfl rfl
    rw [checksOf, pokeIvChecks, firstFailure_slotChecks_append hlive, hin]
    rfl

/-! ### Accessors -/

section accessors
variable {i : Instr} {s : State} {k : Nat}

/-- A command whose effect is none answers its value. -/
theorem answers_valueOf (hok : firstFailure (checksOf i s) = none) (heff : effectOf i s = s) :
    Answers i s (valueOf i s) := by
  refine ⟨_, exec_ok hok, completed_effectOf _ _ _, ?_, ?_, ?_⟩ <;> rw [heff] <;> rfl

/-- A command that writes the bytes of `l` at `ARG0` and answers their number. -/
theorem writesAtArg0 {l : List Byte} (hlive : Live s k) (hrange : RangeOk s s.arg0 l.length)
    (hchecks : checksOf i s = slotChecks s k ++ [(outOfRange s s.arg0 l.length, .memRange)])
    (heff : effectOf i s = { s with mem := writeBytes s.mem s.arg0 l })
    (hvalue : valueOf i s = toWord l.length) : WritesAtArg0 i s l := by
  have hok : firstFailure (checksOf i s) = none := by
    rw [hchecks, firstFailure_slotChecks_append hlive, outOfRange_of_rangeOk hrange]
    rfl
  refine ⟨_, exec_ok hok, hvalue ▸ completed_effectOf _ _ _, ?_, ?_, ?_, fun x hx => ?_⟩ <;>
    rw [heff]
  · rfl
  · rfl
  · exact readBytes_writeBytes _ _ _
  · exact memRead_writeBytes_outside _ hx

/-- The fields of the word of GET_STATE do not overlap (43_instance.md R250). -/
theorem slotStateValue_fields {x : Slot} (h : x.alloc = true) :
    field (toWord (slotStateValue x)) 0 1 = 1 ∧ field (toWord (slotStateValue x)) 1 1 = bit x.keyed ∧
      field (toWord (slotStateValue x)) 2 1 = bit x.enc ∧
      field (toWord (slotStateValue x)) 3 1 = bit x.sched ∧ field (toWord (slotStateValue x)) 4 4 = 0 ∧
      field (toWord (slotStateValue x)) 8 4 = x.cur.val ∧ field (toWord (slotStateValue x)) 12 4 = 0 ∧
      field (toWord (slotStateValue x)) 16 4 = x.desc.mode.toNat ∧
      field (toWord (slotStateValue x)) 20 12 = 0 := by
  have hkeyed : bit x.keyed ≤ 1 := bit_le_one _
  have henc : bit x.enc ≤ 1 := bit_le_one _
  have hsched : bit x.sched ≤ 1 := bit_le_one _
  have hcur : x.cur.val < 16 := x.cur.isLt
  have hmode : x.desc.mode.toNat < 16 := x.desc.mode.isLt
  have hvalue : slotStateValue x = 1 + 2 * bit x.keyed + 4 * bit x.enc + 8 * bit x.sched +
      2 ^ 8 * x.cur.val + 2 ^ 16 * x.desc.mode.toNat := by
    rw [slotStateValue, if_pos h, h]
    rfl
  have hword : (toWord (slotStateValue x)).toNat = slotStateValue x := toWord_toNat (by omega)
  simp only [field, hword]
  rw [hvalue]
  omega

end accessors

/-- Settles O36. -/
theorem valueAccessorsAnswer : Obligations.ValueAccessorsAnswer := by
  intro s k hlive
  have hok : firstFailure (slotChecks s k) = none := slotChecks_none hlive
  exact ⟨answers_valueOf (i := .getBlockLen k) hok rfl, answers_valueOf (i := .getIvLen k) hok rfl,
    answers_valueOf (i := .getKeyLen k) hok rfl, answers_valueOf (i := .getMode k) hok rfl⟩

/-- Settles O37. -/
theorem byteAccessorsWrite : Obligations.ByteAccessorsWrite := fun _ _ hlive =>
  ⟨fun hrange => writesAtArg0 hlive hrange rfl rfl rfl, fun hrange => writesAtArg0 hlive hrange rfl rfl rfl,
    fun hrange => writesAtArg0 hlive hrange rfl rfl rfl⟩

/-- Settles O38. -/
theorem getStateShowsTheSlot : Obligations.GetStateShowsTheSlot := by
  intro s k hk
  have hok : firstFailure (checksOf (.getState k) s) = none := by
    rw [checksOf, firstFailure_cons, decide_eq_false (Nat.not_le.mpr hk)]
    rfl
  have hanswer : Answers (.getState k) s (toWord (slotStateValue (s.slot k))) := answers_valueOf hok rfl
  refine ⟨fun hfree => ?_, fun halloc => ⟨_, hanswer, slotStateValue_fields halloc⟩⟩
  rwa [slotStateValue, hfree] at hanswer

end Sys2Proof.Machine
end

section
/-! The block primitive: the inverse transforms, and the table-driven form
(40_block_primitive.md R125 to R156). -/

namespace Sys2Proof.Machine

/-! ### The inverse transforms -/

@[simp] theorem sbox_invSbox : ∀ x, sbox (invSbox x) = x := byte_all (by decide +kernel)

/-- A row of coefficients times the matrix of `InvMixColumns`. -/
theorem gmul_invMixCol (e0 e1 e2 e3 : Byte) (a : Col) :
    gmul e0 (invMixCol a).q0 ^^^ gmul e1 (invMixCol a).q1 ^^^ gmul e2 (invMixCol a).q2 ^^^
        gmul e3 (invMixCol a).q3 =
      gmul (gmul e0 0x0e ^^^ gmul e1 0x09 ^^^ gmul e2 0x0d ^^^ gmul e3 0x0b) a.q0 ^^^
        gmul (gmul e0 0x0b ^^^ gmul e1 0x0e ^^^ gmul e2 0x09 ^^^ gmul e3 0x0d) a.q1 ^^^
        gmul (gmul e0 0x0d ^^^ gmul e1 0x0b ^^^ gmul e2 0x0e ^^^ gmul e3 0x09) a.q2 ^^^
        gmul (gmul e0 0x09 ^^^ gmul e1 0x0d ^^^ gmul e2 0x0b ^^^ gmul e3 0x0e) a.q3 := by
  simp only [invMixCol, gmul_xor, gmul_xor_left, gmul_assoc]
  ac_rfl

/-- The matrix of `MixColumns` times that of `InvMixColumns` is the identity. -/
@[simp] theorem mixCol_invMixCol (a : Col) : mixCol (invMixCol a) = a := by
  have hproduct : mixCol (invMixCol a) =
      ⟨gmul 1 a.q0 ^^^ gmul 0 a.q1 ^^^ gmul 0 a.q2 ^^^ gmul 0 a.q3,
       gmul 0 a.q0 ^^^ gmul 1 a.q1 ^^^ gmul 0 a.q2 ^^^ gmul 0 a.q3,
       gmul 0 a.q0 ^^^ gmul 0 a.q1 ^^^ gmul 1 a.q2 ^^^ gmul 0 a.q3,
       gmul 0 a.q0 ^^^ gmul 0 a.q1 ^^^ gmul 0 a.q2 ^^^ gmul 1 a.q3⟩ := by
    simp only [mixCol, gmul_invMixCol]
    rfl
  rw [hproduct]
  simp only [one_gmul, zero_gmul]
  simp

/-- Settles O50: byte by byte, place by place, and by the products of the two matrices. -/
theorem inverseTransformsInvert : Obligations.InverseTransformsInvert := by
  refine ⟨fun x => ⟨invSbox_sbox x, sbox_invSbox x⟩, fun s => ⟨?_, rfl, invMixColumns_mixColumns s, ?_⟩⟩
  · simp [invSubBytes, subBytes, quadMap]
  · simp [mixColumns, invMixColumns, quadMap]

/-- Settles O53: a supported key is one of whole words. -/
theorem aesDecInvertsAesEnc : Obligations.AesDecInvertsAesEnc := by
  intro key b hlen
  exact aesDec_aesEnc (nk := key.length / 4) (by omega) b

/-! ### The table-driven form -/

section rotation
variable (w : Word) {r lo : Nat}

/-- A byte of a rotated word is the byte `r` bits higher, around the end of the word. -/
theorem extractLsb'_rotateRight_of_le (h : lo + r + 8 ≤ 32) :
    (w.rotateRight r).extractLsb' lo 8 = w.extractLsb' (lo + r) 8 := by
  apply BitVec.eq_of_getLsbD_eq
  intro i hi
  have hmod : r % 32 = r := Nat.mod_eq_of_lt (by omega)
  simp only [BitVec.getLsbD_extractLsb', BitVec.getLsbD_rotateRight, hmod]
  rw [show decide (lo + i < 32 - r) = true from decide_eq_true (by omega), cond_true,
    show r + (lo + i) = lo + r + i by omega]

theorem extractLsb'_rotateRight_of_ge (h : 32 ≤ lo + r) (hlo : lo + 8 ≤ 32) (hr : r < 32) :
    (w.rotateRight r).extractLsb' lo 8 = w.extractLsb' (lo + r - 32) 8 := by
  apply BitVec.eq_of_getLsbD_eq
  intro i hi
  have hmod : r % 32 = r := Nat.mod_eq_of_lt hr
  simp only [BitVec.getLsbD_extractLsb', BitVec.getLsbD_rotateRight, hmod]
  rw [show decide (lo + i < 32 - r) = false from decide_eq_false (by omega), cond_false,
    show decide (lo + i < 32) = true from decide_eq_true (by omega), Bool.true_and,
    show lo + i - (32 - r) = lo + r - 32 + i by omega]

/-- The bytes of a word in its column, the most significant first. -/
theorem extractLsb'_wordOfCol (c : Col) :
    (wordOfCol c).extractLsb' 24 8 = c.q0 ∧ (wordOfCol c).extractLsb' 16 8 = c.q1 ∧
      (wordOfCol c).extractLsb' 8 8 = c.q2 ∧ (wordOfCol c).extractLsb' 0 8 = c.q3 := by
  have hcol : colOfWord (wordOfCol c) = c := colOfWord_wordOfCol c
  exact ⟨congrArg Quad.q0 hcol, congrArg Quad.q1 hcol, congrArg Quad.q2 hcol, congrArg Quad.q3 hcol⟩

/-- A rotation of a word by one byte is one of its column. -/
theorem colOfWord_rotateRight_one (c : Col) :
    colOfWord ((wordOfCol c).rotateRight 8) = ⟨c.q3, c.q0, c.q1, c.q2⟩ := by
  obtain ⟨h0, h1, h2, h3⟩ := extractLsb'_wordOfCol c
  rw [colOfWord, extractLsb'_rotateRight_of_ge _ (lo := 24) (by decide) (by decide) (by decide),
    extractLsb'_rotateRight_of_le _ (lo := 16) (by decide),
    extractLsb'_rotateRight_of_le _ (lo := 8) (by decide),
    extractLsb'_rotateRight_of_le _ (lo := 0) (by decide), h0, h1, h2, h3]

theorem colOfWord_rotateRight_two (c : Col) :
    colOfWord ((wordOfCol c).rotateRight 16) = ⟨c.q2, c.q3, c.q0, c.q1⟩ := by
  obtain ⟨h0, h1, h2, h3⟩ := extractLsb'_wordOfCol c
  rw [colOfWord, extractLsb'_rotateRight_of_ge _ (lo := 24) (by decide) (by decide) (by decide),
    extractLsb'_rotateRight_of_ge _ (lo := 16) (by decide) (by decide) (by decide),
    extractLsb'_rotateRight_of_le _ (lo := 8) (by decide),
    extractLsb'_rotateRight_of_le _ (lo := 0) (by decide), h0, h1, h2, h3]

theorem colOfWord_rotateRight_three (c : Col) :
    colOfWord ((wordOfCol c).rotateRight 24) = ⟨c.q1, c.q2, c.q3, c.q0⟩ := by
  obtain ⟨h0, h1, h2, h3⟩ := extractLsb'_wordOfCol c
  rw [colOfWord, extractLsb'_rotateRight_of_ge _ (lo := 24) (by decide) (by decide) (by decide),
    extractLsb'_rotateRight_of_ge _ (lo := 16) (by decide) (by decide) (by decide),
    extractLsb'_rotateRight_of_ge _ (lo := 8) (by decide) (by decide) (by decide),
    extractLsb'_rotateRight_of_le _ (lo := 0) (by decide), h0, h1, h2, h3]

end rotation

section tables
variable (k : List Word) (nr j : Nat) (s b : Block)

/-- The four probes of a forward table round are one mixed column (40_block_primitive.md R151, R152). -/
theorem teColumn_eq (a b c d : Col) (w : Word) : teColumn a b c d w =
    xorCol (mixCol ⟨sbox a.q0, sbox b.q1, sbox c.q2, sbox d.q3⟩) (colOfWord w) := by
  rw [teColumn, colOfWord_xor, colOfWord_xor, colOfWord_xor, colOfWord_xor, te1, te2, te3, te0, te0, te0,
    te0, colOfWord_wordOfCol, colOfWord_rotateRight_one, colOfWord_rotateRight_two, colOfWord_rotateRight_three]
  rfl

theorem tdColumn_eq (a b c d : Col) (w : Word) : tdColumn a b c d w =
    xorCol (invMixCol ⟨invSbox a.q0, invSbox b.q1, invSbox c.q2, invSbox d.q3⟩) (colOfWord w) := by
  rw [tdColumn, colOfWord_xor, colOfWord_xor, colOfWord_xor, colOfWord_xor, td1, td2, td3, td0, td0, td0,
    td0, colOfWord_wordOfCol, colOfWord_rotateRight_one, colOfWord_rotateRight_two, colOfWord_rotateRight_three]
  rfl

theorem finalColumn_eq (sub : Byte → Byte) (a b c d : Col) (w : Word) : finalColumn sub a b c d w =
    xorCol ⟨sub a.q0, sub b.q1, sub c.q2, sub d.q3⟩ (colOfWord w) := by
  rw [finalColumn, colOfWord_xor, colOfWord_wordOfCol]

theorem initialByTables_eq : initialByTables k b = addRoundKey b k 0 := by
  simp only [initialByTables, colOfWord_xor, colOfWord_wordOfCol]
  rfl

theorem encRoundByTables_eq : encRoundByTables k = encRound k := by
  funext j s
  simp only [encRoundByTables, teColumn_eq]
  rfl

theorem decRoundByTables_eq : decRoundByTables k = decRound k := by
  funext j s
  simp only [decRoundByTables, tdColumn_eq]
  rfl

theorem encFinalByTables_eq : encFinalByTables k nr s = addRoundKey (shiftRows (subBytes s)) k nr := by
  simp only [encFinalByTables, finalColumn_eq]
  rfl

theorem decFinalByTables_eq :
    decFinalByTables k nr s = addRoundKey (invShiftRows (invSubBytes s)) k nr := by
  simp only [decFinalByTables, finalColumn_eq]
  rfl

end tables

/-- Settles O52: round by round, each table form is the round. -/
theorem tableDrivenFormsAgree : Obligations.TableDrivenFormsAgree := by
  intro k nr b
  rw [aesEncByTables, encRoundByTables_eq, initialByTables_eq, encFinalByTables_eq, aesDecByTables,
    decRoundByTables_eq, initialByTables_eq, decFinalByTables_eq]
  exact ⟨rfl, rfl⟩

end Sys2Proof.Machine
end

section
/-! ENCRYPT and DECRYPT with the IV of the slot or an override: what a call whose checks pass leaves
(41_mode_layer.md R171 to R176), and the two block modes (R178 to R181). -/

namespace Sys2Proof.Machine

/-! ### The run of a call -/

/-- ENCRYPT, or DECRYPT for `dec = true`, with or without an override IV. -/
def cryptCommand (dec : Bool) (k : Nat) (ivp : Bool) : Instr :=
  match dec with
  | false => .encrypt k ivp
  | true => .decrypt k ivp

/-- The working state that the units of a call leave. -/
def cryptEnd (dec : Bool) (s : State) (k : Nat) (ivp : Bool) : Work :=
  cryptWork dec s.params (s.slot k) s.arg2 s.arg0 s.arg1 (startWork s k ivp)

section run
variable {dec ivp : Bool} {s t : State} {k : Nat}

/-- What a call leaves: its frame, `MEM` as its units leave it and, without an override, the slot with the
working triple (41_mode_layer.md R176). -/
structure CryptLeft (dec : Bool) (s t : State) (k : Nat) (ivp : Bool) : Prop where
  frame : CryptFrame s t k ivp
  mem : t.mem = (cryptEnd dec s k ivp).mem
  slot : ivp = false → t.slot k = commitSlot (s.slot k) (cryptEnd dec s k ivp)
  slots : ivp = false → t.slots = s.slots.set k (commitSlot (s.slot k) (cryptEnd dec s k ivp))

theorem checksOf_cryptCommand (dec : Bool) (s : State) (k : Nat) (ivp : Bool) :
    checksOf (cryptCommand dec k ivp) s = cryptChecks s k ivp (!dec) := by cases dec <;> rfl

theorem memAfter_cryptCommand (dec : Bool) (s : State) (k : Nat) (ivp : Bool) :
    memAfter (cryptCommand dec k ivp) s = (cryptEnd dec s k ivp).mem := by cases dec <;> rfl

theorem slotWritten_cryptCommand (dec : Bool) (s : State) (k : Nat) :
    slotWritten (cryptCommand dec k false) s =
      some (k, commitSlot (s.slot k) (cryptEnd dec s k false)) := by cases dec <;> rfl

/-- With an override IV no slot is written (41_mode_layer.md R176). -/
theorem slotWritten_cryptCommand_override (dec : Bool) (s : State) (k : Nat) :
    slotWritten (cryptCommand dec k true) s = none := by cases dec <;> rfl

theorem cryptEnd_outside {a : Nat} (h : a < s.arg1 ∨ s.arg1 + s.arg2 ≤ a) :
    memRead (cryptEnd dec s k ivp).mem a = memRead s.mem a := by
  rw [← startWork_mem s k ivp]
  cases dec
  · exact encryptWork_outside _ _ _ _ _ _ h
  · exact decryptWork_outside _ _ _ _ _ _ h

/-- A call whose checks pass runs its units on the working state that it finds. -/
theorem exec_cryptCommand (h : CryptOk s k ivp (!dec)) :
    ∃ t, exec (cryptCommand dec k ivp) s = .next t ∧ CryptLeft dec s t k ivp := by
  have hchecks := checksOf_cryptCommand dec s k ivp
  have hmem := memAfter_cryptCommand dec s k ivp
  have hvalue : valueOf (cryptCommand dec k ivp) s = s.latch.arg2 := by cases dec <;> rfl
  have hreg : registryAfter (cryptCommand dec k ivp) s = s.registry := by cases dec <;> rfl
  have hcompleted := completed_effectOf (cryptCommand dec k ivp) s (valueOf (cryptCommand dec k ivp) s)
  rw [hvalue] at hcompleted
  have houtside : SameMemOutside s
      ((effectOf (cryptCommand dec k ivp) s).complete .ok s.latch.arg2) s.arg1 s.arg2 := fun a ha => by
    rw [complete_mem, effectOf_mem, hmem, cryptEnd_outside ha]
  have hrun := exec_ok (hchecks ▸ cryptChecks_none h)
  rw [hvalue] at hrun
  refine ⟨_, hrun, ?_⟩
  cases ivp with
  | true =>
    have hw := slotWritten_cryptCommand_override dec s k
    have hslots : slotsAfter (cryptCommand dec k true) s = s.slots := by rw [slotsAfter, hw]
    have hslot (j : Nat) : (effectOf (cryptCommand dec k true) s).slot j = s.slot j :=
      effectOf_slot_of_none hw j
    exact ⟨⟨hcompleted, hslot k ▸ rfl, fun _ => hslots, fun j _ => hslot j, hreg, houtside⟩, hmem,
      nofun, nofun⟩
  | false =>
    have hw := slotWritten_cryptCommand dec s k
    have hslots : slotsAfter (cryptCommand dec k false) s =
        s.slots.set k (commitSlot (s.slot k) (cryptEnd dec s k false)) := by rw [slotsAfter, hw]
    have hslot : (effectOf (cryptCommand dec k false) s).slot k =
        commitSlot (s.slot k) (cryptEnd dec s k false) := by
      rw [effectOf_slot_of_some hw, if_pos ⟨rfl, lt_slots_of_alloc h.live.2⟩]
    refine ⟨⟨hcompleted, ?_, nofun, fun j hj => ?_, hreg, houtside⟩, hmem, fun _ => hslot, fun _ => hslots⟩
    · rw [complete_slot, hslot]
      rfl
    · rw [complete_slot, effectOf_slot_of_some hw, if_neg fun h => hj h.1.symm]

end run

/-- Settles O39. -/
theorem cryptCompletesInItsFrame : Obligations.CryptCompletesInItsFrame := by
  intro s k ivp
  refine ⟨fun hok => ?_, fun hok => ?_⟩
  · obtain ⟨t, ht, hleft⟩ := exec_cryptCommand (dec := false) hok
    exact ⟨t, ht, hleft.frame⟩
  · obtain ⟨t, ht, hleft⟩ := exec_cryptCommand (dec := true) hok
    exact ⟨t, ht, hleft.frame⟩

/-! ### The override IV -/

section override
variable {dec : Bool} {s : State} {k : Nat}

/-- The state in which the slot holds the override IV and no keystream (41_mode_layer.md R174). -/
def withOverride (s : State) (k : Nat) : State :=
  s.setSlot k { s.slot k with iv := readBlock s.mem s.arg3, ks := Block.zero, cur := 0 }

theorem withOverride_slot (hk : k < s.slots.length) : (withOverride s k).slot k =
    { s.slot k with iv := readBlock s.mem s.arg3, ks := Block.zero, cur := 0 } := setSlot_slot_self hk

theorem cryptOk_withOverride {wrong : Bool} (h : CryptOk s k true wrong) :
    CryptOk (withOverride s k) k false wrong := by
  have hslot := withOverride_slot (lt_slots_of_alloc h.live.2)
  obtain ⟨⟨hk, halloc⟩, hkeyed, hdir, hlen, hsrc, hdst, -⟩ := h
  exact ⟨⟨hk, by rwa [hslot]⟩, by rwa [hslot], by rwa [hslot], by rwa [hslot], hsrc, hdst, nofun⟩

/-- The units of the call and those of the call without an override start alike. -/
theorem cryptEnd_withOverride (hk : k < s.slots.length) :
    cryptEnd dec (withOverride s k) k false = cryptEnd dec s k true := by
  have hstart : startWork (withOverride s k) k false = startWork s k true := by
    simp [startWork, withOverride_slot hk]
    rfl
  have hslot : (withOverride s k).slot k = commitSlot (s.slot k) (startWork s k true) :=
    withOverride_slot hk
  rw [cryptEnd, hstart, hslot, cryptWork_commitSlot]
  rfl

/-- A completion fixes the whole window (60_exceptions.md R271). -/
theorem Completed.window_eq {t : State} {e : ErrCode} {v : Word} (h : Completed s t e v) : t.window =
    ⟨s.window.cmd, s.window.arg0, s.window.arg1, s.window.arg2, s.window.arg3,
      statusAtCompletion e s.window.status, v⟩ := by
  obtain ⟨hbusy, hdone, herr, hcode, hovr, hresult, hcmd, ⟨h0, h1, h2, h3⟩, -, -, -⟩ := h
  rw [← hcmd, ← h0, ← h1, ← h2, ← h3, ← hresult, statusAtCompletion, ← hbusy, ← hdone, ← herr,
    ← hovr, ← hcode]

theorem exec_withOverride (h : CryptOk s k true (!dec)) :
    ∃ t u, exec (cryptCommand dec k true) s = .next t ∧
      exec (cryptCommand dec k false) (withOverride s k) = .next u ∧
      t.mem = u.mem ∧ t.window = u.window ∧ t.slots = s.slots ∧ t.registry = s.registry := by
  obtain ⟨t, ht, hleft⟩ := exec_cryptCommand h
  obtain ⟨u, hu, hleft'⟩ := exec_cryptCommand (cryptOk_withOverride h)
  refine ⟨t, u, ht, hu, ?_, ?_, hleft.frame.override rfl, hleft.frame.registry⟩
  · rw [hleft.mem, hleft'.mem, cryptEnd_withOverride (lt_slots_of_alloc h.live.2)]
  · rw [hleft.frame.completed.window_eq, hleft'.frame.completed.window_eq]
    rfl

end override

/-- Settles O40. -/
theorem overrideIvIsForTheCallOnly : Obligations.OverrideIvIsForTheCallOnly := fun _ _ =>
  ⟨exec_withOverride (dec := false), exec_withOverride (dec := true)⟩

/-! ### The block modes -/

section blocks
variable {f : Nat → Nat → Work → Work} {count src dst j : Nat} {w : Work}

/-- A unit of a block mode finds its source block as it was at the start: plain aliasing keeps it
(20_memory.md R72), and of a single unit nothing was written before. -/
theorem readBlock_units_source (hf : WritesOnly f 16) (hj : j < count)
    (h : (src = dst ∨ src + 16 * count ≤ dst ∨ dst + 16 * count ≤ src) ∨ count = 1) :
    readBlock (units f 16 j src dst w).mem (src + 16 * j) = readBlock w.mem (src + 16 * j) := by
  rcases h with halias | hone
  · exact readBlock_eq_of_readBytes (readBytes_units_source hf hj halias)
  · obtain rfl : j = 0 := by omega
    rfl

/-- The block that a unit of a block mode leaves is there at the end. -/
theorem readBlock_units_destination (hf : WritesOnly f 16) (hj : j < count) :
    readBlock (units f 16 count src dst w).mem (dst + 16 * j) =
      readBlock (f (src + 16 * j) (dst + 16 * j) (units f 16 j src dst w)).mem (dst + 16 * j) := by
  rw [← units_succ_last f 16 j]
  exact readBlock_eq_of_readBytes (readBytes_units_destination hf hj)

/-- What keeps the source of a block mode, as the claims say it. -/
theorem blockAliasing {s : State} (h16 : s.arg2 % 16 = 0) (h : PlainAliasing s ∨ s.arg2 = 16) :
    (s.arg0 = s.arg1 ∨ s.arg0 + 16 * (s.arg2 / 16) ≤ s.arg1 ∨ s.arg1 + 16 * (s.arg2 / 16) ≤ s.arg0) ∨
      s.arg2 / 16 = 1 := by
  rw [Nat.mul_div_cancel' (Nat.dvd_of_mod_eq_zero h16)]
  exact h.imp_right fun h => by rw [h]

end blocks

/-! ### ECB -/

section ecb
variable {e : Block → Block} {count src dst j : Nat} {w : Work}

/-- ECB units leave the working triple alone. -/
theorem units_ecb_triple : (units (ecbUnit e) 16 count src dst w).iv = w.iv ∧
    (units (ecbUnit e) 16 count src dst w).ks = w.ks ∧
    (units (ecbUnit e) 16 count src dst w).cur = w.cur :=
  units_induction (fun _ v => v.iv = w.iv ∧ v.ks = w.ks ∧ v.cur = w.cur) ⟨rfl, rfl, rfl⟩
    fun _ _ _ hv => by simpa using hv

theorem units_ecb_block (hj : j < count)
    (h : (src = dst ∨ src + 16 * count ≤ dst ∨ dst + 16 * count ≤ src) ∨ count = 1) :
    readBlock (units (ecbUnit e) 16 count src dst w).mem (dst + 16 * j) =
      e (readBlock w.mem (src + 16 * j)) := by
  rw [readBlock_units_destination (ecbUnit_writesOnly e) hj, ecbUnit_mem, readBlock_writeBlock,
    readBlock_units_source (ecbUnit_writesOnly e) hj h]

/-- An ECB call (41_mode_layer.md R178, R179). -/
theorem exec_ecb {dec ivp : Bool} {s : State} {k : Nat} (hmode : modeOf (s.slot k).desc = some .ecb)
    (halias : PlainAliasing s ∨ s.arg2 = 16) (h : CryptOk s k ivp (!dec)) :
    ∃ t, exec (cryptCommand dec k ivp) s = .next t ∧ t.slots = s.slots ∧
      ∀ j, j < s.arg2 / 16 → readBlock t.mem (s.arg1 + 16 * j) =
        (if dec then slotDec (s.slot k) else slotEnc (s.slot k)) (readBlock s.mem (s.arg0 + 16 * j)) := by
  obtain ⟨t, ht, hleft⟩ := exec_cryptCommand h
  have hend : cryptEnd dec s k ivp =
      units (ecbUnit (if dec then slotDec (s.slot k) else slotEnc (s.slot k))) 16 (s.arg2 / 16)
        s.arg0 s.arg1 (startWork s k ivp) := by
    rw [cryptEnd, cryptWork_eq_units hmode]
    cases dec <;> rfl
  refine ⟨t, ht, ?_, fun j hj => ?_⟩
  · cases ivp with
    | true => exact hleft.frame.override rfl
    | false =>
      have hk : k < s.slots.length := lt_slots_of_alloc h.live.2
      obtain ⟨hiv, hks, hcur⟩ := units_ecb_triple
        (e := if dec then slotDec (s.slot k) else slotEnc (s.slot k)) (count := s.arg2 / 16)
        (src := s.arg0) (dst := s.arg1) (w := startWork s k false)
      rw [hleft.slots rfl, hend, commitSlot, hiv, hks, hcur]
      exact (congrArg (s.slots.set k) (slot_getElem hk)).trans (List.set_getElem_self hk)
  · rw [hleft.mem, hend, units_ecb_block hj (blockAliasing (h.length (.inl hmode)) halias), startWork_mem]

end ecb

/-- Settles O41. -/
theorem ecbTransformsEachBlock : Obligations.EcbTransformsEachBlock := fun _ _ _ hmode halias =>
  ⟨exec_ecb (dec := false) hmode halias, exec_ecb (dec := true) hmode halias⟩

/-! ### CBC -/

section cbc
variable {e d : Block → Block} {count src dst j : Nat} {w : Work}

theorem units_cbcEnc_held : (units (cbcEncUnit e) 16 count src dst w).ks = w.ks ∧
    (units (cbcEncUnit e) 16 count src dst w).cur = w.cur :=
  units_induction (fun _ v => v.ks = w.ks ∧ v.cur = w.cur) ⟨rfl, rfl⟩
    fun _ _ _ hv => by simpa using hv

theorem units_cbcDec_held : (units (cbcDecUnit d) 16 count src dst w).ks = w.ks ∧
    (units (cbcDecUnit d) 16 count src dst w).cur = w.cur :=
  units_induction (fun _ v => v.ks = w.ks ∧ v.cur = w.cur) ⟨rfl, rfl⟩
    fun _ _ _ hv => by simpa using hv

/-- After `j` encryption units the IV is the ciphertext block before, as it stands at the end
(41_mode_layer.md R180). -/
theorem units_cbcEnc_iv (hj : j ≤ count) : (units (cbcEncUnit e) 16 j src dst w).iv =
    if j = 0 then w.iv
    else readBlock (units (cbcEncUnit e) 16 count src dst w).mem (dst + 16 * (j - 1)) := by
  cases j with
  | zero => rfl
  | succ j =>
    rw [if_neg j.succ_ne_zero, Nat.add_sub_cancel, readBlock_units_destination (cbcEncUnit_writesOnly e) hj,
      units_succ_last, cbcEncUnit_mem, readBlock_writeBlock, cbcEncUnit_iv]

theorem units_cbcEnc_block (hj : j < count)
    (h : (src = dst ∨ src + 16 * count ≤ dst ∨ dst + 16 * count ≤ src) ∨ count = 1) :
    readBlock (units (cbcEncUnit e) 16 count src dst w).mem (dst + 16 * j) =
      e (xorBlock (readBlock w.mem (src + 16 * j)) (units (cbcEncUnit e) 16 j src dst w).iv) := by
  rw [readBlock_units_destination (cbcEncUnit_writesOnly e) hj, cbcEncUnit_mem, readBlock_writeBlock,
    readBlock_units_source (cbcEncUnit_writesOnly e) hj h]

/-- After `j` decryption units the IV is the source block before (41_mode_layer.md R181). -/
theorem units_cbcDec_iv (hj : j ≤ count)
    (h : (src = dst ∨ src + 16 * count ≤ dst ∨ dst + 16 * count ≤ src) ∨ count = 1) :
    (units (cbcDecUnit d) 16 j src dst w).iv =
      if j = 0 then w.iv else readBlock w.mem (src + 16 * (j - 1)) := by
  cases j with
  | zero => rfl
  | succ j =>
    rw [if_neg j.succ_ne_zero, Nat.add_sub_cancel, units_succ_last, cbcDecUnit_iv,
      readBlock_units_source (cbcDecUnit_writesOnly d) hj h]

theorem units_cbcDec_block (hj : j < count)
    (h : (src = dst ∨ src + 16 * count ≤ dst ∨ dst + 16 * count ≤ src) ∨ count = 1) :
    readBlock (units (cbcDecUnit d) 16 count src dst w).mem (dst + 16 * j) =
      xorBlock (d (readBlock w.mem (src + 16 * j))) (units (cbcDecUnit d) 16 j src dst w).iv := by
  rw [readBlock_units_destination (cbcDecUnit_writesOnly d) hj, cbcDecUnit_mem, readBlock_writeBlock,
    readBlock_units_source (cbcDecUnit_writesOnly d) hj h]

theorem startWork_iv (s : State) (k : Nat) (ivp : Bool) : (startWork s k ivp).iv = startIv s k ivp := by
  cases ivp <;> rfl

end cbc

/-- Settles O42. -/
theorem cbcChainsBlocks : Obligations.CbcChainsBlocks := by
  intro s k ivp hmode halias
  refine ⟨fun hok => ?_, fun hok => ?_⟩
  · obtain ⟨t, ht, hleft⟩ := exec_cryptCommand (dec := false) hok
    have hend : cryptEnd false s k ivp = units (cbcEncUnit (slotEnc (s.slot k))) 16 (s.arg2 / 16)
        s.arg0 s.arg1 (startWork s k ivp) := cryptWork_eq_units hmode
    have haliasing := blockAliasing (hok.length (.inr hmode)) halias
    refine ⟨t, ht, fun j hj => ?_, fun hivp => ?_⟩
    · rw [hleft.mem, hend, units_cbcEnc_block hj haliasing, units_cbcEnc_iv hj.le, startWork_mem,
        startWork_iv]
      rfl
    · subst hivp
      obtain ⟨hks, hcur⟩ := units_cbcEnc_held (e := slotEnc (s.slot k)) (count := s.arg2 / 16)
        (src := s.arg0) (dst := s.arg1) (w := startWork s k false)
      rw [hleft.slot rfl, hleft.mem, hend, commitSlot, hks, hcur, units_cbcEnc_iv le_rfl]
      rfl
  · obtain ⟨t, ht, hleft⟩ := exec_cryptCommand (dec := true) hok
    have hend : cryptEnd true s k ivp = units (cbcDecUnit (slotDec (s.slot k))) 16 (s.arg2 / 16)
        s.arg0 s.arg1 (startWork s k ivp) := cryptWork_eq_units hmode
    have haliasing := blockAliasing (hok.length (.inr hmode)) halias
    refine ⟨t, ht, fun j hj => ?_, fun hivp => ?_⟩
    · rw [hleft.mem, hend, units_cbcDec_block hj haliasing, units_cbcDec_iv hj.le haliasing, startWork_mem,
        startWork_iv]
      rfl
    · subst hivp
      obtain ⟨hks, hcur⟩ := units_cbcDec_held (d := slotDec (s.slot k)) (count := s.arg2 / 16)
        (src := s.arg0) (dst := s.arg1) (w := startWork s k false)
      rw [hleft.slot rfl, hend, commitSlot, hks, hcur, units_cbcDec_iv le_rfl haliasing]
      rfl

end Sys2Proof.Machine
end

section
/-! The two stream modes, byte by byte from any cursor: CTR (41_mode_layer.md R184 to R187) and CFB
(R190, R191). A position of a call's stream is counted from the start of the block in hand. -/

namespace Sys2Proof.Machine

/-! ### Bytes under units of one byte -/

section bytes
variable {f : Nat → Nat → Work → Work} {count src dst j : Nat} {w : Work}

/-- A unit of one byte finds its source byte as it was at the start. -/
theorem memRead_units_source (hf : WritesOnly f 1) (hj : j < count)
    (h : src = dst ∨ src + count ≤ dst ∨ dst + count ≤ src) :
    memRead (units f 1 j src dst w).mem (src + j) = memRead w.mem (src + j) := by
  simpa using readBytes_units_source (w := w) hf hj (by simpa using h)

/-- The byte that a unit leaves is there at the end. -/
theorem memRead_units_destination (hf : WritesOnly f 1) (hj : j < count) :
    memRead (units f 1 count src dst w).mem (dst + j) =
      memRead (f (src + j) (dst + j) (units f 1 j src dst w)).mem (dst + j) := by
  simpa [units_succ_last] using readBytes_units_destination (src := src) (w := w) hf hj

theorem fin16_add_one (c : Fin 16) : (c + 1).val = (c.val + 1) % 16 := Fin.val_add c 1

theorem fin16_eq_zero_iff {c : Fin 16} : c = 0 ↔ c.val = 0 := Fin.ext_iff

end bytes

section start
variable {s : State} {k : Nat} {ivp : Bool}

theorem startWork_cur (s : State) (k : Nat) (ivp : Bool) :
    (startWork s k ivp).cur.val = startCur s k ivp := by cases ivp <;> rfl

theorem startCur_lt (s : State) (k : Nat) (ivp : Bool) : startCur s k ivp < 16 := by
  rw [← startWork_cur]
  exact (startWork s k ivp).cur.isLt

/-- Only the slot can hold a begun block. -/
theorem startWork_ks (h : startCur s k ivp ≠ 0) : (startWork s k ivp).ks = (s.slot k).ks := by
  cases ivp
  · rfl
  · exact absurd rfl h

end start

/-! ### CTR -/

section ctr
variable {s : State} {k p : Nat} {ivp : Bool} {v : Work}

/-- The working state of a CTR call at position `p` of its stream. -/
structure CtrAt (s : State) (k : Nat) (ivp : Bool) (p : Nat) (v : Work) : Prop where
  cur : v.cur.val = p % 16
  iv : v.iv = Nat.iterate inc128 ((p + 15) / 16 - bit (startCur s k ivp != 0)) (startIv s k ivp)
  ks : p % 16 ≠ 0 → ∀ q, q < 16 → blockByte v.ks q = ctrKeyByte s k ivp (16 * (p / 16) + q)

theorem bit_startCur (s : State) (k : Nat) (ivp : Bool) :
    bit (startCur s k ivp != 0) = if startCur s k ivp = 0 then 0 else 1 := by
  by_cases h : startCur s k ivp = 0 <;> simp [h, bit]

theorem ctrAt_start : CtrAt s k ivp (startCur s k ivp) (startWork s k ivp) := by
  have hlt : startCur s k ivp < 16 := startCur_lt s k ivp
  refine ⟨by rw [startWork_cur, Nat.mod_eq_of_lt hlt], ?_, fun hne q hq => ?_⟩
  · have hcount : (startCur s k ivp + 15) / 16 - bit (startCur s k ivp != 0) = 0 := by
      rw [bit_startCur]
      split <;> omega
    rw [hcount, startWork_iv]
    rfl
  · rw [Nat.mod_eq_of_lt hlt] at hne
    rw [startWork_ks hne, Nat.div_eq_of_lt hlt, Nat.mul_zero, Nat.zero_add, ctrKeyByte, if_pos ⟨hne, hq⟩]

/-- A block after the block in hand, or one in hand that is not begun, is an encrypted counter. -/
theorem ctrKeyByte_of_fresh (hp : startCur s k ivp ≤ p) (h0 : p % 16 = 0) {q : Nat} (hq : q < 16) :
    ctrKeyByte s k ivp (16 * (p / 16) + q) = blockByte (slotEnc (s.slot k) (Nat.iterate inc128
      (p / 16 - bit (startCur s k ivp != 0) + bit s.params.ctrPreinc) (startIv s k ivp))) q := by
  rw [ctrKeyByte, if_neg (by omega), show (16 * (p / 16) + q) / 16 = p / 16 by omega,
    show (16 * (p / 16) + q) % 16 = q by omega, slotEnc]

/-- Keystream is held after the refill, and the counter stands behind it (41_mode_layer.md R184, R185). -/
theorem CtrAt.refill (h : CtrAt s k ivp p v) (hp : startCur s k ivp ≤ p) :
    (ctrRefill s.params.ctrPreinc (slotEnc (s.slot k)) v).iv =
        Nat.iterate inc128 ((p + 16) / 16 - bit (startCur s k ivp != 0)) (startIv s k ivp) ∧
      ∀ q, q < 16 → blockByte (ctrRefill s.params.ctrPreinc (slotEnc (s.slot k)) v).ks q =
        ctrKeyByte s k ivp (16 * (p / 16) + q) := by
  obtain ⟨hcur, hiv, hks⟩ := h
  by_cases h0 : p % 16 = 0
  · have hzero : v.cur = 0 := fin16_eq_zero_iff.mpr (hcur.trans h0)
    have hle : bit (startCur s k ivp != 0) ≤ p / 16 := by
      rw [bit_startCur]
      split <;> omega
    rw [show (p + 15) / 16 = p / 16 by omega] at hiv
    have hnext : inc128 v.iv = Nat.iterate inc128 ((p + 16) / 16 - bit (startCur s k ivp != 0))
        (startIv s k ivp) := by
      rw [hiv, ← Function.iterate_succ_apply' inc128]
      congr 1
      omega
    have hkey (q : Nat) (hq : q < 16) := ctrKeyByte_of_fresh hp h0 hq
    cases hpre : s.params.ctrPreinc with
    | false =>
      simp only [ctrRefill, hzero, if_true, Bool.false_eq_true, if_false]
      refine ⟨hnext, fun q hq => ?_⟩
      rw [hkey q hq, hpre, hiv]
      rfl
    | true =>
      simp only [ctrRefill, hzero, if_true]
      refine ⟨hnext, fun q hq => ?_⟩
      rw [hkey q hq, hpre, hiv, ← Function.iterate_succ_apply' inc128]
      rfl
  · have hne : v.cur ≠ 0 := fun hz => h0 (hcur.symm.trans (fin16_eq_zero_iff.mp hz))
    simp only [ctrRefill, hne, if_false]
    exact ⟨by rw [hiv, show (p + 15) / 16 = (p + 16) / 16 by omega], hks h0⟩

theorem CtrAt.unit (h : CtrAt s k ivp p v) (hp : startCur s k ivp ≤ p) (src dst : Nat) :
    CtrAt s k ivp (p + 1) (ctrUnit s.params.ctrPreinc (slotEnc (s.slot k)) src dst v) := by
  obtain ⟨hiv, hks⟩ := h.refill hp
  refine ⟨?_, hiv, fun hne q hq => ?_⟩
  · rw [ctrUnit_cur, fin16_add_one, h.cur]
    omega
  · rw [show (p + 1) / 16 = p / 16 by omega]
    exact hks q hq

/-- The working state after `j` bytes. -/
theorem units_ctrAt (s : State) (k : Nat) (ivp : Bool) (j : Nat) : CtrAt s k ivp (startCur s k ivp + j)
    (units (ctrUnit s.params.ctrPreinc (slotEnc (s.slot k))) 1 j s.arg0 s.arg1 (startWork s k ivp)) :=
  units_induction (fun j v => CtrAt s k ivp (startCur s k ivp + j) v) ctrAt_start
    fun _ _ _ h => h.unit (by omega) _ _

/-- Byte `j` of the destination of a CTR call. -/
theorem units_ctr_byte {j : Nat} (hj : j < s.arg2) (halias : PlainAliasing s) :
    memRead (units (ctrUnit s.params.ctrPreinc (slotEnc (s.slot k))) 1 s.arg2 s.arg0 s.arg1
        (startWork s k ivp)).mem (s.arg1 + j) =
      memRead s.mem (s.arg0 + j) ^^^ ctrKeyByte s k ivp (startCur s k ivp + j) := by
  have hat := units_ctrAt s k ivp j
  obtain ⟨-, hks⟩ := hat.refill (by omega)
  rw [memRead_units_destination (ctrUnit_writesOnly _ _) hj, ctrUnit_mem, memRead_memWrite_self,
    memRead_units_source (ctrUnit_writesOnly _ _) hj halias, startWork_mem, hat.cur,
    hks _ (Nat.mod_lt _ (by decide)), Nat.div_add_mod]

/-- In a stream mode the checks do not depend on the orientation of the schedule (41_mode_layer.md R173). -/
theorem CryptOk.of_stream {wrong wrong' : Bool} (h : CryptOk s k ivp wrong)
    (hmode : ¬ BlockMode (s.slot k)) : CryptOk s k ivp wrong' :=
  ⟨h.live, h.keyed, fun hb => absurd hb hmode, h.length, h.source, h.destination, h.override⟩

end ctr

/-- Settles O43. -/
theorem ctrXorsTheKeystream : Obligations.CtrXorsTheKeystream := by
  intro s k ivp w i hi hok hmode halias fin
  have hexec : exec i s = exec (cryptCommand false k ivp) s := by
    rcases hi with rfl | rfl
    · rfl
    · exact ctrDecryptIsEncrypt s k ivp hmode
  obtain ⟨t, ht, hleft⟩ := exec_cryptCommand (dec := false) (hok.of_stream (by simp [hmode]))
  have hend : cryptEnd false s k ivp = units (ctrUnit s.params.ctrPreinc (slotEnc (s.slot k))) 1 s.arg2
      s.arg0 s.arg1 (startWork s k ivp) := by
    rw [cryptEnd, cryptWork_eq_units hmode, unitSize, Nat.div_one]
    rfl
  refine ⟨t, hexec.trans ht, fun j hj => ?_, fun hivp => ?_⟩
  · rw [hleft.mem, hend, units_ctr_byte hj halias]
  · obtain ⟨hcur, hiv, hks⟩ := units_ctrAt s k ivp s.arg2
    rw [hleft.slot hivp, hend]
    exact ⟨hiv, hcur, fun hne q _ hq => hks hne q hq⟩

/-! ### CFB -/

section cfb
variable {s : State} {k p : Nat} {ivp : Bool} {cipher : Nat → Byte} {v : Work}

/-- The working state of a CFB call at position `p` of its stream: consumed keystream bytes are replaced by
ciphertext bytes (10_state.md R46). -/
structure CfbAt (s : State) (k : Nat) (ivp : Bool) (cipher : Nat → Byte) (p : Nat) (v : Work) : Prop where
  cur : v.cur.val = p % 16
  iv : v.iv = cfbFeedback s k ivp cipher (p / 16)
  ks : p % 16 ≠ 0 → ∀ q, q < 16 → blockByte v.ks q =
    if q < p % 16 then cfbCipherByte s k ivp cipher (16 * (p / 16) + q)
    else cfbKeyByte s k ivp cipher (16 * (p / 16) + q)

theorem cfbAt_start : CfbAt s k ivp cipher (startCur s k ivp) (startWork s k ivp) := by
  have hlt : startCur s k ivp < 16 := startCur_lt s k ivp
  refine ⟨by rw [startWork_cur, Nat.mod_eq_of_lt hlt], ?_, fun hne q hq => ?_⟩
  · rw [Nat.div_eq_of_lt hlt, startWork_iv]
    rfl
  · rw [Nat.mod_eq_of_lt hlt] at hne ⊢
    rw [startWork_ks hne, Nat.div_eq_of_lt hlt, Nat.mul_zero, Nat.zero_add]
    split_ifs with hbegun
    · rw [cfbCipherByte, if_pos hbegun]
    · rw [cfbKeyByte, if_pos ⟨hne, hq⟩]

theorem cfbKeyByte_of_fresh (hp : startCur s k ivp ≤ p) (h0 : p % 16 = 0) {q : Nat} (hq : q < 16) :
    cfbKeyByte s k ivp cipher (16 * (p / 16) + q) =
      blockByte (slotEnc (s.slot k) (cfbFeedback s k ivp cipher (p / 16))) q := by
  rw [cfbKeyByte, if_neg (by omega), show (16 * (p / 16) + q) / 16 = p / 16 by omega,
    show (16 * (p / 16) + q) % 16 = q by omega, slotEnc]

/-- Keystream is held after the refill (41_mode_layer.md R190, R191). -/
theorem CfbAt.refill (h : CfbAt s k ivp cipher p v) (hp : startCur s k ivp ≤ p) {q : Nat} (hq : q < 16) :
    blockByte (cfbRefill (slotEnc (s.slot k)) v).ks q =
      if q < p % 16 then cfbCipherByte s k ivp cipher (16 * (p / 16) + q)
      else cfbKeyByte s k ivp cipher (16 * (p / 16) + q) := by
  obtain ⟨hcur, hiv, hks⟩ := h
  by_cases h0 : p % 16 = 0
  · have hzero : v.cur = 0 := fin16_eq_zero_iff.mpr (hcur.trans h0)
    rw [cfbRefill, if_pos hzero, if_neg (by omega), cfbKeyByte_of_fresh hp h0 hq, hiv]
  · have hne : v.cur ≠ 0 := fun hz => h0 (hcur.symm.trans (fin16_eq_zero_iff.mp hz))
    rw [cfbRefill, if_neg hne]
    exact hks h0 q hq

theorem blockByte_map_range (g : Nat → Byte) {q : Nat} (hq : q < 16) :
    blockByte (blockOfBytes ((List.range 16).map g)) q = g q := by
  rw [blockByte, blockBytes_blockOfBytes (by simp)]
  simp [hq]

/-- The ciphertext byte of this position is fed back, and a whole ciphertext block becomes the feedback
register (41_mode_layer.md R190, R191). -/
theorem CfbAt.feed (h : CfbAt s k ivp cipher p v) (hp : startCur s k ivp ≤ p) {c : Byte}
    (hc : c = cipher (p - startCur s k ivp)) (m : Memory) :
    CfbAt s k ivp cipher (p + 1) (cfbFeed c { cfbRefill (slotEnc (s.slot k)) v with mem := m }) := by
  have hbyte : cfbCipherByte s k ivp cipher p = c := by rw [cfbCipherByte, if_neg (by omega), hc]
  have hcur : (cfbRefill (slotEnc (s.slot k)) v).cur.val = p % 16 := by rw [cfbRefill_cur, h.cur]
  have hiv : (cfbRefill (slotEnc (s.slot k)) v).iv = cfbFeedback s k ivp cipher (p / 16) := by
    rw [cfbRefill]
    split <;> exact h.iv
  have hfed (q : Nat) (hq : q < 16) :
      blockByte (setBlockByte (cfbRefill (slotEnc (s.slot k)) v).ks (p % 16) c) q =
        if q < p % 16 + 1 then cfbCipherByte s k ivp cipher (16 * (p / 16) + q)
        else cfbKeyByte s k ivp cipher (16 * (p / 16) + q) := by
    rw [blockByte_setBlockByte _ _ (Nat.mod_lt _ (by decide)), h.refill hp hq]
    rcases Nat.lt_trichotomy q (p % 16) with hlt | rfl | hgt
    · rw [if_neg (by omega), if_pos hlt, if_pos (by omega)]
    · rw [if_pos rfl, if_pos (by omega), Nat.div_add_mod, hbyte]
    · rw [if_neg (by omega), if_neg (by omega), if_neg (by omega)]
  by_cases h15 : p % 16 = 15
  · have hlast : (cfbRefill (slotEnc (s.slot k)) v).cur = 15 := Fin.ext (hcur.trans h15)
    rw [cfbFeed, if_pos hlast]
    refine ⟨by simp; omega, ?_, fun hne => by omega⟩
    apply block_ext
    intro q hq
    rw [show (p + 1) / 16 = p / 16 + 1 by omega, cfbFeedback, if_neg (Nat.succ_ne_zero _),
      Nat.add_sub_cancel, blockByte_map_range _ hq]
    simp only [hcur]
    rw [hfed q hq, if_pos (by omega)]
  · have hnot : (cfbRefill (slotEnc (s.slot k)) v).cur ≠ 15 := fun hz =>
      h15 (hcur.symm.trans (congrArg Fin.val hz))
    rw [show p % 16 + 1 = (p + 1) % 16 by omega] at hfed
    rw [cfbFeed, if_neg hnot]
    refine ⟨?_, ?_, fun _ q hq => ?_⟩
    · simp only [fin16_add_one, hcur]
      omega
    · rw [show (p + 1) / 16 = p / 16 by omega]
      exact hiv
    · rw [show (p + 1) / 16 = p / 16 by omega]
      simp only [hcur]
      exact hfed q hq

/-! ### The units of a CFB call -/

/-- What one CFB unit does, in either direction: the output byte, and the ciphertext byte that it feeds back
(41_mode_layer.md R190, R191). -/
structure CfbUnit (f : Nat → Nat → Work → Work) (e : Block → Block) (fed : Nat → Work → Byte) : Prop where
  mem : ∀ src dst v, (f src dst v).mem =
    memWrite v.mem dst (memRead v.mem src ^^^ blockByte (cfbRefill e v).ks v.cur.val)
  feed : ∀ src dst v, ∃ m, f src dst v = cfbFeed (fed src v) { cfbRefill e v with mem := m }

/-- Encryption feeds back its output byte. -/
theorem cfbEncUnit_cfbUnit (e : Block → Block) : CfbUnit (cfbEncUnit e) e
    (fun src v => memRead v.mem src ^^^ blockByte (cfbRefill e v).ks v.cur.val) where
  mem := cfbEncUnit_mem e
  feed src dst v := ⟨memWrite v.mem dst (memRead v.mem src ^^^ blockByte (cfbRefill e v).ks v.cur.val), by
    simp only [cfbEncUnit, cfbEncEmit, cfbRefill_mem, cfbRefill_cur]⟩

/-- Decryption feeds back its input byte. -/
theorem cfbDecUnit_cfbUnit (e : Block → Block) :
    CfbUnit (cfbDecUnit e) e (fun src v => memRead v.mem src) where
  mem := cfbDecUnit_mem e
  feed src dst v := ⟨_, by rw [cfbDecUnit, cfbDecEmit, cfbRefill_mem]⟩

section units
variable {f : Nat → Nat → Work → Work} {fed : Nat → Work → Byte} {j : Nat}

/-- The state that `j` units of a call leave. -/
abbrev cfbAfter (f : Nat → Nat → Work → Work) (s : State) (k : Nat) (ivp : Bool) (j : Nat) : Work :=
  units f 1 j s.arg0 s.arg1 (startWork s k ivp)

theorem CfbUnit.writesOnly {e : Block → Block} (hf : CfbUnit f e fed) : WritesOnly f 1 :=
  writesOnly_of_memWrite fun src dst v => ⟨_, hf.mem src dst v⟩

/-- The working state after `j` bytes, when every unit feeds back the ciphertext byte of its position. -/
theorem CfbUnit.units_cfbAt (hf : CfbUnit f (slotEnc (s.slot k)) fed)
    (hfed : ∀ j, j < s.arg2 → fed (s.arg0 + j) (cfbAfter f s k ivp j) = cipher j) (hj : j ≤ s.arg2) :
    CfbAt s k ivp cipher (startCur s k ivp + j) (cfbAfter f s k ivp j) := by
  induction j with
  | zero => exact cfbAt_start
  | succ j ih =>
    obtain ⟨m, hunit⟩ := hf.feed (s.arg0 + 1 * j) (s.arg1 + 1 * j) (cfbAfter f s k ivp j)
    rw [Nat.one_mul] at hunit
    rw [cfbAfter, units_succ_last, Nat.one_mul, hunit]
    exact (ih (by omega)).feed (by omega) (by rw [hfed j hj, Nat.add_sub_cancel_left]) m

/-- Byte `j` of the destination of a CFB call. -/
theorem CfbUnit.units_byte (hf : CfbUnit f (slotEnc (s.slot k)) fed) (halias : PlainAliasing s)
    (hfed : ∀ j, j < s.arg2 → fed (s.arg0 + j) (cfbAfter f s k ivp j) = cipher j) (hj : j < s.arg2) :
    memRead (cfbAfter f s k ivp s.arg2).mem (s.arg1 + j) =
      memRead s.mem (s.arg0 + j) ^^^ cfbKeyByte s k ivp cipher (startCur s k ivp + j) := by
  have hat := hf.units_cfbAt hfed hj.le
  rw [memRead_units_destination hf.writesOnly hj, hf.mem, memRead_memWrite_self,
    memRead_units_source hf.writesOnly hj halias, startWork_mem, hat.cur,
    hat.refill (by omega) (Nat.mod_lt _ (by decide)), if_neg (lt_irrefl _), Nat.div_add_mod]

/-- A CFB call whose units are these. -/
theorem CfbUnit.cfbFrom {dec : Bool} {t : State} (hf : CfbUnit f (slotEnc (s.slot k)) fed)
    (hleft : CryptLeft dec s t k ivp) (hend : cryptEnd dec s k ivp = cfbAfter f s k ivp s.arg2)
    (halias : PlainAliasing s)
    (hfed : ∀ j, j < s.arg2 → fed (s.arg0 + j) (cfbAfter f s k ivp j) = cipher j) :
    CfbFrom s t k ivp cipher := by
  obtain ⟨hcur, hiv, hks⟩ := hf.units_cfbAt hfed le_rfl
  rw [← hend] at hcur hiv hks
  have hslot (hivp : ivp = false) : t.slot k = commitSlot (s.slot k) (cryptEnd dec s k ivp) :=
    hleft.slot hivp
  refine ⟨fun j hj => ?_, fun hivp => ?_, fun hivp => ?_, fun hivp hne q hq => ?_⟩
  · rw [hleft.mem, hend, hf.units_byte halias hfed hj]
  · rw [hslot hivp]
    exact hiv
  · rw [hslot hivp]
    exact hcur
  · rw [hslot hivp] at hne ⊢
    have hbegun : (startCur s k ivp + s.arg2) % 16 ≠ 0 := fun h0 =>
      hne (fin16_eq_zero_iff.mpr (hcur.trans h0))
    rw [show (commitSlot (s.slot k) (cryptEnd dec s k ivp)).cur.val = _ from hcur]
    exact hks hbegun q hq

end units

end cfb

/-- Settles O44: encryption feeds back what it leaves in the destination, decryption what it finds in the
source. -/
theorem cfbFeedsBackTheCiphertext : Obligations.CfbFeedsBackTheCiphertext := by
  intro s k ivp w hok hmode halias
  have hstream : ¬ BlockMode (s.slot k) := by simp [hmode]
  refine ⟨?_, ?_⟩
  · have hf := cfbEncUnit_cfbUnit (slotEnc (s.slot k))
    obtain ⟨t, ht, hleft⟩ := exec_cryptCommand (dec := false) (hok.of_stream hstream)
    have hend : cryptEnd false s k ivp = cfbAfter (cfbEncUnit (slotEnc (s.slot k))) s k ivp s.arg2 := by
      rw [cryptEnd, cryptWork_eq_units hmode, unitSize, Nat.div_one]
      rfl
    refine ⟨t, ht, hf.cfbFrom hleft hend halias fun j hj => ?_⟩
    rw [hleft.mem, hend, memRead_units_destination hf.writesOnly hj, hf.mem, memRead_memWrite_self]
  · have hf := cfbDecUnit_cfbUnit (slotEnc (s.slot k))
    obtain ⟨t, ht, hleft⟩ := exec_cryptCommand (dec := true) (hok.of_stream hstream)
    have hend : cryptEnd true s k ivp = cfbAfter (cfbDecUnit (slotEnc (s.slot k))) s k ivp s.arg2 := by
      rw [cryptEnd, cryptWork_eq_units hmode, unitSize, Nat.div_one]
      rfl
    refine ⟨t, ht, hf.cfbFrom hleft hend halias fun j hj => ?_⟩
    rw [memRead_units_source hf.writesOnly hj halias, startWork_mem]

end Sys2Proof.Machine
end

section
/-! What a command does not read: the live window (10_state.md R23, R32, R50) and, but for ENCRYPT and
DECRYPT, the schedule and the keystream of any slot (43_instance.md R249). -/

namespace Sys2Proof.Machine

/-! ### The live window -/

section window
variable (i : Instr) (s : State) (w : Window)

theorem checksOf_withWindow : checksOf i (withWindow s w) = checksOf i s := by cases i <;> rfl

theorem effectOf_withWindow : effectOf i (withWindow s w) = withWindow (effectOf i s) w := by
  cases i <;> rfl

theorem valueOf_withWindow : valueOf i (withWindow s w) = valueOf i s := by cases i <;> rfl

end window

/-- Settles O56: neither the checks, the effect nor the value of a command looks at the window. -/
theorem commandsReadOnlyTheLatch : Obligations.CommandsReadOnlyTheLatch := by
  intro i s w
  have hchecks := congrArg firstFailure (checksOf_withWindow i s w)
  cases hf : firstFailure (checksOf i s) with
  | some e =>
    exact ⟨_, _, exec_error hf, exec_error (hchecks.trans hf), rfl, rfl, rfl, rfl, rfl, rfl, rfl, rfl, rfl⟩
  | none =>
    have hrun := exec_ok (hchecks.trans hf)
    rw [effectOf_withWindow, valueOf_withWindow] at hrun
    exact ⟨_, _, exec_ok hf, hrun, rfl, rfl, rfl, rfl, rfl, rfl, rfl, rfl, rfl⟩

/-! ### Schedules and keystreams -/

section keyMaterial
variable {i : Instr} {s : State} {j : Nat} {rk : List Word} {ks : Block}

/-- `s` with another schedule and keystream in `slot[j]`. -/
def rekeyed (s : State) (j : Nat) (rk : List Word) (ks : Block) : State :=
  s.setSlot j { s.slot j with rk := rk, ks := ks }

theorem rekeyed_of_ge (h : s.slots.length ≤ j) : rekeyed s j rk ks = s := by
  simp [rekeyed, State.setSlot, List.set_eq_of_length_le h]

/-- Every slot is as before but for its schedule and keystream. -/
theorem rekeyed_slot (s : State) (j : Nat) (rk : List Word) (ks : Block) (k : Nat) :
    ∃ rk' ks', (rekeyed s j rk ks).slot k = { s.slot k with rk := rk', ks := ks' } := by
  rcases Nat.lt_or_ge j s.slots.length with hj | hj
  · by_cases hk : k = j
    · subst hk
      exact ⟨rk, ks, setSlot_slot_self hj⟩
    · exact ⟨(s.slot k).rk, (s.slot k).ks, setSlot_slot_ne hk⟩
  · exact ⟨(s.slot k).rk, (s.slot k).ks, by rw [rekeyed_of_ge hj]⟩

theorem rekeyed_firstFree : (rekeyed s j rk ks).firstFree = s.firstFree := by
  rcases Nat.lt_or_ge j s.slots.length with hj | hj
  · exact firstFree_setSlot_of_alloc hj rfl
  · rw [rekeyed_of_ge hj]

theorem rekeyed_slotChecks (k : Nat) : slotChecks (rekeyed s j rk ks) k = slotChecks s k := by
  obtain ⟨rk', ks', hslot⟩ := rekeyed_slot s j rk ks k
  rw [slotChecks, hslot]
  rfl

/-- The command is neither ENCRYPT nor DECRYPT. -/
def NoCrypt (i : Instr) : Prop := ∀ k ivp, i ≠ .encrypt k ivp ∧ i ≠ .decrypt k ivp

theorem rekeyed_checksOf (hi : NoCrypt i) : checksOf i (rekeyed s j rk ks) = checksOf i s := by
  cases i with
  | encrypt k ivp => exact absurd rfl (hi k ivp).1
  | decrypt k ivp => exact absurd rfl (hi k ivp).2
  | alloc =>
    simp only [checksOf, allocChecks, noFreeSlot, rekeyed_firstFree]
    rfl
  | allocParts m =>
    simp only [checksOf, allocPartsChecks, noFreeSlot, rekeyed_firstFree]
    rfl
  | setKey k _ | setIv k _ | pokeIv k | getName k | getAlgName k | getIv k =>
    obtain ⟨rk', ks', hslot⟩ := rekeyed_slot s j rk ks k
    simp only [checksOf, setKeyChecks, setIvChecks, pokeIvChecks, rekeyed_slotChecks, hslot]
    rfl
  | free k | getBlockLen k | getIvLen k | getKeyLen k | getMode k => exact rekeyed_slotChecks k
  | register | unregister | unregisterAll | resolve | getState => rfl

theorem rekeyed_valueOf (hi : NoCrypt i) : valueOf i (rekeyed s j rk ks) = valueOf i s := by
  cases i with
  | encrypt k ivp => exact absurd rfl (hi k ivp).1
  | decrypt k ivp => exact absurd rfl (hi k ivp).2
  | alloc | allocParts => simp only [valueOf, freeIndex, rekeyed_firstFree]
  | getBlockLen k | getIvLen k | getKeyLen k | getName k | getAlgName k | getMode k | getState k =>
    obtain ⟨rk', ks', hslot⟩ := rekeyed_slot s j rk ks k
    simp only [valueOf, hslot, slotStateValue]
  | register | unregister | unregisterAll | resolve | free | setKey | setIv | pokeIv | getIv => rfl

theorem rekeyed_registryAfter : registryAfter i (rekeyed s j rk ks) = registryAfter i s :=
  registryAfter_setSlot

theorem rekeyed_memAfter (hi : NoCrypt i) : memAfter i (rekeyed s j rk ks) = memAfter i s := by
  cases i with
  | encrypt k ivp => exact absurd rfl (hi k ivp).1
  | decrypt k ivp => exact absurd rfl (hi k ivp).2
  | getName k | getAlgName k | getIv k =>
    obtain ⟨rk', ks', hslot⟩ := rekeyed_slot s j rk ks k
    simp only [memAfter, hslot]
    rfl
  | _ => rfl

end keyMaterial

/-- Settles O55: no other command looks at a schedule or a keystream to choose its code, its result or its
bytes. -/
theorem keyMaterialStaysInside : Obligations.KeyMaterialStaysInside := by
  intro i j s rk ks hi
  have hchecks : firstFailure (checksOf i (rekeyed s j rk ks)) = firstFailure (checksOf i s) :=
    congrArg firstFailure (rekeyed_checksOf hi)
  cases hf : firstFailure (checksOf i s) with
  | some e => exact ⟨_, _, exec_error hf, exec_error (hchecks.trans hf), rfl, rfl, rfl⟩
  | none =>
    have hrun := exec_ok (hchecks.trans hf)
    rw [rekeyed_valueOf hi] at hrun
    exact ⟨_, _, exec_ok hf, hrun, rfl, rekeyed_memAfter hi, rekeyed_registryAfter⟩

end Sys2Proof.Machine
end

section
/-! A command stays in the ranges that its operands name: what it reads and writes of `MEM`
(20_memory.md R63; log entry 6). -/

namespace Sys2Proof.Machine

/-! ### Memories and working states that agree on a set of addresses -/

/-- Two memories that hold the same bytes at these addresses. -/
def AgreeOn (A : Nat → Prop) (m m' : Memory) : Prop := ∀ a, A a → memRead m' a = memRead m a

/-- Two working states that agree on these addresses, and otherwise entirely. -/
structure WorkAgree (A : Nat → Prop) (w w' : Work) : Prop where
  mem : AgreeOn A w.mem w'.mem
  iv : w'.iv = w.iv
  ks : w'.ks = w.ks
  cur : w'.cur = w.cur

section agree
variable {A : Nat → Prop} {m m' : Memory} {a n : Nat}

theorem AgreeOn.memWrite (h : AgreeOn A m m') (a : Nat) (v : Byte) :
    AgreeOn A (memWrite m a v) (memWrite m' a v) := by
  intro x hx
  rw [memRead_memWrite, memRead_memWrite, h x hx]

theorem AgreeOn.writeBytes (h : AgreeOn A m m') (a : Nat) (bs : List Byte) :
    AgreeOn A (writeBytes m a bs) (writeBytes m' a bs) := by
  intro x hx
  rw [memRead_writeBytes, memRead_writeBytes, h x hx]

theorem AgreeOn.readBytes (h : AgreeOn A m m') (hA : ∀ i, i < n → A (a + i)) :
    readBytes m' a n = readBytes m a n := readBytes_congr fun i hi => h _ (hA i hi)

theorem AgreeOn.readBlock (h : AgreeOn A m m') (hA : ∀ i, i < 16 → A (a + i)) :
    readBlock m' a = readBlock m a := readBlock_congr fun i hi => h _ (hA i hi)

end agree

/-! ### Units read only their source -/

/-- A unit does the same on working states that agree on its source: nothing else of `MEM` is read. -/
def ReadsOnly (f : Nat → Nat → Work → Work) (size : Nat) : Prop :=
  ∀ (A : Nat → Prop) src dst w w', WorkAgree A w w' → (∀ i, i < size → A (src + i)) →
    WorkAgree A (f src dst w) (f src dst w')

section units
variable {e d : Block → Block} {preinc : Bool} {A : Nat → Prop} {w w' : Work}

theorem units_readsOnly {f : Nat → Nat → Work → Work} {size count src dst : Nat} (hf : ReadsOnly f size)
    (h : WorkAgree A w w') (hA : ∀ i, i < size * count → A (src + i)) :
    WorkAgree A (units f size count src dst w) (units f size count src dst w') := by
  induction count with
  | zero => exact h
  | succ count ih =>
    rw [Nat.mul_succ] at hA
    rw [units_succ_last, units_succ_last]
    refine hf A _ _ _ _ (ih fun i hi => hA i (by omega)) fun i hi => ?_
    rw [Nat.add_assoc]
    exact hA _ (by omega)

theorem ecbUnit_readsOnly : ReadsOnly (ecbUnit e) 16 := by
  intro A src dst w w' ⟨hm, hiv, hks, hcur⟩ hA
  refine ⟨?_, by simpa, by simpa, by simpa⟩
  rw [ecbUnit_mem, ecbUnit_mem, hm.readBlock hA]
  exact hm.writeBytes _ _

theorem cbcEncUnit_readsOnly : ReadsOnly (cbcEncUnit e) 16 := by
  intro A src dst w w' ⟨hm, hiv, hks, hcur⟩ hA
  refine ⟨?_, by simp [hm.readBlock hA, hiv], by simpa, by simpa⟩
  rw [cbcEncUnit_mem, cbcEncUnit_mem, hm.readBlock hA, hiv]
  exact hm.writeBytes _ _

theorem cbcDecUnit_readsOnly : ReadsOnly (cbcDecUnit d) 16 := by
  intro A src dst w w' ⟨hm, hiv, hks, hcur⟩ hA
  refine ⟨?_, by simp [hm.readBlock hA], by simpa, by simpa⟩
  rw [cbcDecUnit_mem, cbcDecUnit_mem, hm.readBlock hA, hiv]
  exact hm.writeBytes _ _

theorem WorkAgree.ctrRefill (h : WorkAgree A w w') :
    WorkAgree A (ctrRefill preinc e w) (ctrRefill preinc e w') := by
  obtain ⟨m, iv, ks, cur⟩ := w
  obtain ⟨m', iv', ks', cur'⟩ := w'
  obtain ⟨hm, rfl, rfl, rfl⟩ := h
  simp only [Machine.ctrRefill]
  split_ifs <;> exact ⟨hm, rfl, rfl, rfl⟩

theorem WorkAgree.cfbRefill (h : WorkAgree A w w') : WorkAgree A (cfbRefill e w) (cfbRefill e w') := by
  obtain ⟨m, iv, ks, cur⟩ := w
  obtain ⟨m', iv', ks', cur'⟩ := w'
  obtain ⟨hm, rfl, rfl, rfl⟩ := h
  simp only [Machine.cfbRefill]
  split_ifs <;> exact ⟨hm, rfl, rfl, rfl⟩

theorem WorkAgree.cfbFeed (h : WorkAgree A w w') (c : Byte) : WorkAgree A (cfbFeed c w) (cfbFeed c w') := by
  obtain ⟨m, iv, ks, cur⟩ := w
  obtain ⟨m', iv', ks', cur'⟩ := w'
  obtain ⟨hm, rfl, rfl, rfl⟩ := h
  simp only [Machine.cfbFeed]
  split_ifs <;> exact ⟨hm, rfl, rfl, rfl⟩

theorem WorkAgree.cfbEncEmit {src dst : Nat} (h : WorkAgree A w w')
    (hbyte : memRead w'.mem src = memRead w.mem src) :
    WorkAgree A (cfbEncEmit src dst w) (cfbEncEmit src dst w') := by
  obtain ⟨m, iv, ks, cur⟩ := w
  obtain ⟨m', iv', ks', cur'⟩ := w'
  obtain ⟨hm, rfl, rfl, rfl⟩ := h
  simp only [Machine.cfbEncEmit, hbyte]
  apply WorkAgree.cfbFeed
  exact ⟨hm.memWrite _ _, rfl, rfl, rfl⟩

theorem WorkAgree.cfbDecEmit {src dst : Nat} (h : WorkAgree A w w')
    (hbyte : memRead w'.mem src = memRead w.mem src) :
    WorkAgree A (cfbDecEmit src dst w) (cfbDecEmit src dst w') := by
  obtain ⟨m, iv, ks, cur⟩ := w
  obtain ⟨m', iv', ks', cur'⟩ := w'
  obtain ⟨hm, rfl, rfl, rfl⟩ := h
  simp only [Machine.cfbDecEmit, hbyte]
  apply WorkAgree.cfbFeed
  exact ⟨hm.memWrite _ _, rfl, rfl, rfl⟩

theorem ctrUnit_readsOnly : ReadsOnly (ctrUnit preinc e) 1 := by
  intro A src dst w w' h hA
  have hbyte : memRead w'.mem src = memRead w.mem src := h.mem src (hA 0 (by decide))
  obtain ⟨hm, hiv, hks, hcur⟩ := h.ctrRefill (preinc := preinc) (e := e)
  refine ⟨?_, hiv, hks, by simp [h.cur]⟩
  rw [ctrUnit_mem, ctrUnit_mem, hbyte, hks, h.cur]
  exact h.mem.memWrite _ _

theorem cfbEncUnit_readsOnly : ReadsOnly (cfbEncUnit e) 1 := by
  intro A src dst w w' h hA
  have hbyte : memRead w'.mem src = memRead w.mem src := h.mem src (hA 0 (by decide))
  exact h.cfbRefill.cfbEncEmit (by simpa using hbyte)

theorem cfbDecUnit_readsOnly : ReadsOnly (cfbDecUnit e) 1 := by
  intro A src dst w w' h hA
  have hbyte : memRead w'.mem src = memRead w.mem src := h.mem src (hA 0 (by decide))
  exact h.cfbRefill.cfbDecEmit (by simpa using hbyte)

theorem cryptUnit_readsOnly {dec : Bool} {p : Params} {x : Slot} {m : Mode} :
    ReadsOnly (cryptUnit dec p x m) (unitSize m) := by
  cases m with
  | ecb => cases dec <;> exact ecbUnit_readsOnly
  | cbc =>
    cases dec
    · exact cbcEncUnit_readsOnly
    · exact cbcDecUnit_readsOnly
  | ctr => exact ctrUnit_readsOnly
  | cfb =>
    cases dec
    · exact cfbEncUnit_readsOnly
    · exact cfbDecUnit_readsOnly

/-- All units of a call read only its source. -/
theorem cryptWork_readsOnly {dec : Bool} {p : Params} {x : Slot} {n src dst : Nat} (h : WorkAgree A w w')
    (hA : ∀ i, i < n → A (src + i)) :
    WorkAgree A (cryptWork dec p x n src dst w) (cryptWork dec p x n src dst w') := by
  cases hm : modeOf x.desc with
  | none => rwa [cryptWork_of_noMode hm, cryptWork_of_noMode hm]
  | some m =>
    rw [cryptWork_eq_units hm, cryptWork_eq_units hm]
    refine units_readsOnly cryptUnit_readsOnly h fun i hi => hA i (hi.trans_le ?_)
    exact Nat.mul_div_le n _

end units

/-! ### The ranges of a command -/

/-- The addresses in the ranges of a command. -/
def InRanges (i : Instr) (s : State) (a : Nat) : Prop := ∃ r ∈ commandRanges i s, r.1 ≤ a ∧ a < r.1 + r.2

/-- `s` with another `MEM`. -/
def withMem (s : State) (m : Memory) : State := { s with mem := m }

section ranges
variable {i : Instr} {s : State} {m : Memory} {k a n : Nat} {ivp : Bool}

theorem inRanges_of_mem (h : (a, n) ∈ commandRanges i s) : ∀ j, j < n → InRanges i s (a + j) :=
  fun _ hj => ⟨(a, n), h, Nat.le_add_right _ _, Nat.add_lt_add_left hj a⟩

theorem not_inRanges_iff : ¬ InRanges i s a ↔ ∀ r ∈ commandRanges i s, a < r.1 ∨ r.1 + r.2 ≤ a := by
  simp only [InRanges, not_exists, not_and]
  exact forall₂_congr fun r _ => by omega

variable (h : AgreeOn (InRanges i s) s.mem m)
include h

theorem nameOperand_withMem (hr : (s.arg0, s.arg1) ∈ commandRanges i s) :
    nameOperand (withMem s m) = nameOperand s := h.readBytes (inRanges_of_mem hr)

theorem recordOperand_withMem (hr : (s.arg0, 64) ∈ commandRanges i s) :
    recordOperand (withMem s m) = recordOperand s := h.readBytes (inRanges_of_mem hr)

theorem keyOperand_withMem (hr : (s.arg0, s.arg1 / 8) ∈ commandRanges i s) :
    keyOperand (withMem s m) = keyOperand s := h.readBytes (inRanges_of_mem hr)

theorem readBlock_withMem (hr : (a, 16) ∈ commandRanges i s) : readBlock m a = readBlock s.mem a :=
  h.readBlock (inRanges_of_mem hr)

theorem partsName_withMem (hr : (s.arg0, s.arg1) ∈ commandRanges i s) (mode : Nat) :
    partsName (withMem s m) mode = partsName s mode := by
  have hbytes := nameOperand_withMem h hr
  simp only [nameOperand] at hbytes
  simp only [partsName, hbytes]
  rfl

/-- The working states at the start agree on the ranges. -/
theorem startWork_withMem (hr : ivp = true → (s.arg3, 16) ∈ commandRanges i s) :
    WorkAgree (InRanges i s) (startWork s k ivp) (startWork (withMem s m) k ivp) := by
  cases ivp with
  | false => exact ⟨h, rfl, rfl, rfl⟩
  | true => exact ⟨h, readBlock_withMem h (hr rfl), rfl, rfl⟩

end ranges

/-! ### A command on another `MEM` -/

section command
variable {i : Instr} {s : State} {m : Memory}

/-- The ranges of ENCRYPT and DECRYPT hold the source, and the override IV when there is one. -/
theorem cryptRanges (dec : Bool) (s : State) (k : Nat) (ivp : Bool) :
    (s.arg0, s.arg2) ∈ commandRanges (cryptCommand dec k ivp) s ∧
      (s.arg1, s.arg2) ∈ commandRanges (cryptCommand dec k ivp) s ∧
      (ivp = true → (s.arg3, 16) ∈ commandRanges (cryptCommand dec k ivp) s) := by
  cases dec <;> cases ivp <;> simp [cryptCommand, commandRanges]

theorem cryptEnd_withMem {dec ivp : Bool} {k : Nat}
    (h : AgreeOn (InRanges (cryptCommand dec k ivp) s) s.mem m) :
    WorkAgree (InRanges (cryptCommand dec k ivp) s) (cryptEnd dec s k ivp)
      (cryptEnd dec (withMem s m) k ivp) := by
  obtain ⟨hsrc, -, hiv⟩ := cryptRanges dec s k ivp
  exact cryptWork_readsOnly (startWork_withMem h hiv) (inRanges_of_mem hsrc)

theorem commitSlot_eq_of_agree {A : Nat → Prop} {w w' : Work} (h : WorkAgree A w w') (x : Slot) :
    commitSlot x w' = commitSlot x w := by rw [commitSlot, h.iv, h.ks, h.cur, commitSlot]

theorem slotWritten_cryptCommand_withMem {dec ivp : Bool} {k : Nat}
    (h : AgreeOn (InRanges (cryptCommand dec k ivp) s) s.mem m) :
    slotWritten (cryptCommand dec k ivp) (withMem s m) = slotWritten (cryptCommand dec k ivp) s := by
  cases ivp with
  | true => rw [slotWritten_cryptCommand_override, slotWritten_cryptCommand_override]
  | false =>
    rw [slotWritten_cryptCommand, slotWritten_cryptCommand, ← commitSlot_eq_of_agree (cryptEnd_withMem h)]
    rfl

/-- No command reads a byte of `MEM` outside its ranges to choose what it writes. -/
theorem memAfter_withMem (h : AgreeOn (InRanges i s) s.mem m) :
    AgreeOn (InRanges i s) (memAfter i s) (memAfter i (withMem s m)) := by
  cases i with
  | resolve =>
    have hname := nameOperand_withMem h List.mem_cons_self
    simp only [memAfter, resolveIndex, hname]
    exact h.writeBytes _ _
  | encrypt k ivp => exact (cryptEnd_withMem (dec := false) h).mem
  | decrypt k ivp => exact (cryptEnd_withMem (dec := true) h).mem
  | getName | getAlgName | getIv => exact h.writeBytes _ _
  | _ => exact h

variable (h : AgreeOn (InRanges i s) s.mem m)
include h

theorem checksOf_withMem : checksOf i (withMem s m) = checksOf i s := by
  cases i with
  | register =>
    have hrecord := recordOperand_withMem h List.mem_cons_self
    simp only [checksOf, registerChecks, hrecord]
    rfl
  | unregister | resolve | alloc =>
    have hname := nameOperand_withMem h List.mem_cons_self
    simp only [checksOf, unregisterChecks, resolveChecks, allocChecks, hname]
    rfl
  | allocParts mode =>
    have hparts := partsName_withMem h List.mem_cons_self mode
    simp only [checksOf, allocPartsChecks, hparts]
    rfl
  | _ => rfl

theorem registryAfter_withMem : registryAfter i (withMem s m) = registryAfter i s := by
  cases i with
  | register =>
    have hrecord := recordOperand_withMem h List.mem_cons_self
    simp only [registryAfter, hrecord]
    rfl
  | unregister =>
    have hname := nameOperand_withMem h List.mem_cons_self
    simp only [registryAfter, hname]
    rfl
  | _ => rfl

theorem valueOf_withMem : valueOf i (withMem s m) = valueOf i s := by
  cases i with
  | register =>
    have hrecord := recordOperand_withMem h List.mem_cons_self
    simp only [valueOf, hrecord]
    rfl
  | resolve =>
    have hname := nameOperand_withMem h List.mem_cons_self
    simp only [valueOf, resolveIndex, hname]
    rfl
  | _ => rfl

theorem slotWritten_withMem : slotWritten i (withMem s m) = slotWritten i s := by
  cases i with
  | alloc =>
    have hname := nameOperand_withMem h List.mem_cons_self
    simp only [slotWritten, hname]
    rfl
  | allocParts mode =>
    have hparts := partsName_withMem h List.mem_cons_self mode
    simp only [slotWritten, hparts]
    rfl
  | setKey k dir =>
    have hkey := keyOperand_withMem h List.mem_cons_self
    simp only [slotWritten, hkey]
    rfl
  | setIv k ivp =>
    cases ivp with
    | false => rfl
    | true =>
      have hblock : readBlock m s.arg0 = readBlock s.mem s.arg0 := readBlock_withMem h List.mem_cons_self
      exact congrArg (fun iv => some (k, seededSlot (s.slot k) true iv)) hblock
  | pokeIv k =>
    have hblock : readBlock m s.arg0 = readBlock s.mem s.arg0 := readBlock_withMem h List.mem_cons_self
    exact congrArg (fun iv => some (k, { s.slot k with iv := iv })) hblock
  | encrypt k ivp => exact slotWritten_cryptCommand_withMem (dec := false) h
  | decrypt k ivp => exact slotWritten_cryptCommand_withMem (dec := true) h
  | _ => rfl

theorem slotsAfter_withMem : slotsAfter i (withMem s m) = slotsAfter i s := by
  rw [slotsAfter, slotWritten_withMem h, slotsAfter]
  rfl

end command

/-! ### What a command leaves outside its ranges -/

section frame
variable {i : Instr} {s : State} {a : Nat}

/-- The entry that RESOLVE writes has a record of 64 bytes. -/
theorem recordBytes_entry_length (hlegal : ∀ d ∈ s.registry, DescriptorLegal d) (n : Nat) :
    (recordBytes (s.entry n)).length = 64 := by
  rcases Nat.lt_or_ge n s.registry.length with hn | hn
  · obtain ⟨⟨-, hname⟩, ⟨-, halg⟩, -⟩ := hlegal _ (List.getElem_mem hn)
    rw [State.entry, List.getD_eq_getElem _ _ hn]
    exact recordBytes_length hname halg
  · rw [State.entry, List.getD_eq_default _ _ hn]
    rfl

/-- An effect writes no byte outside the ranges of its command (20_memory.md R63). -/
theorem memAfter_outside (hlegal : ∀ d ∈ s.registry, DescriptorLegal d) (ha : ¬ InRanges i s a) :
    memRead (memAfter i s) a = memRead s.mem a := by
  rw [not_inRanges_iff] at ha
  have hcrypt (dec ivp : Bool) (k : Nat)
      (ha : ∀ r ∈ commandRanges (cryptCommand dec k ivp) s, a < r.1 ∨ r.1 + r.2 ≤ a) :
      memRead (cryptEnd dec s k ivp).mem a = memRead s.mem a := by
    obtain ⟨-, hdst, -⟩ := cryptRanges dec s k ivp
    exact cryptEnd_outside (ha _ hdst)
  cases i with
  | resolve =>
    have hout := ha (s.arg2, 64) (by simp [commandRanges])
    exact memRead_writeBytes_outside _ (by rwa [recordBytes_entry_length hlegal])
  | encrypt k ivp => exact hcrypt false ivp k ha
  | decrypt k ivp => exact hcrypt true ivp k ha
  | getName | getAlgName | getIv => exact memRead_writeBytes_outside _ (ha _ List.mem_cons_self)
  | _ => rfl

end frame

/-- Two runs of a command on memories that agree on its ranges. -/
theorem exec_withMem {i : Instr} {s : State} {m : Memory} (hlegal : ∀ d ∈ s.registry, DescriptorLegal d)
    (h : AgreeOn (InRanges i s) s.mem m) : ∃ t t', exec i s = .next t ∧ exec i (withMem s m) = .next t' ∧
      t'.window = t.window ∧ t'.registry = t.registry ∧ t'.slots = t.slots ∧
      AgreeOn (InRanges i s) t.mem t'.mem ∧ ∀ a, ¬ InRanges i s a → memRead t'.mem a = memRead m a := by
  have hchecks := congrArg firstFailure (checksOf_withMem h)
  cases hf : firstFailure (checksOf i s) with
  | some e => exact ⟨_, _, exec_error hf, exec_error (hchecks.trans hf), rfl, rfl, rfl, h, fun _ _ => rfl⟩
  | none =>
    have hrun := exec_ok (hchecks.trans hf)
    rw [valueOf_withMem h] at hrun
    have hranges : commandRanges i (withMem s m) = commandRanges i s := by cases i <;> rfl
    refine ⟨_, _, exec_ok hf, hrun, rfl, registryAfter_withMem h, slotsAfter_withMem h, memAfter_withMem h,
      fun a ha => memAfter_outside hlegal ?_⟩
    rwa [InRanges, hranges]

/-- Settles O57: the effect of a command writes only in its ranges, and its checks, its effect and its value
read only there. -/
theorem commandsStayInTheirRanges : Obligations.CommandsStayInTheirRanges := by
  refine ⟨fun i s hinv => ⟨fun t a ht hne => ?_, fun m hm => ?_⟩, fun s k m dir => ?_⟩
  · by_contra hout
    rcases exec_cases ht with ⟨e, -, rfl⟩ | ⟨-, rfl⟩
    · exact hne rfl
    · exact hne (memAfter_outside hinv.registryLegal hout)
  · obtain ⟨t, t', ht, ht', hwindow, hreg, hslots, hagree, hrest⟩ :=
      exec_withMem (i := i) (m := m) hinv.registryLegal fun a ⟨r, hr, hlow, hhigh⟩ => hm r hr a hlow hhigh
    exact ⟨t, t', ht, ht', hwindow, hreg, hslots, fun r hr a hlow hhigh => hagree a ⟨r, hr, hlow, hhigh⟩,
      fun a ha => hrest a (not_inRanges_iff.mpr ha)⟩
  · simp [commandRanges]

end Sys2Proof.Machine
end

section
/-! The invariant of the machine: it holds after a reset, and every step of the engine and of the host keeps
it (10_state.md R22 to R49). -/

namespace Sys2Proof.Machine

/-! ### The two parts of the invariant -/

/-- What the invariant says of the parameters, the slots, the registry and `MEM`. -/
structure Stored (s : State) : Prop where
  params : s.params.Legal
  slotCount : s.slots.length = s.params.nslots
  slots : ∀ x ∈ s.slots, SlotInv x
  registrySize : s.registry.length ≤ s.params.regMax
  registryNames : s.registry.Pairwise (fun d e => d.name ≠ e.name)
  registryLegal : ∀ d ∈ s.registry, DescriptorLegal d
  memForm : s.mem.wf
  memInside : s.mem.Inside s.params.memSize

/-- What the invariant says of the window, the latched word and the host's record. -/
structure Shown (w : Window) (latched : Word) (doneRead : Bool) : Prop where
  errFlag : w.status.err = decide (w.status.errcode ≠ .ok)
  busyDone : ¬(w.status.busy = true ∧ w.status.done = true)
  busyQuiet : w.status.busy = true → w.status.errcode = .ok ∧ w.result = 0
  errorResult : w.status.errcode ≠ .ok → w.result = 0
  cmdLatched : w.cmd = latched
  doneReadIdle : doneRead = true → w.status.busy = false

section parts
variable {s t : State}

theorem Inv.stored (h : Inv s) : Stored s :=
  ⟨h.params, h.slotCount, h.slots, h.registrySize, h.registryNames, h.registryLegal, h.memForm, h.memInside⟩

theorem Inv.shown (h : Inv s) : Shown s.window s.latch.cmd s.host.doneRead :=
  ⟨h.errFlag, h.busyDone, h.busyQuiet, h.errorResult, h.cmdLatched, h.doneReadIdle⟩

theorem Stored.inv (h : Stored s) (h' : Shown s.window s.latch.cmd s.host.doneRead) : Inv s :=
  ⟨h.params, h.slotCount, h.slots, h.registrySize, h.registryNames, h.registryLegal, h.memForm, h.memInside,
    h'.errFlag, h'.busyDone, h'.busyQuiet, h'.errorResult, h'.cmdLatched, h'.doneReadIdle⟩

/-- The stored part is of these four fields alone. -/
theorem Stored.of_eq (h : Stored s) (hparams : t.params = s.params) (hslots : t.slots = s.slots)
    (hregistry : t.registry = s.registry) (hmem : t.mem = s.mem) : Stored t := by
  obtain ⟨hp, hc, hs, hz, hn, hl, hf, hi⟩ := h
  constructor <;> simpa only [hparams, hslots, hregistry, hmem]

/-- A state that keeps what is stored and shows a window in order. -/
theorem Stored.inv_of_shown (h : Stored s) (h' : Shown t.window t.latch.cmd t.host.doneRead)
    (hkept : t.params = s.params ∧ t.slots = s.slots ∧ t.registry = s.registry ∧ t.mem = s.mem) :
    Inv t := by
  obtain ⟨hparams, hslots, hregistry, hmem⟩ := hkept
  exact (h.of_eq hparams hslots hregistry hmem).inv h'

/-- A completion leaves a window in order. -/
theorem shown_complete (e : ErrCode) (v : Word) (hcmd : s.window.cmd = s.latch.cmd) :
    Shown (s.complete e v).window (s.complete e v).latch.cmd (s.complete e v).host.doneRead where
  errFlag := rfl
  busyDone := by simp
  busyQuiet := by simp
  errorResult h := if_neg h
  cmdLatched := hcmd
  doneReadIdle _ := rfl

end parts

/-! ### The reset state -/

section reset

theorem builtins_legal : ∀ d ∈ builtins, DescriptorLegal d := by
  intro d hd
  have hall : ∀ d ∈ builtins, (1 ≤ d.name.length ∧ d.name.length ≤ Config.nameMax) ∧
      (1 ≤ d.algName.length ∧ d.algName.length ≤ Config.algNameMax) ∧ (modeOf d).isSome = true ∧
      d.impl = implAes ∧ isKeyBits d.keyBits.toNat = true ∧ d.blockLen = 16 := by decide
  obtain ⟨hname, halg, hmode, himpl, hkey, hblock⟩ := hall d hd
  exact ⟨hname, halg, hmode, himpl, hkey, hblock⟩

theorem inside_nil (draw n : Nat) : Memory.Inside ⟨draw, []⟩ n := by simp [Memory.Inside]

theorem slotInv_zero : SlotInv Slot.zero := rfl

/-- A reset state with legal parameters and any `MEM` in order. -/
theorem stored_reset {s : State} (hparams : s.params.Legal)
    (hslots : s.slots = List.replicate s.params.nslots Slot.zero) (hregistry : s.registry = builtins)
    (hform : s.mem.wf) (hinside : s.mem.Inside s.params.memSize) : Stored s where
  params := hparams
  slotCount := by rw [hslots, List.length_replicate]
  slots x hx := by
    rw [hslots] at hx
    rw [List.eq_of_mem_replicate hx]
    exact slotInv_zero
  registrySize := by
    obtain ⟨-, ⟨hreg, -⟩, -⟩ := hparams
    rw [hregistry]
    exact hreg
  registryNames := by
    rw [hregistry]
    decide
  registryLegal := by
    rw [hregistry]
    exact builtins_legal
  memForm := hform
  memInside := hinside

theorem shown_zero (doneRead : Bool) : Shown Window.zero 0 doneRead where
  errFlag := rfl
  busyDone := by simp [Window.zero, Status.zero]
  busyQuiet := nofun
  errorResult _ := rfl
  cmdLatched := rfl
  doneReadIdle _ := rfl

end reset

/-- Settles O60. -/
theorem resetStateIsAsGiven : Obligations.ResetStateIsAsGiven := by
  intro p hp
  have hkinds : builtins.map (fun d => (d.keyBits.toNat, d.mode.toNat)) =
      [(256, 2), (192, 2), (128, 2), (256, 3), (192, 3), (128, 3), (256, 4), (192, 4), (128, 4),
       (256, 1), (192, 1), (128, 1)] := by decide
  refine ⟨(stored_reset hp rfl rfl List.Pairwise.nil (inside_nil 0 _)).inv (shown_zero true), rfl, rfl, rfl,
    hkinds, ?_, rfl⟩
  have hall : ∀ d ∈ builtins, (d.algName = [0x61, 0x65, 0x73] ∧ d.impl = 1 ∧ d.blockLen = 16) ∧
      ∃ m ∈ [Mode.ecb, .cbc, .ctr, .cfb], modeOf d = some m ∧
        d.name = [0x61, 0x65, 0x73, 0x2d] ++ decimal d.keyBits.toNat ++ [0x2d] ++ modeName m := by decide
  intro d hd
  obtain ⟨⟨halg, himpl, hblock⟩, m, -, hmode, hname⟩ := hall d hd
  exact ⟨halg, himpl, hblock, m, hmode, hname⟩

/-! ### The slots after a command -/

section slots
variable {i : Instr} {s : State} {k : Nat} {x : Slot}

theorem slotInv_iff_of_alloc (h : x.alloc = true) : SlotInv x ↔ SlotAllocated x := by
  rw [SlotInv, if_pos h]

/-- An allocated slot of a state with the invariant. -/
theorem Stored.slotAllocated (h : Stored s) (halloc : (s.slot k).alloc = true) :
    SlotAllocated (s.slot k) := by
  rw [← slotInv_iff_of_alloc halloc]
  have hk := lt_slots_of_alloc halloc
  exact h.slots _ (slot_getElem hk ▸ List.getElem_mem hk)

/-- A slot that is not allocated is all zero (10_state.md R47). -/
theorem Stored.slot_zero (h : Stored s) (hfree : (s.slot k).alloc = false) : s.slot k = Slot.zero := by
  rcases Nat.lt_or_ge k s.slots.length with hk | hk
  · have hinv := h.slots _ (List.getElem_mem hk)
    rw [← slot_getElem hk, SlotInv, hfree] at hinv
    exact hinv
  · exact List.getD_eq_default _ _ hk

theorem slotInv_of_allocated (h : SlotAllocated x) (halloc : x.alloc = true) : SlotInv x :=
  (slotInv_iff_of_alloc halloc).mpr h

theorem slotInv_freshSlot {d : Descriptor} (h : DescriptorLegal d) : SlotInv (freshSlot d) :=
  slotInv_of_allocated
    ⟨h, fun _ => ⟨⟨rfl, rfl, rfl, rfl⟩, rfl, rfl⟩, nofun, nofun, fun _ => ⟨rfl, rfl⟩⟩ rfl

/-- SETKEY leaves the schedule of a key of the descriptor's length (10_state.md R43,
43_instance.md R237). -/
theorem slotAllocated_keyedSlot (h : SlotAllocated x) (dir : Bool) {key : List Byte}
    (hkey : 8 * key.length = x.desc.keyBits.toNat) (hnr : keyNr key < 16) :
    SlotAllocated (keyedSlot x dir key) :=
  ⟨h.desc, nofun, fun _ => ⟨key, hkey, Nat.mod_eq_of_lt hnr, rfl⟩, fun _ => rfl, fun _ => ⟨rfl, rfl⟩⟩

theorem slotAllocated_seededSlot (h : SlotAllocated x) (ivp : Bool) (iv : Block) :
    SlotAllocated (seededSlot x ivp iv) := by
  obtain ⟨hdesc, hunkeyed, hkeyed, horientation, hcursor⟩ := h
  refine ⟨hdesc, fun hx => ?_, hkeyed, horientation, fun hb => ?_⟩
  · obtain ⟨hschedule, -, hks⟩ := hunkeyed hx
    exact ⟨hschedule, rfl, hks⟩
  · obtain ⟨-, hks⟩ := hcursor hb
    exact ⟨rfl, hks⟩

theorem slotAllocated_pokedSlot (h : SlotAllocated x) (iv : Block) : SlotAllocated { x with iv := iv } :=
  ⟨h.desc, h.unkeyed, h.keyed, h.orientation, h.cursor⟩

/-- A commit on a Keyed slot, whose block modes leave the cursor and the keystream alone
(10_state.md R45, R46). -/
theorem slotAllocated_commitSlot {w : Work} (h : SlotAllocated x) (hkeyed : x.keyed = true)
    (hblock : isBlockMode x.desc = true → w.cur = x.cur ∧ w.ks = x.ks) :
    SlotAllocated (commitSlot x w) := by
  refine ⟨h.desc, fun hx => ?_, h.keyed, h.orientation, fun hb => ?_⟩
  · exact absurd (hkeyed.symm.trans hx) (by decide)
  · obtain ⟨hcur, hks⟩ := hblock hb
    rw [commitSlot, hcur, hks]
    exact h.cursor hb

theorem cryptWork_blockMode {dec : Bool} {p : Params} {n src dst : Nat} {w : Work}
    (hb : isBlockMode x.desc = true) :
    (cryptWork dec p x n src dst w).cur = w.cur ∧ (cryptWork dec p x n src dst w).ks = w.ks := by
  rcases isBlockMode_iff.mp hb with hm | hm <;> rw [cryptWork_eq_units hm]
  · have hecb (e : Block → Block) (count : Nat) : (units (ecbUnit e) 16 count src dst w).cur = w.cur ∧
        (units (ecbUnit e) 16 count src dst w).ks = w.ks := by
      obtain ⟨-, hks, hcur⟩ := units_ecb_triple (e := e) (count := count) (src := src) (dst := dst) (w := w)
      exact ⟨hcur, hks⟩
    cases dec <;> exact hecb _ _
  · cases dec
    · exact units_cbcEnc_held.symm
    · exact units_cbcDec_held.symm

end slots

/-! ### Checks that have passed -/

section passed
variable {s : State} {k : Nat} {l : List (Bool × ErrCode)} {reg : List Descriptor} {x : List Byte}

theorem firstFailure_append_none {l' : List (Bool × ErrCode)} :
    firstFailure (l ++ l') = none ↔ firstFailure l = none ∧ firstFailure l' = none := by
  rw [firstFailure_append, Option.or_eq_none_iff]

theorem firstFailure_cons_none {bad : Bool} {e : ErrCode} :
    firstFailure ((bad, e) :: l) = none ↔ bad = false ∧ firstFailure l = none := by
  cases bad <;> simp [firstFailure]

theorem live_of_checks (h : firstFailure (slotChecks s k ++ l) = none) : Live s k :=
  slotChecks_none_iff.mp (firstFailure_append_none.mp h).1

/-- An entry that was found is in the registry. -/
theorem entry_mem_of_found (h : (findName s.registry x).isNone = false) :
    s.entry (indexOr0 (findName s.registry x)) ∈ s.registry := by
  cases hfind : findName s.registry x with
  | none => simp [hfind] at h
  | some i =>
    obtain ⟨hi, -⟩ := findName_some hfind
    rw [indexOr0, Option.getD_some, State.entry, List.getD_eq_getElem _ _ hi]
    exact List.getElem_mem hi

/-- What the checks of ALLOC establish (43_instance.md R230). -/
theorem alloc_passed (h : firstFailure (allocChecks s) = none) :
    (findName s.registry (nameOperand s)).isNone = false := by
  rw [allocChecks, firstFailure_append_none, firstFailure_cons_none] at h
  obtain ⟨-, hfound, -⟩ := h
  exact hfound

/-- What the checks of ALLOC_PARTS establish (43_instance.md R232). -/
theorem allocParts_passed {mode : Nat} (h : firstFailure (allocPartsChecks s mode) = none) :
    (findName s.registry (partsName s mode)).isNone = false := by
  simp only [allocPartsChecks, firstFailure_cons_none] at h
  obtain ⟨-, -, -, -, hfound, -⟩ := h
  exact hfound

/-- What the checks of SETKEY establish (43_instance.md R236). -/
theorem setKey_passed (h : firstFailure (setKeyChecks s k) = none) :
    Live s k ∧ KeyBitsLegal s.arg1 ∧ s.arg1 = (s.slot k).desc.keyBits.toNat := by
  refine ⟨live_of_checks h, ?_⟩
  rw [setKeyChecks, firstFailure_append_none, firstFailure_cons_none] at h
  obtain ⟨-, hkey, -⟩ := h
  simpa [isKeyBits_iff] using hkey

/-- What the checks of ENCRYPT and DECRYPT establish (41_mode_layer.md R173). -/
theorem crypt_passed {ivp wrong : Bool} (h : firstFailure (cryptChecks s k ivp wrong) = none) :
    Live s k ∧ (s.slot k).keyed = true ∧ RangeOk s s.arg1 s.arg2 := by
  refine ⟨live_of_checks h, ?_⟩
  simp only [cryptChecks, firstFailure_append_none, firstFailure_cons_none] at h
  obtain ⟨-, hkeyed, -, -, hranges, -⟩ := h
  rw [Bool.or_eq_false_iff, outOfRange_false_iff, outOfRange_false_iff] at hranges
  exact ⟨by simpa using hkeyed, hranges.2⟩

/-- A descriptor of a record that passed `validate` is legal (42_registry.md R212). -/
theorem descriptorLegal_of_record {rec : List Byte} (hlen : rec.length = 64)
    (h : firstFailure (recordChecks rec) = none) : DescriptorLegal (descriptorOfRecord rec) := by
  simp only [recordChecks, firstFailure_cons_none, Bool.or_eq_false_iff, modeOfCode_isNone] at h
  obtain ⟨⟨hname, halg⟩, hmode, -, hkey, -, -⟩ := h
  rw [← Bool.not_eq_true, badNameLength_iff, not_not] at hname halg
  rw [Bool.not_eq_false', decide_eq_true_iff] at hmode
  rw [Bool.not_eq_false', isKeyBits_iff] at hkey
  simp only [Config.nameMax, Config.algNameMax] at hname halg
  refine ⟨?_, ?_, ?_, rfl, ?_, rfl⟩
  · simp only [descriptorOfRecord, List.length_take, List.length_drop, hlen, Config.nameMax]
    omega
  · simp only [descriptorOfRecord, List.length_take, List.length_drop, hlen, Config.algNameMax]
    omega
  · rw [modeOf, ← Option.not_isNone, modeOfCode_isNone]
    simp only [descriptorOfRecord, BitVec.toNat_ofNat, Bool.not_not, decide_eq_true_iff]
    omega
  · rw [isKeyBits_iff]
    simp only [descriptorOfRecord, BitVec.toNat_ofNat, KeyBitsLegal] at hkey ⊢
    omega

/-- What the checks of REGISTER establish (42_registry.md R210). -/
theorem register_passed (h : firstFailure (registerChecks s) = none) :
    DescriptorLegal (descriptorOfRecord (recordOperand s)) ∧
      (findName s.registry (descriptorOfRecord (recordOperand s)).name = none →
        s.registry.length ≠ s.params.regMax) := by
  simp only [registerChecks, List.cons_append, firstFailure_cons_none, firstFailure_append_none] at h
  obtain ⟨-, hrecord, hroom, -⟩ := h
  refine ⟨descriptorLegal_of_record (readBytes_length _ _ _) hrecord, fun hnone => ?_⟩
  simpa [hnone] using hroom

end passed

/-! ### The effect of a command -/

section effect
variable {i : Instr} {s : State}

/-- The registry stays within its size, with unique names and legal descriptors (10_state.md R33, R36). -/
structure RegistryOk (p : Params) (reg : List Descriptor) : Prop where
  size : reg.length ≤ p.regMax
  names : reg.Pairwise (fun d e => d.name ≠ e.name)
  legal : ∀ d ∈ reg, DescriptorLegal d

theorem RegistryOk.of_sublist {p : Params} {reg reg' : List Descriptor} (h : RegistryOk p reg)
    (hsub : reg'.Sublist reg) : RegistryOk p reg' :=
  ⟨hsub.length_le.trans h.size, h.names.sublist hsub, fun d hd => h.legal d (hsub.subset hd)⟩

/-- The entry of the name goes and the descriptor comes (42_registry.md R210, R213). -/
theorem RegistryOk.registered {p : Params} {reg : List Descriptor} {d : Descriptor} (h : RegistryOk p reg)
    (hd : DescriptorLegal d) (hroom : findName reg d.name = none → reg.length ≠ p.regMax) :
    RegistryOk p (registered reg d) := by
  have hrest := h.of_sublist (removeFound_sublist reg (findName reg d.name))
  obtain ⟨hsize, hnames, hlegal⟩ := h
  refine ⟨?_, ?_, fun e he => ?_⟩
  · rw [Machine.registered, List.length_append, List.length_singleton]
    cases hfind : findName reg d.name with
    | none =>
      have := hroom hfind
      rw [removeFound]
      omega
    | some i =>
      obtain ⟨hi, -⟩ := findName_some hfind
      rw [removeFound, List.length_eraseIdx_of_lt hi]
      omega
  · rw [Machine.registered, List.pairwise_append]
    refine ⟨hrest.names, List.pairwise_singleton _ _, fun a ha b hb => ?_⟩
    rw [removeFound_findName hnames] at ha
    rw [List.mem_singleton.mp hb]
    simpa using (List.mem_filter.mp ha).2
  · rcases List.mem_append.mp he with he | he
    · exact hrest.legal e he
    · rwa [List.mem_singleton.mp he]

theorem registryAfter_ok (h : Stored s) (hok : firstFailure (checksOf i s) = none) :
    RegistryOk s.params (registryAfter i s) := by
  have hreg : RegistryOk s.params s.registry := ⟨h.registrySize, h.registryNames, h.registryLegal⟩
  cases i with
  | register =>
    obtain ⟨hlegal, hroom⟩ := register_passed hok
    exact hreg.registered hlegal hroom
  | unregister => exact hreg.of_sublist (removeFound_sublist _ _)
  | unregisterAll => exact hreg.of_sublist (List.nil_sublist _)
  | _ => exact hreg

theorem slotInv_cryptCommand {dec ivp : Bool} {k : Nat} (h : Stored s)
    (hok : firstFailure (checksOf (cryptCommand dec k ivp) s) = none) :
    ∀ p ∈ slotWritten (cryptCommand dec k ivp) s, SlotInv p.2 := by
  rw [checksOf_cryptCommand] at hok
  obtain ⟨⟨-, halloc⟩, hkeyed, -⟩ := crypt_passed hok
  cases ivp with
  | true => simp [slotWritten_cryptCommand_override]
  | false =>
    rw [slotWritten_cryptCommand]
    rintro p hp
    cases hp
    exact slotInv_of_allocated (slotAllocated_commitSlot (h.slotAllocated halloc) hkeyed
      fun hb => cryptWork_blockMode hb) halloc

/-- A slot that a command writes is in order. -/
theorem slotInv_slotWritten (h : Stored s) (hok : firstFailure (checksOf i s) = none) :
    ∀ p ∈ slotWritten i s, SlotInv p.2 := by
  cases i with
  | alloc =>
    rintro p hp
    cases hp
    exact slotInv_freshSlot (h.registryLegal _ (entry_mem_of_found (alloc_passed hok)))
  | allocParts mode =>
    rintro p hp
    cases hp
    exact slotInv_freshSlot (h.registryLegal _ (entry_mem_of_found (allocParts_passed hok)))
  | free k =>
    rintro p hp
    cases hp
    exact slotInv_zero
  | setKey k dir =>
    rintro p hp
    cases hp
    obtain ⟨⟨-, halloc⟩, hbits, hdesc⟩ := setKey_passed hok
    have hlen : (keyOperand s).length = s.arg1 / 8 := readBytes_length _ _ _
    refine slotInv_of_allocated (slotAllocated_keyedSlot (h.slotAllocated halloc) dir ?_ ?_) halloc
    · rw [hlen, ← hdesc]
      rcases hbits with hb | hb | hb <;> rw [hb]
    · rw [keyNr, keyNk, hlen]
      rcases hbits with hb | hb | hb <;> rw [hb] <;> decide
  | setIv k ivp =>
    rintro p hp
    cases hp
    obtain ⟨-, halloc⟩ := live_of_checks hok
    exact slotInv_of_allocated (slotAllocated_seededSlot (h.slotAllocated halloc) _ _) halloc
  | pokeIv k =>
    rintro p hp
    cases hp
    obtain ⟨-, halloc⟩ := live_of_checks hok
    exact slotInv_of_allocated (slotAllocated_pokedSlot (h.slotAllocated halloc) _) halloc
  | encrypt k ivp => exact slotInv_cryptCommand (dec := false) (ivp := ivp) (k := k) h hok
  | decrypt k ivp => exact slotInv_cryptCommand (dec := true) (ivp := ivp) (k := k) h hok
  | _ =>
    rintro p hp
    cases hp

theorem slotInv_slotsAfter (h : Stored s) (hok : firstFailure (checksOf i s) = none) :
    ∀ x ∈ slotsAfter i s, SlotInv x := by
  intro x hx
  rw [slotsAfter] at hx
  cases hw : slotWritten i s with
  | none => exact h.slots x (by rwa [hw] at hx)
  | some p =>
    rw [hw] at hx
    rcases List.mem_or_eq_of_mem_set hx with hx | rfl
    · exact h.slots x hx
    · exact slotInv_slotWritten h hok p hw

/-- `MEM` keeps its form and is written only where it exists (20_memory.md R61). -/
theorem memAfter_ok (h : Stored s) (hok : firstFailure (checksOf i s) = none) :
    (memAfter i s).wf ∧ (memAfter i s).Inside s.params.memSize := by
  have hwrite {a : Nat} {bs : List Byte} (hrange : bs.length = 0 ∨ a + bs.length ≤ s.params.memSize) :
      (writeBytes s.mem a bs).wf ∧ (writeBytes s.mem a bs).Inside s.params.memSize :=
    ⟨writeBytes_wf _ _ h.memForm,
      writeBytes_inside h.memInside (hrange.imp_left List.length_eq_zero_iff.mp)⟩
  have hlast {a n k : Nat} (hc : firstFailure (slotChecks s k ++ [(outOfRange s a n, .memRange)]) = none) :
      n = 0 ∨ a + n ≤ s.params.memSize := by
    rw [firstFailure_append_none, firstFailure_cons_none] at hc
    obtain ⟨-, hrange, -⟩ := hc
    exact outOfRange_false_iff.mp hrange
  cases i with
  | resolve =>
    have hlength := recordBytes_entry_length h.registryLegal (resolveIndex s)
    rw [checksOf, resolveChecks, firstFailure_append_none, firstFailure_cons_none] at hok
    obtain ⟨-, hrange, -⟩ := hok
    exact hwrite (by rwa [hlength, ← outOfRange_false_iff])
  | encrypt k ivp =>
    obtain ⟨-, -, hrange⟩ := crypt_passed hok
    exact ⟨encryptWork_wf _ _ _ _ _ _ (by simpa using h.memForm),
      encryptWork_inside _ _ _ _ _ _ hrange (by simpa using h.memInside)⟩
  | decrypt k ivp =>
    obtain ⟨-, -, hrange⟩ := crypt_passed hok
    exact ⟨decryptWork_wf _ _ _ _ _ _ (by simpa using h.memForm),
      decryptWork_inside _ _ _ _ _ _ hrange (by simpa using h.memInside)⟩
  | getName k | getAlgName k | getIv k => exact hwrite (hlast hok)
  | _ => exact ⟨h.memForm, h.memInside⟩

theorem stored_effectOf (h : Stored s) (hok : firstFailure (checksOf i s) = none) :
    Stored (effectOf i s) := by
  obtain ⟨hsize, hnames, hlegal⟩ := registryAfter_ok h hok
  obtain ⟨hform, hinside⟩ := memAfter_ok h hok
  exact ⟨h.params, (slotsAfter_length i s).trans h.slotCount, slotInv_slotsAfter h hok, hsize, hnames,
    hlegal, hform, hinside⟩

end effect

/-! ### Every step -/

section steps
variable {s t : State} {i : Instr} {act : HostAction} {v : Word}

theorem inv_complete (h : Stored s) (hcmd : s.window.cmd = s.latch.cmd) (e : ErrCode) (v : Word) :
    Inv (s.complete e v) := h.inv_of_shown (shown_complete e v hcmd) ⟨rfl, rfl, rfl, rfl⟩

theorem exec_keeps_inv (h : Inv s) (hexec : exec i s = .next t) : Inv t ∧ t.params = s.params := by
  rcases exec_cases hexec with ⟨e, -, rfl⟩ | ⟨hok, rfl⟩
  · exact ⟨inv_complete h.stored h.cmdLatched e 0, rfl⟩
  · exact ⟨inv_complete (stored_effectOf h.stored hok) h.cmdLatched _ _, rfl⟩

/-- Acceptance shows the latched word, no outcome, and nothing read of the new command (10_state.md R22). -/
theorem writeCmd_keeps_inv (h : Inv s) : Inv (writeCmd s v) := by
  cases hbusy : s.window.status.busy with
  | true =>
    rw [writeCmd_busy hbusy]
    obtain ⟨herr, hdone, hquiet, hresult, hcmd, hread⟩ := h.shown
    exact h.stored.inv_of_shown ⟨herr, hdone, hquiet, hresult, hcmd, hread⟩ ⟨rfl, rfl, rfl, rfl⟩
  | false =>
    rw [writeCmd_idle hbusy]
    refine h.stored.inv_of_shown ⟨rfl, ?_, fun _ => ⟨rfl, rfl⟩, fun _ => rfl, rfl, ?_⟩ ⟨rfl, rfl, rfl, rfl⟩
    · rintro ⟨-, hdone⟩
      cases hdone
    · rintro hread
      cases hread

theorem writeCtrl_keeps_inv (h : Inv s) : Inv (writeCtrl s v) := by
  unfold writeCtrl
  split_ifs
  · exact Stored.inv (stored_reset h.params rfl rfl h.memForm h.memInside) (shown_zero _)
  · obtain ⟨herr, hdone, hquiet, hresult, hcmd, hread⟩ := h.shown
    exact h.stored.inv_of_shown ⟨herr, hdone, hquiet, hresult, hcmd, hread⟩ ⟨rfl, rfl, rfl, rfl⟩
  · exact h

theorem writeCmd_params : (writeCmd s v).params = s.params := by
  unfold writeCmd
  split <;> rfl

theorem writeCtrl_params : (writeCtrl s v).params = s.params := by
  unfold writeCtrl
  split_ifs <;> rfl

theorem windowWrite_keeps_inv (h : Inv s) (offset : Nat) :
    Inv (windowWrite s offset v) ∧ (windowWrite s offset v).params = s.params := by
  obtain ⟨herr, hdone, hquiet, hresult, hcmd, hread⟩ := h.shown
  unfold windowWrite
  split_ifs
  · exact ⟨writeCmd_keeps_inv h, writeCmd_params⟩
  iterate 4
    exact ⟨h.stored.inv_of_shown ⟨herr, hdone, hquiet, hresult, hcmd, hread⟩ ⟨rfl, rfl, rfl, rfl⟩, rfl⟩
  · exact ⟨writeCtrl_keeps_inv h, writeCtrl_params⟩
  · exact ⟨h, rfl⟩

/-- The host's own record is no part of the invariant but for a read of `DONE = 1`. -/
theorem Inv.withHost {host : HostState} (h : Inv s)
    (hread : host.doneRead = true → s.window.status.busy = false) : Inv { s with host := host } := by
  obtain ⟨herr, hdone, hquiet, hresult, hcmd, -⟩ := h.shown
  exact h.stored.inv_of_shown ⟨herr, hdone, hquiet, hresult, hcmd, hread⟩ ⟨rfl, rfl, rfl, rfl⟩

theorem Inv.advance (h : Inv s) : Inv s.advance := h.withHost h.doneReadIdle

theorem Inv.reply (h : Inv s) (r : HostReply) : Inv (s.reply r) := h.withHost h.doneReadIdle

/-- `DONE = 1` is read of an idle engine only (10_state.md R24). -/
theorem Inv.noteDone (h : Inv s) (readsStatus : Bool) : Inv (s.noteDone readsStatus) := by
  refine h.withHost fun hread => ?_
  rcases Bool.or_eq_true_iff.mp hread with hread | hread
  · exact h.doneReadIdle hread
  · rw [← Bool.not_eq_true]
    exact fun hbusy => h.busyDone ⟨hbusy, (Bool.and_eq_true_iff.mp hread).2⟩

theorem hostMove_keeps_inv (h : Inv s) (hmove : hostMove act s = .next t) :
    Inv t ∧ t.params = s.params := by
  cases act with
  | readWindow offset width =>
    simp only [hostMove] at hmove
    split at hmove <;> cases hmove
    exact ⟨((h.reply _).noteDone _).advance, rfl⟩
  | writeWindow offset width v =>
    simp only [hostMove] at hmove
    split at hmove <;> cases hmove
    obtain ⟨hinv, hparams⟩ := windowWrite_keeps_inv (v := v) h offset
    exact ⟨hinv.advance, hparams⟩
  | readMem a =>
    obtain ⟨rfl, -, -⟩ := hostMemAccess_next hmove
    exact ⟨(h.reply _).advance, rfl⟩
  | writeMem a v =>
    obtain ⟨rfl, ha, -⟩ := hostMemAccess_next hmove
    obtain ⟨hp, hc, hs, hz, hn, hl, hform, hinside⟩ := h.stored
    refine ⟨Inv.advance (Stored.inv ?_ h.shown), rfl⟩
    exact ⟨hp, hc, hs, hz, hn, hl, memWrite_wf a v hform, memWrite_inside v hinside ha⟩
  | waitDone =>
    simp only [hostMove] at hmove
    split at hmove <;> cases hmove
    · exact ⟨((h.reply _).noteDone _).advance, rfl⟩
    · exact ⟨h, rfl⟩
  | powerUp =>
    cases hmove
    have hreset : Stored s.powerUpReset := stored_reset h.params rfl rfl List.Pairwise.nil (inside_nil _ _)
    exact ⟨(hreset.inv (shown_zero _)).advance, rfl⟩

end steps

/-- Settles O59: the engine's turn ends in a completion after a checked effect, and each of the host's moves
keeps the invariant. -/
theorem stepKeepsInvariant : Obligations.StepKeepsInvariant := by
  intro s t hinv h
  rcases step_cases h with
    ⟨-, ⟨i, -, hexec⟩ | ⟨r, -, rfl⟩⟩ | ⟨-, ⟨act, -, hmove⟩ | ⟨-, rfl⟩⟩
  · exact exec_keeps_inv hinv hexec
  · exact ⟨inv_complete hinv.stored hinv.cmdLatched .illegal 0, rfl⟩
  · have hdelay : Inv { s with delay := s.delay - 1 } := 
      hinv.stored.inv_of_shown hinv.shown ⟨rfl, rfl, rfl, rfl⟩
    exact hostMove_keeps_inv (s := { s with delay := s.delay - 1 }) hdelay hmove
  · exact ⟨hinv, rfl⟩

end Sys2Proof.Machine
end

section
/-! The state machine of a slot: Free, Unkeyed and Keyed (10_state.md R42 to R49). -/

namespace Sys2Proof.Machine

/-- What a command may do to `slot[j]`, from `x` to `y`. -/
structure SlotMove (i : Instr) (j : Nat) (x y : Slot) : Prop where
  allocated : x.alloc = false → y.alloc = true → (i = .alloc ∨ ∃ m, i = .allocParts m) ∧ y.keyed = false
  freed : x.alloc = true → y.alloc = false → i = .free j
  keyed : x.keyed = false → y.keyed = true → ∃ dir, i = .setKey j dir
  unkeyed : x.keyed = true → y.keyed = false → i = .free j
  schedule : y.rk ≠ x.rk ∨ y.nr ≠ x.nr ∨ y.sched ≠ x.sched → i = .free j ∨ ∃ dir, i = .setKey j dir
  desc : x.alloc = true → y.alloc = true → y.desc = x.desc

section moves
variable {i : Instr} {s t : State} {j k : Nat} {x y : Slot}

/-- A slot that keeps its state and its schedule makes no move. -/
theorem SlotMove.of_same (halloc : y.alloc = x.alloc) (hdesc : y.desc = x.desc) (hkeyed : y.keyed = x.keyed)
    (hrk : y.rk = x.rk) (hnr : y.nr = x.nr) (hsched : y.sched = x.sched) : SlotMove i j x y where
  allocated hx hy := by simp [halloc, hx] at hy
  freed hx hy := by simp [halloc, hx] at hy
  keyed hx hy := by simp [hkeyed, hx] at hy
  unkeyed hx hy := by simp [hkeyed, hx] at hy
  schedule h := by simp [hrk, hnr, hsched] at h
  desc _ _ := hdesc

theorem SlotMove.refl : SlotMove i j x x := .of_same rfl rfl rfl rfl rfl rfl

/-- From the all-zero slot an allocation leads to Unkeyed, with the schedule still zero
(10_state.md R43). -/
theorem SlotMove.of_fresh {d : Descriptor} (hi : i = .alloc ∨ ∃ m, i = .allocParts m) :
    SlotMove i j Slot.zero (freshSlot d) where
  allocated _ _ := ⟨hi, rfl⟩
  freed hx := nomatch hx
  keyed _ hy := nomatch hy
  unkeyed hx := nomatch hx
  schedule h := by simp [freshSlot] at h
  desc hx := nomatch hx

theorem SlotMove.of_free : SlotMove (.free j) j x Slot.zero where
  allocated _ hy := nomatch hy
  freed _ _ := rfl
  keyed _ hy := nomatch hy
  unkeyed _ _ := rfl
  schedule _ := .inl rfl
  desc _ hy := nomatch hy

theorem SlotMove.of_setKey {dir : Bool} {key : List Byte} (halloc : x.alloc = true) :
    SlotMove (.setKey j dir) j x (keyedSlot x dir key) where
  allocated hx := nomatch halloc.symm.trans hx
  freed _ hy := nomatch halloc.symm.trans hy
  keyed _ _ := ⟨dir, rfl⟩
  unkeyed _ hy := nomatch hy
  schedule _ := .inr ⟨dir, rfl⟩
  desc _ _ := rfl

/-- An allocation that passes its checks takes a slot that is all zero. -/
theorem slot_freeIndex (h : Stored s) (hfree : noFreeSlot s = false) :
    s.slot (freeIndex s) = Slot.zero := by
  cases hfirst : s.firstFree with
  | none => simp [noFreeSlot, hfirst] at hfree
  | some k =>
    obtain ⟨-, hk⟩ := firstFree_some hfirst
    rw [freeIndex, hfirst]
    exact h.slot_zero hk

theorem alloc_free_passed (h : firstFailure (allocChecks s) = none) : noFreeSlot s = false := by
  rw [allocChecks, firstFailure_append_none, firstFailure_cons_none, firstFailure_cons_none] at h
  obtain ⟨-, -, hfree, -⟩ := h
  exact hfree

theorem allocParts_free_passed {mode : Nat} (h : firstFailure (allocPartsChecks s mode) = none) :
    noFreeSlot s = false := by
  simp only [allocPartsChecks, firstFailure_cons_none] at h
  obtain ⟨-, -, -, -, -, hfree, -⟩ := h
  exact hfree

theorem slotMove_cryptCommand {dec ivp : Bool} (hw : slotWritten (cryptCommand dec k ivp) s = some (j, y)) :
    SlotMove (cryptCommand dec k ivp) j (s.slot j) y := by
  cases ivp with
  | true =>
    rw [slotWritten_cryptCommand_override] at hw
    cases hw
  | false =>
    rw [slotWritten_cryptCommand] at hw
    cases hw
    exact .of_same rfl rfl rfl rfl rfl rfl

/-- What a command that passes its checks does to the slot it writes. -/
theorem slotMove_slotWritten (h : Stored s) (hok : firstFailure (checksOf i s) = none)
    (hw : slotWritten i s = some (j, y)) : SlotMove i j (s.slot j) y := by
  cases i with
  | alloc =>
    cases hw
    rw [slot_freeIndex h (alloc_free_passed hok)]
    exact .of_fresh (.inl rfl)
  | allocParts mode =>
    cases hw
    rw [slot_freeIndex h (allocParts_free_passed hok)]
    exact .of_fresh (.inr ⟨mode, rfl⟩)
  | free k =>
    cases hw
    exact .of_free
  | setKey k dir =>
    cases hw
    obtain ⟨⟨-, halloc⟩, -, -⟩ := setKey_passed hok
    exact .of_setKey halloc
  | setIv k ivp =>
    cases hw
    exact .of_same rfl rfl rfl rfl rfl rfl
  | pokeIv k =>
    cases hw
    exact .of_same rfl rfl rfl rfl rfl rfl
  | encrypt k ivp => exact slotMove_cryptCommand (dec := false) (ivp := ivp) (k := k) hw
  | decrypt k ivp => exact slotMove_cryptCommand (dec := true) (ivp := ivp) (k := k) hw
  | _ => cases hw

/-- What any command does to any slot. -/
theorem exec_slotMove (h : Stored s) (hexec : exec i s = .next t) : SlotMove i j (s.slot j) (t.slot j) := by
  rcases exec_cases hexec with ⟨e, -, rfl⟩ | ⟨hok, rfl⟩
  · exact .refl
  · rw [complete_slot]
    cases hw : slotWritten i s with
    | none =>
      rw [effectOf_slot_of_none hw]
      exact .refl
    | some p =>
      obtain ⟨k, y⟩ := p
      rw [effectOf_slot_of_some hw]
      split_ifs with hk
      · obtain ⟨rfl, -⟩ := hk
        exact slotMove_slotWritten h hok hw
      · exact .refl

end moves

/-- Settles O58. -/
theorem slotsFollowTheirStateMachine : Obligations.SlotsFollowTheirStateMachine := by
  intro i s t j hinv hexec
  obtain ⟨hallocated, hfreed, hkeyed, hunkeyed, hschedule, hdesc⟩ :=
    exec_slotMove (j := j) hinv.stored hexec
  exact ⟨hallocated, hfreed, hkeyed, hunkeyed, hschedule, hdesc⟩

end Sys2Proof.Machine
end
